-- ==== Sys2Proof/Word.lean ====
section
/-! DEFINITION. The block's two bit-vector types: the byte (00_scope.md R12) and the 16-bit command or
response word (30_encoding.md R57, R62). Bit 0 is the least significant. -/

namespace Sys2Proof

/-- A byte: an unsigned 8-bit value (R12). Every id, data byte and control value is one. -/
abbrev Byte := BitVec 8

/-- A 16-bit command word `cmd[15:0]` (R57) or response word `r[15:0]` (R62). -/
abbrev Word := BitVec 16

end Sys2Proof
end

