-- ==== Sys2Proof/Config.lean ====
section
/-! DEFINITION. The parameters the spec leaves open (00_scope.md R6..R10), the one it fixes (R11), the opaque
constants the reset machine takes its parameters from, and the spec's test configuration TC. -/

namespace Sys2Proof

/-- A handler token (R10): opaque to the block, which stores it, tests for its presence and emits it.
DESIGN CHOICE (log 2): a wrapped natural, so that states can be compared and printed. -/
structure Handler where
  token : Nat
deriving DecidableEq, Repr

/-- The OPEN parameters (R6..R9), raw; `Params.Valid` in WellFormed.lean holds their constraints.
`State` carries one of these and no step writes it (log 1). -/
structure Params where
  /-- `START` (R6). -/
  startByte : Byte
  /-- `END` (R6). -/
  endByte : Byte
  /-- `ESCAPE` (R6). -/
  escapeByte : Byte
  /-- `READ_CAP` (R7); reference value 256, which no rule depends on. -/
  readCap : Nat
  /-- `MSG_CAP` (R8); reference value 512. -/
  msgCap : Nat
  /-- `HANDLER_COUNT` (R9); reference value 8. -/
  handlerCount : Nat
deriving DecidableEq, Repr

namespace Config

/-- `SENTINEL`, what NEXT returns when the cursor is exhausted (R11, D19). -/
def sentinel : Byte := 0x00#8

/-- Free: the value of START (R6). DESIGN CHOICE (log 1). -/
opaque startSeed : BitVec 8

/-- Free: how far END lies past START, less one. Every value gives an END distinct from START. -/
opaque endSeed : Fin 255

/-- Free: which of the 254 bytes other than START and END is ESCAPE, counted upward from START. -/
opaque escapeSeed : Fin 254

/-- Free: `READ_CAP - 1` (R7). -/
opaque readCapSeed : Nat

/-- Free: `MSG_CAP - READ_CAP` (R8). -/
opaque msgCapSeed : Nat

/-- Free: `HANDLER_COUNT - 1` (R9). -/
opaque handlerCountSeed : Fin 256

/-- Free: the byte the receive buffer holds at an index before any write (R34, U20: "any value"; log 8). -/
opaque rxBufInit : Nat → BitVec 8

/-- Free: the byte the message buffer holds at an index before any write (R34, U20; log 8). -/
opaque msgBufInit : Nat → BitVec 8

/-- The parameters that seeds name. Every legal choice of R6..R9 is the image of exactly one tuple of seeds,
and every tuple names a legal choice: the seeds carry the constraints and nothing else. -/
def ofSeeds (st : Byte) (en : Fin 255) (esc : Fin 254) (rc mc : Nat) (hc : Fin 256) : Params where
  startByte := st
  endByte := st + BitVec.ofNat 8 (en.val + 1)
  escapeByte := st + BitVec.ofNat 8 (if esc.val < en.val then esc.val + 1 else esc.val + 2)
  readCap := rc + 1
  msgCap := rc + 1 + mc
  handlerCount := hc.val + 1

/-- The reset machine's parameters: left open, as R6..R9 leave them. -/
def params : Params :=
  ofSeeds startSeed endSeed escapeSeed readCapSeed msgCapSeed handlerCountSeed

/-- The test configuration TC (R6..R9, D33): a choice the spec makes for its vectors, no claim about the
component. Used by tests and witnesses only. -/
def tc : Params where
  startByte := 0xA0#8
  endByte := 0xA1#8
  escapeByte := 0xA2#8
  readCap := 4
  msgCap := 8
  handlerCount := 8

end Config

end Sys2Proof
end

