-- ==== Sys2Proof/Syntax.lean ====
section
/-! DEFINITION. The eleven commands of the block (00_scope.md R3, 30_encoding.md R60), one constructor per row of
opcode_table.json, each with exactly the operands the row takes: a command that carries a side operand it does
not take cannot be written (R58). -/

namespace Sys2Proof

/-- One command of the command port. -/
inductive Instr where
  /-- FEED b (R74): one raw received byte. -/
  | feed (b : Byte)
  /-- POLL_ONCE (R88). -/
  | pollOnce
  /-- REGISTER id, H (R91). -/
  | register (id : Byte) (h : Handler)
  /-- HAS_NEXT (R95). -/
  | hasNext
  /-- NEXT (R96). -/
  | next
  /-- HANDLER_RETURN (R98). -/
  | handlerReturn
  /-- BEGIN_SEND id (R100). -/
  | beginSend (id : Byte)
  /-- SEND_BYTE b (R101). -/
  | sendByte (b : Byte)
  /-- END_SEND (R102). -/
  | endSend
  /-- SEND0 id (R103). -/
  | send0 (id : Byte)
  /-- SEND_BLOCK id, D, OFF, LEN (R104). -/
  | sendBlock (id : Byte) (d : List Byte) (off : Nat) (len : Nat)
deriving DecidableEq, Repr

end Sys2Proof
end

