-- ==== Sys2Proof/WellFormed.lean ====
section
/-! DEFINITION. What is well formed before anything runs: a choice of parameters (00_scope.md R6..R9), a command
word (30_encoding.md R61, stated from the rule's own words and not from the decoder). An instruction of `Instr` has
no ill-formed value: a byte operand is a byte, a side operand stands only where the row takes it (R58), and OFF and
LEN are unbounded naturals (R58). What the spec checks of an operand's value (an id against HANDLER_COUNT, OFF + LEN
against the length of D) it checks when the command runs (R91, R104), not in the encoding. -/

namespace Sys2Proof

/-- The constraints R6..R9 put on the open parameters. -/
abbrev Params.Valid (p : Params) : Prop :=
  p.startByte ≠ p.endByte ∧ p.startByte ≠ p.escapeByte ∧ p.endByte ≠ p.escapeByte ∧
  1 ≤ p.readCap ∧ p.readCap ≤ p.msgCap ∧ 1 ≤ p.handlerCount ∧ p.handlerCount ≤ 256

/-- `OPC = cmd[15:8]` (R57). -/
def wordOpc (w : Word) : Byte := w.extractLsb' 8 8

/-- `B = cmd[7:0]` (R57). -/
def wordB (w : Word) : Byte := w.extractLsb' 0 8

/-- R61 (a): `OPC` is not in the opcode map, that is `0x00`, `0x07` or `0x0D..0xFF`. -/
def unmappedOpc (w : Word) : Bool :=
  (wordOpc w).toNat == 0x00 || (wordOpc w).toNat == 0x07 || 0x0D ≤ (wordOpc w).toNat

/-- R61 (b): `OPC` is POLL_ONCE, HAS_NEXT, NEXT, HANDLER_RETURN or END_SEND and `B` is not `0x00`. -/
def strayOperand (w : Word) : Bool :=
  ([0x02, 0x04, 0x05, 0x06, 0x0A].contains (wordOpc w).toNat) && (wordB w).toNat != 0x00

/-- R61: a command word is illegal if (a) or (b). -/
def illegalWord (w : Word) : Bool := unmappedOpc w || strayOperand w

end Sys2Proof
end

