-- ==== Sys2Proof/Decode.lean ====
section
/-! DEFINITION. The command-word decoder (30_encoding.md R57..R61, R65), total on every word and side operand,
and after it the encoder. -/

namespace Sys2Proof

/-- The side operands that travel with a command word on the same transaction (R58). Every transaction has
the four lines; a row reads those it takes. DESIGN CHOICE (log 10): a line a row does not take is ignored. -/
structure Side where
  /-- `H`, taken by REGISTER only. -/
  h : Handler
  /-- `D`, taken by SEND_BLOCK only. -/
  d : List Byte
  /-- `OFF`, taken by SEND_BLOCK only. -/
  off : Nat
  /-- `LEN`, taken by SEND_BLOCK only. -/
  len : Nat
deriving DecidableEq, Repr

/-- Side lines that carry nothing: token 0, no data, offset 0, length 0. -/
def Side.idle : Side := { h := { token := 0 }, d := [], off := 0, len := 0 }

/-- One transaction of the command port: the 16-bit word and its side operands. -/
structure Command where
  word : Word
  side : Side
deriving DecidableEq, Repr

/-- Why a word is illegal, by name (R61). -/
inductive DecodeError where
  /-- R61 (a): the opcode is not in the map. -/
  | unmappedOpcode (opc : Byte)
  /-- R61 (b): the operation takes no byte and `B` is not zero. -/
  | strayOperand (opc : Byte) (b : Byte)
deriving DecidableEq, Repr

/-- One row of the opcode map (R60): the mask and pattern of the word, and the instruction its `B` and side
operands give. -/
structure Row where
  mask : Word
  pattern : Word
  build : Byte → Side → Instr

/-- `(cmd & row.mask) == row.match` (R65). -/
def Row.hit (r : Row) (w : Word) : Bool := (w &&& r.mask) == r.pattern

/-- `{OPC, B}`: the opcode in the high byte (R12, R57). -/
def packWord (opc b : Byte) : Word := opc ++ b

/-- The opcode map of R60, in its order: `match = OPC << 8`, mask 0xFF00 where `B` is an operand, 0xFFFF where it must
be zero. -/
def opcodeMap : List Row :=
  [ { mask := 0xFF00#16, pattern := packWord 0x01#8 0x00#8, build := fun b _ => .feed b },
    { mask := 0xFFFF#16, pattern := packWord 0x02#8 0x00#8, build := fun _ _ => .pollOnce },
    { mask := 0xFF00#16, pattern := packWord 0x03#8 0x00#8, build := fun b sd => .register b sd.h },
    { mask := 0xFFFF#16, pattern := packWord 0x04#8 0x00#8, build := fun _ _ => .hasNext },
    { mask := 0xFFFF#16, pattern := packWord 0x05#8 0x00#8, build := fun _ _ => .next },
    { mask := 0xFFFF#16, pattern := packWord 0x06#8 0x00#8, build := fun _ _ => .handlerReturn },
    { mask := 0xFF00#16, pattern := packWord 0x08#8 0x00#8, build := fun b _ => .beginSend b },
    { mask := 0xFF00#16, pattern := packWord 0x09#8 0x00#8, build := fun b _ => .sendByte b },
    { mask := 0xFFFF#16, pattern := packWord 0x0A#8 0x00#8, build := fun _ _ => .endSend },
    { mask := 0xFF00#16, pattern := packWord 0x0B#8 0x00#8, build := fun b _ => .send0 b },
    { mask := 0xFF00#16, pattern := packWord 0x0C#8 0x00#8, build := fun b sd => .sendBlock b sd.d sd.off sd.len } ]

/-- The opcodes of the map (R60). -/
def mappedOpcodes : List Byte := opcodeMap.map (fun r => wordOpc r.pattern)

/-- The name of the reason a word no row takes is illegal (R61). -/
def decodeErrorOf (w : Word) : DecodeError :=
  if wordOpc w ∈ mappedOpcodes then .strayOperand (wordOpc w) (wordB w)
  else .unmappedOpcode (wordOpc w)

/-- The decoder of R65: the row that takes the word, with its operands, or the reason the word is illegal. -/
def decode (c : Command) : Except DecodeError Instr :=
  match opcodeMap.find? (fun r => r.hit c.word) with
  | some r => .ok (r.build (wordB c.word) c.side)
  | none => .error (decodeErrorOf c.word)

/-- The opcode of an instruction (R60). -/
def opcodeOf : Instr → Byte
  | .feed _ => 0x01#8
  | .pollOnce => 0x02#8
  | .register _ _ => 0x03#8
  | .hasNext => 0x04#8
  | .next => 0x05#8
  | .handlerReturn => 0x06#8
  | .beginSend _ => 0x08#8
  | .sendByte _ => 0x09#8
  | .endSend => 0x0A#8
  | .send0 _ => 0x0B#8
  | .sendBlock _ _ _ _ => 0x0C#8

/-- The field `B` of an instruction's word (R57, R60): its byte operand, or `0x00` where it takes none. -/
def Instr.operandB : Instr → Byte
  | .feed b => b
  | .pollOnce => 0x00#8
  | .register id _ => id
  | .hasNext => 0x00#8
  | .next => 0x00#8
  | .handlerReturn => 0x00#8
  | .beginSend id => id
  | .sendByte b => b
  | .endSend => 0x00#8
  | .send0 id => id
  | .sendBlock id _ _ _ => id

/-- The side lines an instruction drives (R58); the lines it does not take stay idle. -/
def sideOf : Instr → Side
  | .feed _ => Side.idle
  | .pollOnce => Side.idle
  | .register _ h => { Side.idle with h := h }
  | .hasNext => Side.idle
  | .next => Side.idle
  | .handlerReturn => Side.idle
  | .beginSend _ => Side.idle
  | .sendByte _ => Side.idle
  | .endSend => Side.idle
  | .send0 _ => Side.idle
  | .sendBlock _ d off len => { Side.idle with d := d, off := off, len := len }

/-- The transaction that carries an instruction (R57, R58, R60). -/
def encode (i : Instr) : Command :=
  { word := packWord (opcodeOf i) i.operandB, side := sideOf i }

/-- The instruction the decoder reads from a table row's word: `nbits` bits of `w`, every bit above them zero,
no side operand driven. A command is one 16-bit word (R57), so a value that does not fit in 16 bits is none. -/
def decodeTableWord (nbits w : Nat) : Option Instr :=
  if w % 2 ^ nbits < 2 ^ 16 then
    match decode { word := BitVec.ofNat 16 (w % 2 ^ nbits), side := Side.idle } with
    | .ok i => some i
    | .error _ => none
  else none

end Sys2Proof
end

