-- ==== Sys2Proof/Machine/State.lean ====
section
/-! DEFINITION. The state of the machine: the record S of 10_state.md R18, the environment's and the output's
state the spec names beside it (R16, R47, R62), and the model's own carriers (params, port, turns, cycle); the reasons a
step can stop; the state after reset (R34, R130). -/

namespace Sys2Proof.Machine

/-- `rx_state`, the Receive Assembler's parser state (R19). A fourth value cannot be written (R35 I5). -/
inductive RxState where
  /-- Waiting for a START. -/
  | idle
  /-- Inside a frame, interpreting control bytes. -/
  | inMessage
  /-- The previous byte was an ESCAPE inside a frame, so the next byte is literal. -/
  | escaping
deriving DecidableEq, Repr

/-- The conditions the debug sink is told of (R108). -/
inductive DbgCode where
  | bufferOverflow
  | unexpectedResync
  | unhandledType
  | cursorOverrun
  | registerOutOfRange
deriving DecidableEq, Repr

/-- The spec's fault reasons (R116), held in the sticky mark `fault` (R29). Raising one is a next state (log 6);
these are not the reasons the model stops, which are `Fault` below. -/
inductive FaultReason where
  /-- `F_ILLEGAL`: an illegal command word (R61). -/
  | illegal
  /-- `F_REENTRANT`: FEED or POLL_ONCE in handler context (R74, R88). -/
  | reentrant
  /-- `F_NOT_IN_HANDLER`: HAS_NEXT, NEXT or HANDLER_RETURN in driver context (R95, R96, R98). -/
  | notInHandler
  /-- `F_SEND_RANGE`: SEND_BLOCK with no transaction open and a range outside D (R104). -/
  | sendRange
deriving DecidableEq, Repr

/-- The events of the history `H` (R16). -/
inductive Event where
  /-- One call of the Byte Stream's writeByte. -/
  | tx (b : Byte)
  /-- One byte taken from the receive queue. -/
  | rxRead (b : Byte)
  /-- One report to the debug sink. -/
  | dbg (c : DbgCode)
  /-- A handler is invoked. -/
  | invoke (h : Handler)
  /-- The handler has returned. -/
  | ret
  /-- The poll has ended. -/
  | pollDone
deriving DecidableEq, Repr

/-- A command's response, by the response types of R62. -/
inductive Response where
  /-- FEED: `some id` if this byte finalized a message. -/
  | optByte (id : Option Byte)
  /-- POLL_ONCE, REGISTER, HANDLER_RETURN. -/
  | unit
  /-- HAS_NEXT and the send commands. -/
  | bool (v : Bool)
  /-- NEXT. -/
  | byte (b : Byte)
deriving DecidableEq, Repr

/-- Who moves next, where the spec leaves the interleaving open (R14, R47, R90, R128; log 3). -/
inductive Turn where
  /-- The block: the poll sequencer if it is enabled, else the command issuer. -/
  | block
  /-- The Byte Stream's step Arrive(b). -/
  | arrive (b : Byte)
  /-- The RESET signal. -/
  | reset
deriving DecidableEq, Repr

/-- The block's two byte buffers (R37), as a stop names them. -/
inductive Buffer where
  | rxBuf
  | msgBuf
deriving DecidableEq, Repr

/-- Why the MODEL stops. The reason is a spec error (R13) that the rules' guards make unreachable (R45): it can arise
only in states no run from launch reaches. -/
inductive Fault where
  /-- Raised by `bufRead` and `bufWrite` for an index at or above the buffer's capacity (R13, R45). Safe: the model
  stops where the spec calls the rule itself an error (log 9). -/
  | outOfCapacity (buf : Buffer) (index : Nat)
deriving DecidableEq, Repr

/-- Why the model refuses an instruction. -/
inductive Refusal where
  /-- Raised by an arm of `exec` whose instruction has no meaning yet; no arm does. Safe. -/
  | notModelled (mnemonic : String)
deriving DecidableEq, Repr

/-- A byte buffer, as the (index, byte) cells written so far, in strictly rising order of index; an index that is not
listed holds the free byte it held at reset (R34, U20; log 8). -/
abbrev Memory := List Host.Cell

/-- The machine. The first thirteen fields are the record S of R18, field for field. -/
structure State where
  /-- `rx_state` (R19). -/
  rxState : RxState
  /-- `rx_idx` (R20): decoded bytes of the frame being assembled. -/
  rxIdx : Nat
  /-- `rx_buf` (R21). -/
  rxBuf : Memory
  /-- `msg_buf` (R22). -/
  msgBuf : Memory
  /-- `payload_start` (R23). -/
  payloadStart : Nat
  /-- `payload_end` (R23). -/
  payloadEnd : Nat
  /-- `cursor` (R24). -/
  cursor : Nat
  /-- `in_handler` (R25). -/
  inHandler : Bool
  /-- `active_handler` (R25). -/
  activeHandler : Option Handler
  /-- `handler_table` (R26): entry i at position i. -/
  handlerTable : List (Option Handler)
  /-- `tx_open` (R27). -/
  txOpen : Bool
  /-- `poll_active` (R28). -/
  pollActive : Bool
  /-- `fault`, the sticky mark (R29). -/
  fault : Option FaultReason
  /-- `rx_queue`, the Byte Stream's receive side (R47), oldest first. -/
  rxQueue : List Byte
  /-- The event history `H` (R16), oldest first. -/
  history : List Event
  /-- The responses given (R62), oldest first (log 7). -/
  responses : List Response
  /-- The model's own: the open parameters (R6..R9), which no step writes (log 1). -/
  params : Params
  /-- The model's own: commands the issuer has sent and the block has not accepted, oldest first (R31; log 4). -/
  port : List Command
  /-- The model's own: who moves next (log 3). -/
  turns : List Turn
  /-- The model's own: who moves once `turns` has run out, over and over (R90; log 17). With none listed here either,
  the block moves. -/
  cycle : List Turn
deriving DecidableEq, Repr

/-- The launch state (R34, R130) of a block with parameters `p`. -/
def State.launch (p : Params) : State where
  rxState := .idle
  rxIdx := 0
  rxBuf := []
  msgBuf := []
  payloadStart := 0
  payloadEnd := 0
  cursor := 0
  inHandler := false
  activeHandler := none
  handlerTable := List.replicate p.handlerCount none
  txOpen := false
  pollActive := false
  fault := none
  rxQueue := []
  history := []
  responses := []
  params := p
  port := []
  turns := []
  cycle := []

/-- The machine right after reset: the launch state, with the parameters left open (R6..R9; log 1). -/
def State.reset : State := State.launch Config.params

/-- The outcome of a step or of an instruction. -/
abbrev Result := Host.Outcome State Fault Refusal

end Sys2Proof.Machine
end

