-- ==== Sys2Proof/Machine/Ops.lean ====
section
/-! DEFINITION. The named operations over the buffers, the history and the responses (00_scope.md R13); the raise of
a fault (60_exceptions.md R117); entry to and return from a handler (R120). -/

namespace Sys2Proof.Machine

/-- The byte written last at an index of a buffer, if one has been written. -/
def Memory.read : Memory → Nat → Option Byte
  | [], _ => none
  | (k, v) :: rest, i => if k = i then some v else Memory.read rest i

/-- The free bytes a buffer holds at reset (R34, U20; log 8). -/
def Buffer.initial : Buffer → Nat → Byte
  | .rxBuf, i => Config.rxBufInit i
  | .msgBuf, i => Config.msgBufInit i

/-- The byte a buffer holds at an index: the one last written, else the free byte of reset. -/
def Memory.byteAt (buf : Buffer) (m : Memory) (i : Nat) : Byte :=
  match Memory.read m i with
  | some v => v
  | none => buf.initial i

/-- The buffer with `v` at index `i`, in canonical form. -/
def Memory.write : Memory → Nat → Byte → Memory
  | [], i, v => [(i, v)]
  | (k, w) :: rest, i, v =>
    if i < k then (i, v) :: (k, w) :: rest
    else if i = k then (i, v) :: rest
    else (k, w) :: Memory.write rest i v

/-- The canonical form: indices strictly rising. An unlisted index reads as a free byte, which no entry can be
shown to equal (log 8). -/
abbrev Memory.wf (m : Memory) : Prop := m.Pairwise (fun x y => x.1 < y.1)

/-- `BufRead(buf, i)` (R13): defined for every `i` below the capacity, and for no other. -/
def bufRead (buf : Buffer) (cap : Nat) (m : Memory) (i : Nat) : Except Fault Byte :=
  if i < cap then .ok (Memory.byteAt buf m i) else .error (.outOfCapacity buf i)

/-- `BufWrite(buf, i, v)` (R13): defined only for `i` below the capacity. -/
def bufWrite (buf : Buffer) (cap : Nat) (m : Memory) (i : Nat) (v : Byte) : Except Fault Memory :=
  if i < cap then .ok (Memory.write m i v) else .error (.outOfCapacity buf i)

/-- Finalize's loop (R83): `for i in 0 .. n-1: BufWrite(msg_buf, i, BufRead(rx_buf, i))`. -/
def copyPrefix (p : Params) (rx msg : Memory) : Nat → Except Fault Memory
  | 0 => .ok msg
  | n + 1 =>
    match copyPrefix p rx msg n with
    | .error f => .error f
    | .ok m =>
      match bufRead .rxBuf p.readCap rx n with
      | .error f => .error f
      | .ok v => bufWrite .msgBuf p.msgCap m n v

/-- `Emit(e)` (R13): append one event to `H`. -/
def emit (e : Event) (s : State) : State := { s with history := s.history ++ [e] }

/-- `Report(code)` (R13): one call of the debug sink. -/
def report (c : DbgCode) (s : State) : State := emit (.dbg c) s

/-- `TxWrite(b)` (R13, R47): one call of writeByte, which always completes. -/
def txWrite (b : Byte) (s : State) : State := emit (.tx b) s

/-- `resp <- v` (R13, R62): the command's response. -/
def respond (r : Response) (s : State) : State := { s with responses := s.responses ++ [r] }

/-- `raise Fault(r)` (R13, R14, R117): sets the sticky mark, changes no other field, appends no event, gives no
response. -/
def raise (r : FaultReason) (s : State) : State := { s with fault := some r }

/-- `hold` (R13, R14): nothing changes and the agent waits. DESIGN CHOICE (log 5): a step that changes nothing. -/
def hold (s : State) : State := s

/-- Entry to a handler (R92, R120): the cursor is positioned, handler context is entered, `Invoke(h)` is emitted. -/
def enterHandler (h : Handler) (s : State) : State :=
  emit (.invoke h) { s with cursor := s.payloadStart, inHandler := true, activeHandler := some h }

/-- Return from a handler (R98, R120): driver context is restored, `Ret` is emitted. -/
def leaveHandler (s : State) : State :=
  emit .ret { s with inHandler := false, activeHandler := none }

/-- The 2-bit encoding of `rx_state` (R19), for a register-level reader; no command shows it. -/
def RxState.code : RxState → BitVec 2
  | .idle => 0b00#2
  | .inMessage => 0b01#2
  | .escaping => 0b10#2

/-- The debug codes (R108). -/
def DbgCode.code : DbgCode → Byte
  | .bufferOverflow => 0x01#8
  | .unexpectedResync => 0x02#8
  | .unhandledType => 0x03#8
  | .cursorOverrun => 0x04#8
  | .registerOutOfRange => 0x05#8

/-- The fault codes (R116). -/
def FaultReason.code : FaultReason → Nat
  | .illegal => 1
  | .reentrant => 2
  | .notInHandler => 3
  | .sendRange => 4

/-- The 16-bit response word (R62). -/
def Response.word : Response → Word
  | .optByte none => 0x0000#16
  | .optByte (some id) => packWord 0x01#8 id
  | .unit => 0x0000#16
  | .bool false => 0x0000#16
  | .bool true => 0x0001#16
  | .byte b => packWord 0x00#8 b

end Sys2Proof.Machine
end

