-- ==== Sys2Proof/Machine/Operands.lean ====
section
/-! DEFINITION. The operand forms (30_encoding.md R59): an id as a table index, an id's table entry, and SEND_BLOCK's
range of its data. -/

namespace Sys2Proof.Machine

/-- `zext(id) < HANDLER_COUNT` (R59, R40). -/
def idInTable (p : Params) (id : Byte) : Bool := decide (id.toNat < p.handlerCount)

/-- `handler_table[id]`, read only for an id below HANDLER_COUNT; an id at or above it has no entry (R40, R92). -/
def tableEntry (s : State) (id : Byte) : Option Handler :=
  if idInTable s.params id then s.handlerTable.getD id.toNat none else none

/-- `handler_table[id] <- some h` (R91). -/
def tableWrite (id : Byte) (h : Handler) (s : State) : State :=
  { s with handlerTable := s.handlerTable.set id.toNat (some h) }

/-- SEND_BLOCK's range `[OFF, OFF + LEN)` is not inside `D` (R104). -/
def rangeOutside (d : List Byte) (off len : Nat) : Bool := decide (d.length < off + len)

/-- The bytes `D[OFF + i]` for `0 <= i < LEN`, in order (R59, R104). -/
def rangeBytes (d : List Byte) (off len : Nat) : List Byte := (d.drop off).take len

end Sys2Proof.Machine
end

