-- ==== Sys2Proof/Machine/Flags.lean ====
section
/-! DEFINITION. The status flags (10_state.md R32) and the contexts they put the block in (60_exceptions.md R119, R121):
when a command is accepted, when it holds, and the context check each family makes. -/

namespace Sys2Proof.Machine

/-- Poll-owned (R121): the poll sequencer steps and every command holds. -/
def State.pollOwned (s : State) : Bool := s.pollActive && !s.inHandler

/-- A command is accepted, up to its decode and its context check: no fault, and not poll-owned (R119 steps 1, 2). -/
def State.accepting (s : State) : Bool := s.fault.isNone && !s.pollOwned

/-- The poll sequencer is enabled (R89). -/
def State.pollEnabled (s : State) : Bool := s.pollActive && !s.inHandler && s.fault.isNone

/-- `tx_open <- v` (R100, R102). -/
def setTxOpen (v : Bool) (s : State) : State := { s with txOpen := v }

/-- `poll_active <- v` (R88, R89). -/
def setPollActive (v : Bool) (s : State) : State := { s with pollActive := v }

/-- A command accepted in driver and in handler context (R121). -/
def inAnyContext (s : State) (run : State → Result) : Result :=
  if s.accepting then run s else .next (hold s)

/-- A command accepted in driver context only: `F_REENTRANT` in handler context (R121). -/
def inDriver (s : State) (run : State → Result) : Result :=
  if s.accepting then
    if s.inHandler then .next (raise .reentrant s) else run s
  else .next (hold s)

/-- A command accepted in handler context only: `F_NOT_IN_HANDLER` in driver context (R121). -/
def inHandlerOnly (s : State) (run : State → Result) : Result :=
  if s.accepting then
    if s.inHandler then run s else .next (raise .notInHandler s)
  else .next (hold s)

end Sys2Proof.Machine
end

