-- ==== Sys2Proof/Machine/Codec.lean ====
section
/-! DEFINITION. The Frame Codec (40_frame_codec.md): the escaping rule, the wire frame, the decode side as a function,
and the escaped write of the send commands. -/

namespace Sys2Proof.Machine

/-- `isCtrl(b)` (R15): `b` is one of the three reserved bytes. -/
def isCtrl (p : Params) (b : Byte) : Bool := b == p.startByte || b == p.endByte || b == p.escapeByte

/-- `esc(b)` (R66). -/
def esc (p : Params) (b : Byte) : List Byte := if isCtrl p b then [p.escapeByte, b] else [b]

/-- `concat(map esc ds)` (R68, R70). -/
def escAll (p : Params) : List Byte → List Byte
  | [] => []
  | d :: ds => esc p d ++ escAll p ds

/-- `encodeFrame(id, p)` (R53, R68). -/
def encodeFrame (p : Params) (id : Byte) (payload : List Byte) : List Byte :=
  [p.startByte] ++ esc p id ++ escAll p payload ++ [p.endByte]

/-- `decodeBody` (R69): un-escapes the bytes strictly between a frame's START and END. The byte after an ESCAPE is
literal; a body that ends inside an escape, or holds a bare START or END, has no decoding. -/
def decodeBody (p : Params) : List Byte → Option (List Byte)
  | [] => some []
  | [d] => if isCtrl p d then none else some [d]
  | d :: e :: rest =>
    if d == p.escapeByte then (decodeBody p rest).map (fun ds => e :: ds)
    else if isCtrl p d then none
    else (decodeBody p (e :: rest)).map (fun ds => d :: ds)

/-- `TxEsc(b)` (R67). -/
def txEsc (b : Byte) (s : State) : State :=
  if isCtrl s.params b then txWrite b (txWrite s.params.escapeByte s) else txWrite b s

/-- `for i in 0 .. LEN-1: TxEsc(D[OFF + i])` (R104). -/
def txEscEach : List Byte → State → State
  | [], s => s
  | b :: bs, s => txEscEach bs (txEsc b s)

/-- The pseudo-instruction `FEEDS b0, ..., bk` (R64). -/
def feeds (bs : List Byte) : List Instr := bs.map Instr.feed

/-- The pseudo-instruction `FEED_FRAME id, [p0, ..., pn-1]` (R64). -/
def feedFrame (p : Params) (id : Byte) (payload : List Byte) : List Instr := feeds (encodeFrame p id payload)

end Sys2Proof.Machine
end

