-- ==== Sys2Proof/Machine/Router.lean ====
section
/-! DEFINITION. The dispatch router (42_dispatch_cursor.md): DISPATCH, REGISTER, HAS_NEXT, NEXT, HANDLER_RETURN. -/

namespace Sys2Proof.Machine

/-- DISPATCH (R92), internal: runs inside Finalize on the id just finalized. -/
def dispatch (id : Byte) (s : State) : State :=
  match tableEntry s id with
  | some h => enterHandler h s
  | none => report .unhandledType s

/-- REGISTER id, H (R91). -/
def execRegister (id : Byte) (h : Handler) (s : State) : Result :=
  inAnyContext s fun s =>
    .next (respond .unit
      (if idInTable s.params id then tableWrite id h s else report .registerOutOfRange s))

/-- HAS_NEXT (R95). -/
def execHasNext (s : State) : Result :=
  inHandlerOnly s fun s => .next (respond (.bool (decide (s.cursor < s.payloadEnd))) s)

/-- NEXT (R96, R97). -/
def execNext (s : State) : Result :=
  inHandlerOnly s fun s =>
    if s.cursor < s.payloadEnd then
      match bufRead .msgBuf s.params.msgCap s.msgBuf s.cursor with
      | .ok v => .next (respond (.byte v) { s with cursor := s.cursor + 1 })
      | .error f => .fault f
    else .next (respond (.byte Config.sentinel) (report .cursorOverrun s))

/-- HANDLER_RETURN (R98). -/
def execHandlerReturn (s : State) : Result :=
  inHandlerOnly s fun s => .next (respond .unit (leaveHandler s))

end Sys2Proof.Machine
end

