-- ==== Sys2Proof/Machine/Assembler.lean ====
section
/-! DEFINITION. The Receive Assembler (41_receive_assembler.md): Append, Finalize, AssembleStep, FEED, POLL_ONCE and the
poll sequencer's step. -/

namespace Sys2Proof.Machine

/-- `Append(b)` with its capacity check (R81). -/
def appendByte (b : Byte) (s : State) : Except Fault State :=
  if s.rxIdx = s.params.readCap then
    .ok { report .bufferOverflow s with rxState := .idle, rxIdx := 0 }
  else
    match bufWrite .rxBuf s.params.readCap s.rxBuf s.rxIdx b with
    | .ok m => .ok { s with rxBuf := m, rxIdx := s.rxIdx + 1, rxState := .inMessage }
    | .error f => .error f

/-- `Finalize()` (R83): the copy, the bounds, the return to Idle, then DISPATCH on the id at position 0. -/
def finalize (s : State) : Except Fault (Option Byte × State) :=
  match copyPrefix s.params s.rxBuf s.msgBuf s.rxIdx with
  | .error f => .error f
  | .ok m =>
    match bufRead .msgBuf s.params.msgCap m 0 with
    | .error f => .error f
    | .ok id =>
      .ok (some id, dispatch id
        { s with msgBuf := m, payloadStart := 1, payloadEnd := s.rxIdx, rxState := .idle, rxIdx := 0 })

/-- `Append(b)` as an assembler step: nothing is finalized (R80, R82). -/
def appendStep (b : Byte) (s : State) : Except Fault (Option Byte × State) :=
  match appendByte b s with
  | .ok t => .ok (none, t)
  | .error f => .error f

/-- The state `InMessage` of `AssembleStep` (R77..R80, R84). -/
def inMessageStep (b : Byte) (s : State) : Except Fault (Option Byte × State) :=
  if b == s.params.escapeByte then .ok (none, { s with rxState := .escaping })
  else if b == s.params.endByte then
    if s.rxIdx = 0 then .ok (none, { s with rxState := .idle }) else finalize s
  else if b == s.params.startByte then
    .ok (none, report .unexpectedResync { s with rxIdx := 0, rxState := .inMessage })
  else appendStep b s

/-- `AssembleStep(b)` (R75): the id of the message this byte finalized, if it did, and the next state. -/
def assembleStep (b : Byte) (s : State) : Except Fault (Option Byte × State) :=
  match s.rxState with
  | .idle =>
    .ok (none, if b == s.params.startByte then { s with rxIdx := 0, rxState := .inMessage } else s)
  | .inMessage => inMessageStep b s
  | .escaping => appendStep b s

/-- FEED b (R74): the assembler step, with its answer as the response. -/
def execFeed (b : Byte) (s : State) : Result :=
  inDriver s fun s =>
    match assembleStep b s with
    | .ok (r, t) => .next (respond (.optByte r) t)
    | .error f => .fault f

/-- POLL_ONCE (R88): the poll begins; its response comes with `PollDone` (R89). -/
def execPollOnce (s : State) : Result :=
  inDriver s fun s => .next (setPollActive true s)

/-- `RxRead()` (R13, R47): `b` was the head of the queue and `rest` is what stays. -/
def rxRead (b : Byte) (rest : List Byte) (s : State) : State :=
  emit (.rxRead b) { s with rxQueue := rest }

/-- `PollStep()` (R89), the poll sequencer's step, taken only where it is enabled: one byte to the assembler, or
the end of the poll with POLL_ONCE's response (R62). -/
def pollStep (s : State) : Result :=
  match s.rxQueue with
  | [] => .next (respond .unit (emit .pollDone (setPollActive false s)))
  | b :: rest =>
    match assembleStep b (rxRead b rest s) with
    | .ok (_, t) => .next t
    | .error f => .fault f

end Sys2Proof.Machine
end

