-- ==== Sys2Proof/Machine/SendSession.lean ====
section
/-! DEFINITION. The Send Session (43_send_session.md): BEGIN_SEND, SEND_BYTE, END_SEND, SEND0, SEND_BLOCK. A send that
fails writes no byte, changes no state and makes no report (R114). -/

namespace Sys2Proof.Machine

/-- A send command's failure: the response `false` and nothing else (R100..R104, R114). -/
def sendFails (s : State) : Result := .next (respond (.bool false) s)

/-- BEGIN_SEND id (R100). -/
def execBeginSend (id : Byte) (s : State) : Result :=
  inAnyContext s fun s =>
    if s.txOpen then sendFails s
    else .next (respond (.bool true) (txEsc id (txWrite s.params.startByte (setTxOpen true s))))

/-- SEND_BYTE b (R101). -/
def execSendByte (b : Byte) (s : State) : Result :=
  inAnyContext s fun s =>
    if s.txOpen then .next (respond (.bool true) (txEsc b s)) else sendFails s

/-- END_SEND (R102). -/
def execEndSend (s : State) : Result :=
  inAnyContext s fun s =>
    if s.txOpen then .next (respond (.bool true) (setTxOpen false (txWrite s.params.endByte s)))
    else sendFails s

/-- SEND0 id (R103). -/
def execSend0 (id : Byte) (s : State) : Result :=
  inAnyContext s fun s =>
    if s.txOpen then sendFails s
    else
      .next (respond (.bool true)
        (txWrite s.params.endByte (txEsc id (txWrite s.params.startByte s))))

/-- SEND_BLOCK id, D, OFF, LEN (R104): `tx_open` is checked before the range. -/
def execSendBlock (id : Byte) (d : List Byte) (off len : Nat) (s : State) : Result :=
  inAnyContext s fun s =>
    if s.txOpen then sendFails s
    else if rangeOutside d off len then .next (raise .sendRange s)
    else
      .next (respond (.bool true)
        (txWrite s.params.endByte
          (txEscEach (rangeBytes d off len) (txEsc id (txWrite s.params.startByte s)))))

end Sys2Proof.Machine
end

