-- ==== Sys2Proof/Machine/Dispatch.lean ====
section
/-! DEFINITION. One arm per command: the meaning each constructor of Instr has. -/

namespace Sys2Proof.Machine

def exec (i : Instr) (s : State) : Host.Outcome State Fault Refusal :=
  match i with
  | .feed b => Sys2Proof.Machine.execFeed b s
  | .pollOnce => Sys2Proof.Machine.execPollOnce s
  | .register id h => Sys2Proof.Machine.execRegister id h s
  | .hasNext => Sys2Proof.Machine.execHasNext s
  | .next => Sys2Proof.Machine.execNext s
  | .handlerReturn => Sys2Proof.Machine.execHandlerReturn s
  | .beginSend id => Sys2Proof.Machine.execBeginSend id s
  | .sendByte b => Sys2Proof.Machine.execSendByte b s
  | .endSend => Sys2Proof.Machine.execEndSend s
  | .send0 id => Sys2Proof.Machine.execSend0 id s
  | .sendBlock id d off len => Sys2Proof.Machine.execSendBlock id d off len s

end Sys2Proof.Machine
end

