-- ==== Sys2Proof/Machine/Agents.lean ====
section
/-! DEFINITION. Who moves in a step (00_scope.md R14): the Byte Stream's Arrive (20_memory.md R47), the RESET signal
(70_reset_and_hazards.md R128, R129), and the block, that is the poll sequencer (41_receive_assembler.md R89) or the
command issuer (60_exceptions.md R119, R121). -/

namespace Sys2Proof.Machine

/-- `Arrive(b)` (R47): the Byte Stream appends `b` at the tail of its queue, at any time. -/
def arrive (b : Byte) (s : State) : State := { s with rxQueue := s.rxQueue ++ [b] }

/-- The effect of RESET (R128): every field of S but `fault`, `rx_buf` and `msg_buf`; no event, no response. What R129
lists (`fault`, the history, the receive queue) it does not touch. -/
def resetEffect (s : State) : State :=
  { s with
    rxState := .idle, rxIdx := 0
    payloadStart := 0, payloadEnd := 0, cursor := 0
    inHandler := false, activeHandler := none
    handlerTable := List.replicate s.params.handlerCount none
    txOpen := false
    pollActive := false }

/-- The RESET signal (R128): accepted at any time except when `fault` is set. -/
def resetSignal (s : State) : State := if s.fault.isNone then resetEffect s else hold s

/-- A command the issuer sends, already accepted (R119 steps 3..5): decoded, then executed; an illegal word raises
`F_ILLEGAL` (R61). -/
def runCommand (c : Command) (s : State) : Result :=
  match decode c with
  | .ok i => exec i s
  | .error _ => .next (raise .illegal s)

/-- The block's step: none once it has faulted (R117); the poll sequencer's while the block is poll-owned (R89, R121);
else the next command of the port (R31), or a hold if the issuer has sent none. -/
def blockStep (s : State) : Result :=
  if s.fault.isSome then .next (hold s)
  else if s.pollOwned then pollStep s
  else
    match s.port with
    | [] => .next (hold s)
    | c :: cs => runCommand c { s with port := cs }

/-- The turns due: those listed, else the repeated ones from their start (log 3, log 17). -/
def State.due (s : State) : List Turn :=
  match s.turns with
  | [] => s.cycle
  | t :: ts => t :: ts

/-- One step of the whole system: the next due turn's agent moves, and the block where none is due (log 3). -/
def takeTurn (s : State) : Result :=
  match s.due with
  | [] => blockStep s
  | .block :: ts => blockStep { s with turns := ts }
  | .arrive b :: ts => .next (arrive b { s with turns := ts })
  | .reset :: ts => .next (resetSignal { s with turns := ts })

/-- The issuer sends a command ahead of those waiting, and the block has the next turn. -/
def offer (c : Command) (s : State) : State :=
  { s with port := c :: s.port, turns := .block :: s.turns }

end Sys2Proof.Machine
end

