-- ==== Sys2Proof/Machine/Step.lean ====
section
/-! DEFINITION. The step of the machine, and the placing of a command where the next step takes it. -/

namespace Sys2Proof.Machine

/-- One atomic step (R14). -/
def step (s : State) : Host.Outcome State Fault Refusal := takeTurn s

/-- `s` with the command word `w` (16 bits, the bits above `nbits` zero, no side operand driven) at the head of the
command port and the block's turn next: the block fetches nothing (R31), the port is where its next command comes from
(log 4). -/
def State.withFetchWord (s : State) (nbits w : Nat) : State :=
  offer { word := BitVec.ofNat 16 (w % 2 ^ nbits), side := Side.idle } s

end Sys2Proof.Machine
end

