-- ==== Sys2Proof/Safety.lean ====
section
/-! DEFINITION. The terms claims are stated in: the contexts (60_exceptions.md R121), the invariants (10_state.md R35)
with the ranges of R18, the end of a run (70_reset_and_hazards.md R142), a sequence of commands run one after the other,
and the renaming of handler tokens (00_scope.md R10). -/

namespace Sys2Proof.Machine

/-- Driver context (R121), with no fault. -/
abbrev State.Driver (s : State) : Prop := s.fault = none ∧ s.inHandler = false ∧ s.pollActive = false

/-- Handler context (R121), whether or not a poll is active, with no fault. -/
abbrev State.InHandlerCtx (s : State) : Prop := s.fault = none ∧ s.inHandler = true

/-- Poll-owned (R121), with no fault. -/
abbrev State.PollOwned (s : State) : Prop := s.fault = none ∧ s.inHandler = false ∧ s.pollActive = true

/-- Driver or handler context: a command is accepted, up to its decode and its context check (R119, R121). -/
abbrev State.Accepts (s : State) : Prop := s.Driver ∨ s.InHandlerCtx

/-- R35 (I1), (I4). -/
abbrev State.RxInv (s : State) : Prop :=
  s.rxIdx ≤ s.params.readCap ∧ (s.rxState = .idle → s.rxIdx = 0)

/-- R35 (I2), (I3), (I7); with `WrittenInv`, (I6). -/
abbrev State.HandlerInv (s : State) : Prop :=
  s.inHandler = s.activeHandler.isSome ∧
  (s.inHandler = true → s.payloadStart = 1 ∧ 1 ≤ s.cursor ∧ s.cursor ≤ s.payloadEnd ∧
    s.payloadEnd ≤ s.params.readCap) ∧
  (s.inHandler = true → s.rxState = .idle)

/-- The ranges of R18 that (I1) and (I3) do not give. -/
abbrev State.RangeInv (s : State) : Prop :=
  s.payloadStart ≤ s.params.msgCap ∧ s.payloadEnd ≤ s.params.msgCap ∧ s.cursor ≤ s.params.msgCap ∧
  s.handlerTable.length = s.params.handlerCount

/-- Each buffer is in canonical form and lists no index at or above its capacity (R37, R45). -/
abbrev State.BufferInv (s : State) : Prop :=
  Memory.wf s.rxBuf ∧ Memory.wf s.msgBuf ∧
  (∀ c ∈ s.rxBuf, c.1 < s.params.readCap) ∧ (∀ c ∈ s.msgBuf, c.1 < s.params.msgCap)

/-- What a rule may come to read has been written (R34: "never read before written"). -/
abbrev State.WrittenInv (s : State) : Prop :=
  (∀ i < s.rxIdx, (Memory.read s.rxBuf i).isSome = true) ∧
  (∀ i < s.payloadEnd, (Memory.read s.msgBuf i).isSome = true)

/-- The invariant every step keeps (R35), with the parameters' constraints (R6..R9). -/
abbrev State.Inv (s : State) : Prop :=
  s.params.Valid ∧ s.RxInv ∧ s.HandlerInv ∧ s.RangeInv ∧ s.BufferInv ∧ s.WrittenInv

/-- A run has ended normally (R142), with `rest` left in the receive queue, as the claim states. -/
abbrev State.EndedWith (s : State) (rest : List Byte) : Prop :=
  s.port = [] ∧ s.fault = none ∧ s.pollActive = false ∧ s.inHandler = false ∧ s.rxQueue = rest

/-- A run has ended normally (R142), with nothing left in the receive queue. -/
abbrev State.Ended (s : State) : Prop := s.EndedWith []

/-- The commands `is`, each executed once, whole, in order, with no other agent's step between them (R31, R105). -/
def execAll : List Instr → State → Result
  | [], s => .next s
  | i :: is, s =>
    match exec i s with
    | .next t => execAll is t
    | .fault f => .fault f
    | .refused r => .refused r

/-- `n` steps of the machine, stopping at the first stop. -/
def stepN : Nat → State → Result
  | 0, s => .next s
  | n + 1, s =>
    match step s with
    | .next t => stepN n t
    | .fault f => .fault f
    | .refused r => .refused r

/-- An instruction with its handler token renamed (R10). -/
def renameInstr (f : Handler → Handler) : Instr → Instr
  | .feed b => .feed b
  | .pollOnce => .pollOnce
  | .register id h => .register id (f h)
  | .hasNext => .hasNext
  | .next => .next
  | .handlerReturn => .handlerReturn
  | .beginSend id => .beginSend id
  | .sendByte b => .sendByte b
  | .endSend => .endSend
  | .send0 id => .send0 id
  | .sendBlock id d off len => .sendBlock id d off len

/-- An event with its handler token renamed. -/
def renameEvent (f : Handler → Handler) : Event → Event
  | .tx b => .tx b
  | .rxRead b => .rxRead b
  | .dbg c => .dbg c
  | .invoke h => .invoke (f h)
  | .ret => .ret
  | .pollDone => .pollDone

/-- A transaction with its handler line renamed. -/
def renameCommand (f : Handler → Handler) (c : Command) : Command :=
  { c with side := { c.side with h := f c.side.h } }

/-- A state with every handler token renamed: the table, the active handler, the history and the port (R10). -/
def renameState (f : Handler → Handler) (s : State) : State :=
  { s with
    activeHandler := s.activeHandler.map f
    handlerTable := s.handlerTable.map (fun e => e.map f)
    history := s.history.map (renameEvent f)
    port := s.port.map (renameCommand f) }

/-- An outcome with every handler token renamed. -/
def renameResult (f : Handler → Handler) : Result → Result
  | .next t => .next (renameState f t)
  | .fault r => .fault r
  | .refused r => .refused r

/-- An outcome with its next state changed. -/
def mapNext (g : State → State) : Result → Result
  | .next t => .next (g t)
  | .fault r => .fault r
  | .refused r => .refused r

/-- `s` with `tx_open` set to `v`, all the send path holds (R49). -/
def withSendPath (v : Bool) (s : State) : State := { s with txOpen := v }

/-- `s` with the receive path of `r` (R49), but for the two flags the issue gating reads (R121). -/
def withReceivePath (r s : State) : State :=
  { s with
    rxState := r.rxState, rxIdx := r.rxIdx, rxBuf := r.rxBuf, msgBuf := r.msgBuf
    payloadStart := r.payloadStart, payloadEnd := r.payloadEnd, cursor := r.cursor
    activeHandler := r.activeHandler, handlerTable := r.handlerTable, rxQueue := r.rxQueue }

/-- The five send commands (43_send_session.md). -/
def isSendCommand : Instr → Bool
  | .feed _ => false
  | .pollOnce => false
  | .register _ _ => false
  | .hasNext => false
  | .next => false
  | .handlerReturn => false
  | .beginSend _ => true
  | .sendByte _ => true
  | .endSend => true
  | .send0 _ => true
  | .sendBlock _ _ _ _ => true

/-- The response type R62 gives a command that completes; POLL_ONCE's unit response comes when the poll ends. -/
def responseFits : Instr → Response → Prop
  | .feed _, r => ∃ o, r = .optByte o
  | .pollOnce, _ => False
  | .register _ _, r => r = .unit
  | .hasNext, r => ∃ v, r = .bool v
  | .next, r => ∃ b, r = .byte b
  | .handlerReturn, r => r = .unit
  | .beginSend _, r => ∃ v, r = .bool v
  | .sendByte _, r => ∃ v, r = .bool v
  | .endSend, r => ∃ v, r = .bool v
  | .send0 _, r => ∃ v, r = .bool v
  | .sendBlock _ _ _ _, r => ∃ v, r = .bool v

end Sys2Proof.Machine
end

