-- ==== Sys2Proof/Certificates/Slice0/Obligations.lean ====
section
/-! DEFINITION. The statements for the provers, each with the rule of spec/ it formalises. Where a rule rests on a
decision D<n> that the spec made itself, the docstring names it. A statement about a next state of the model that is
the model's own convention (a hold, a fault as a next state, the turns) names its log entry. -/

open Sys2Proof Sys2Proof.Machine

/-! ## Encoding -/

/-- Words of every family, written out from R60 (vectors E8, E9 and the words of 95_test_vectors.md), decode to the
commands they stand for. The side lines carry token 7, data [0x33], offset 0, length 1. -/
def Obligations.CommandWordsDecode : Prop :=
  let sd : Side := { h := { token := 7 }, d := [0x33#8], off := 0, len := 1 }
  decode { word := 0x01FF#16, side := sd } = .ok (.feed 0xFF#8) ∧
  decode { word := 0x0200#16, side := sd } = .ok .pollOnce ∧
  decode { word := 0x0305#16, side := sd } = .ok (.register 0x05#8 { token := 7 }) ∧
  decode { word := 0x0400#16, side := sd } = .ok .hasNext ∧
  decode { word := 0x0500#16, side := sd } = .ok .next ∧
  decode { word := 0x0600#16, side := sd } = .ok .handlerReturn ∧
  decode { word := 0x08A1#16, side := sd } = .ok (.beginSend 0xA1#8) ∧
  decode { word := 0x0907#16, side := sd } = .ok (.sendByte 0x07#8) ∧
  decode { word := 0x0A00#16, side := sd } = .ok .endSend ∧
  decode { word := 0x0B05#16, side := sd } = .ok (.send0 0x05#8) ∧
  decode { word := 0x0CA0#16, side := sd } = .ok (.sendBlock 0xA0#8 [0x33#8] 0 1)

/-- R60 (D6): the opcode map, row by row, for every operand byte and every side operand; and every opcode value not
listed is illegal. -/
def Obligations.OpcodeMapDecodes : Prop :=
  ∀ (b : Byte) (sd : Side),
    decode { word := 0x01#8 ++ b, side := sd } = .ok (.feed b) ∧
    decode { word := 0x0200#16, side := sd } = .ok .pollOnce ∧
    decode { word := 0x03#8 ++ b, side := sd } = .ok (.register b sd.h) ∧
    decode { word := 0x0400#16, side := sd } = .ok .hasNext ∧
    decode { word := 0x0500#16, side := sd } = .ok .next ∧
    decode { word := 0x0600#16, side := sd } = .ok .handlerReturn ∧
    decode { word := 0x08#8 ++ b, side := sd } = .ok (.beginSend b) ∧
    decode { word := 0x09#8 ++ b, side := sd } = .ok (.sendByte b) ∧
    decode { word := 0x0A00#16, side := sd } = .ok .endSend ∧
    decode { word := 0x0B#8 ++ b, side := sd } = .ok (.send0 b) ∧
    decode { word := 0x0C#8 ++ b, side := sd } = .ok (.sendBlock b sd.d sd.off sd.len) ∧
    ∀ opc : Byte, opc ∉ [0x01#8, 0x02#8, 0x03#8, 0x04#8, 0x05#8, 0x06#8, 0x08#8, 0x09#8, 0x0A#8, 0x0B#8, 0x0C#8] →
      decode { word := opc ++ b, side := sd } = .error (.unmappedOpcode opc)

/-- R61 (D7): a word is refused by the decoder exactly when the rule calls it illegal, and executing an illegal word
raises F_ILLEGAL, in driver and in handler context alike. That the faulted command is taken off the port is the model's
convention (log 6). -/
def Obligations.IllegalWordsFault : Prop :=
  (∀ c : Command, illegalWord c.word = true ↔ ∃ e, decode c = .error e) ∧
  (∀ c : Command, unmappedOpc c.word = true → decode c = .error (.unmappedOpcode (wordOpc c.word))) ∧
  (∀ c : Command, strayOperand c.word = true →
    decode c = .error (.strayOperand (wordOpc c.word) (wordB c.word))) ∧
  (∀ (s : State) (c : Command) (cs : List Command), s.Accepts → s.due = [] → s.port = c :: cs →
    illegalWord c.word = true → step s = .next { s with port := cs, fault := some .illegal })

/-- Every command, with every value of every operand, decodes back from its own encoding: no bit of the word and no side
line is dropped (R57, R58, R60). -/
def Obligations.DecodeEncodeRoundTrip : Prop :=
  ∀ i : Instr, decode (encode i) = .ok i

/-- Every legal word is the encoding of the command it decodes to: a word has one meaning (R57, R60). -/
def Obligations.EncodeDecodeRoundTrip : Prop :=
  ∀ (c : Command) (i : Instr), decode c = .ok i → (encode i).word = c.word

/-- R65 (D6, D7): the decoder is total; the row that takes a word is the only one that does and gives its result; where
no row takes it the word is illegal. -/
def Obligations.DecoderPicksAtMostOneRow : Prop :=
  (∀ (w : Word) (r r' : Row), r ∈ opcodeMap → r' ∈ opcodeMap → r.hit w = true → r'.hit w = true →
    r.mask = r'.mask ∧ r.pattern = r'.pattern ∧ r.build = r'.build) ∧
  (∀ (c : Command) (r : Row), r ∈ opcodeMap → (c.word &&& r.mask) = r.pattern →
    decode c = .ok (r.build (wordB c.word) c.side)) ∧
  (∀ c : Command, (∀ r ∈ opcodeMap, (c.word &&& r.mask) ≠ r.pattern) →
    illegalWord c.word = true ∧ ∃ e, decode c = .error e)

/-- R62 (D8): an accepted command that raises no fault gives exactly one response, of its own type; POLL_ONCE's comes with
the end of the poll; a fault gives none; and the 16-bit encodings. -/
def Obligations.ResponsesFollowTheirTypes : Prop :=
  (∀ (i : Instr) (s t : State), s.Accepts → exec i s = .next t → t.fault = none → i ≠ .pollOnce →
    ∃ r, responseFits i r ∧ t.responses = s.responses ++ [r]) ∧
  (∀ s t : State, s.Driver → exec .pollOnce s = .next t → t.responses = s.responses) ∧
  (∀ s : State, s.PollOwned → s.due = [] → s.rxQueue = [] →
    ∃ t, step s = .next t ∧ t.history = s.history ++ [.pollDone] ∧ t.responses = s.responses ++ [.unit]) ∧
  (∀ (i : Instr) (s t : State), s.fault = none → exec i s = .next t → t.fault ≠ none →
    t.responses = s.responses) ∧
  (∀ b : Byte, (Response.optByte none).word = 0x0000#16 ∧
    (Response.optByte (some b)).word = 0x0100#16 ||| b.setWidth 16 ∧
    Response.unit.word = 0x0000#16 ∧ (Response.bool false).word = 0x0000#16 ∧
    (Response.bool true).word = 0x0001#16 ∧ (Response.byte b).word = b.setWidth 16)

/-! ## The step -/

/-- A step runs the decoded command: when the block has the turn, accepts commands, and the head of the port decodes to
`i`, the step is `exec i` on the state with that transaction (and that turn) taken (R31, R119; log 3, log 4). -/
def Obligations.StepRunsDecodedInstruction : Prop :=
  ∀ (s : State) (c : Command) (cs : List Command) (i : Instr), s.Accepts → s.port = c :: cs → decode c = .ok i →
    (s.due = [] → step s = exec i { s with port := cs }) ∧
    (∀ ts, s.due = .block :: ts → step s = exec i { s with port := cs, turns := ts })

/-- A word placed with `withFetchWord` is run by the very next step, on the state it was placed in, wherever the block
accepts commands (log 4). -/
def Obligations.FetchWordRunsThatWord : Prop :=
  ∀ (s : State) (w : Nat) (i : Instr), s.Accepts → decodeTableWord 16 w = some i →
    step (s.withFetchWord 16 w) = exec i s

/-- The Byte Stream's step Arrive(b) appends at the tail of the receive queue, at any time, and changes nothing of the
block (R47; log 3, log 11). -/
def Obligations.ByteStreamArrives : Prop :=
  ∀ (s : State) (b : Byte) (ts : List Turn), s.due = .arrive b :: ts →
    step s = .next { s with rxQueue := s.rxQueue ++ [b], turns := ts }

/-- R117 (D20, D34): a step that raises a fault changes no other field of S, appends no event and gives no response;
afterwards no agent of the block has a step and RESET is not accepted, so the mark is never cleared. That a raise is a
next state in which the command is taken off the port is the model's convention (log 6), and so is a stopped agent's step
that changes nothing (log 5); that the Byte Stream still delivers is DEDUCED (log 11), and so is that a RESET turn is used
up (log 12). -/
def Obligations.FaultedBlockIsQuiescent : Prop :=
  (∀ (s t : State) (r : FaultReason), s.fault = none → step s = .next t → t.fault = some r →
    t = { s with fault := some r, port := t.port, turns := t.turns }) ∧
  (∀ s : State, s.fault ≠ none →
    match s.due with
    | .arrive b :: ts => step s = .next { s with rxQueue := s.rxQueue ++ [b], turns := ts }
    | ts => step s = .next { s with turns := ts.tail })

/-- R121 (D21, D26), the acceptance table: what each context refuses, with its fault; the hold while poll-owned, where the
sequencer steps and the port waits; an illegal word in either context; and that every other command is accepted, under
the invariant. A hold as a step that changes nothing is the model's convention (log 5), and so is the faulted command
taken off the port (log 6). -/
def Obligations.ContextTable : Prop :=
  (∀ (s : State) (b : Byte), s.InHandlerCtx →
    exec (.feed b) s = .next { s with fault := some .reentrant } ∧
    exec .pollOnce s = .next { s with fault := some .reentrant }) ∧
  (∀ s : State, s.Driver →
    exec .hasNext s = .next { s with fault := some .notInHandler } ∧
    exec .next s = .next { s with fault := some .notInHandler } ∧
    exec .handlerReturn s = .next { s with fault := some .notInHandler }) ∧
  (∀ (s : State) (i : Instr), s.PollOwned → exec i s = .next s) ∧
  (∀ (s : State) (c : Command), s.PollOwned → s.due = [] →
    step { s with port := c :: s.port } = mapNext (fun t => { t with port := c :: s.port }) (step s)) ∧
  (∀ (s : State) (c : Command) (cs : List Command), s.Accepts → s.due = [] → s.port = c :: cs →
    illegalWord c.word = true → step s = .next { s with port := cs, fault := some .illegal }) ∧
  (∀ (s : State) (i : Instr), s.Inv → s.Driver → i ∉ [.hasNext, .next, .handlerReturn] →
    ∃ t, exec i s = .next t ∧ t.fault ≠ some .reentrant ∧ t.fault ≠ some .notInHandler) ∧
  (∀ (s : State) (i : Instr), s.Inv → s.InHandlerCtx → i ≠ .pollOnce → (∀ b, i ≠ .feed b) →
    ∃ t, exec i s = .next t ∧ t.fault ≠ some .reentrant ∧ t.fault ≠ some .notInHandler)

/-! ## The Receive Assembler -/

/-- R74 (D16): FEED's words, its context check, and that it answers with what the assembler step returns. The last clause,
a hold as a step that changes nothing, is the model's convention (log 5). -/
def Obligations.FeedRunsTheAssembler : Prop :=
  (∀ (b : Byte) (sd : Side), decode { word := 0x01#8 ++ b, side := sd } = .ok (.feed b)) ∧
  (∀ (s t : State) (b : Byte) (r : Option Byte), s.Driver → assembleStep b s = .ok (r, t) →
    exec (.feed b) s = .next { t with responses := t.responses ++ [.optByte r] }) ∧
  (∀ (s : State) (b : Byte), s.InHandlerCtx → exec (.feed b) s = .next { s with fault := some .reentrant }) ∧
  (∀ (s : State) (b : Byte), s.PollOwned → exec (.feed b) s = .next s)

/-- R76: in Idle every byte but START is ignored, ESCAPE and END included, with no report; START clears the index and
opens a frame. -/
def Obligations.IdleIgnoresAllButStart : Prop :=
  ∀ (s : State) (b : Byte), s.Driver → s.rxState = .idle →
    (b = s.params.startByte → exec (.feed b) s =
      .next { s with rxIdx := 0, rxState := .inMessage, responses := s.responses ++ [.optByte none] }) ∧
    (b ≠ s.params.startByte → exec (.feed b) s =
      .next { s with responses := s.responses ++ [.optByte none] })

/-- R77, R82: in InMessage, ESCAPE enters Escaping; nothing is appended and the index is unchanged. The next byte, whatever
its value, is appended verbatim and the assembler is back in InMessage; with READ_CAP bytes buffered it overflows as in
InMessage. -/
def Obligations.EscapeMakesNextByteLiteral : Prop :=
  (∀ s : State, s.Driver → s.rxState = .inMessage →
    exec (.feed s.params.escapeByte) s =
      .next { s with rxState := .escaping, responses := s.responses ++ [.optByte none] }) ∧
  (∀ (s : State) (b : Byte), s.Driver → s.rxState = .inMessage → s.rxIdx < s.params.readCap →
    execAll [.feed s.params.escapeByte, .feed b] s =
      .next { s with
        rxBuf := Memory.write s.rxBuf s.rxIdx b, rxIdx := s.rxIdx + 1, rxState := .inMessage
        responses := s.responses ++ [.optByte none, .optByte none] }) ∧
  (∀ (s : State) (b : Byte), s.Driver → s.rxState = .inMessage → s.rxIdx = s.params.readCap →
    execAll [.feed s.params.escapeByte, .feed b] s =
      .next { s with
        rxState := .idle, rxIdx := 0
        history := s.history ++ [.dbg .bufferOverflow]
        responses := s.responses ++ [.optByte none, .optByte none] })

/-- R78 (D30): in InMessage, START drops the message in progress, stays in InMessage, and reports once, also when nothing
has been buffered. -/
def Obligations.StartResynchronizes : Prop :=
  ∀ s : State, s.params.Valid → s.Driver → s.rxState = .inMessage →
    exec (.feed s.params.startByte) s =
      .next { s with
        rxIdx := 0, rxState := .inMessage
        history := s.history ++ [.dbg .unexpectedResync]
        responses := s.responses ++ [.optByte none] }

/-- R80, R81, R82 (D14, D15): any other byte in InMessage, and every byte in Escaping, is appended while there is room, and
the assembler is in InMessage; with READ_CAP bytes buffered it is dropped with one BUFFER_OVERFLOW and the assembler
returns to Idle. -/
def Obligations.AppendChecksCapacity : Prop :=
  ∀ (s : State) (b : Byte), s.Driver →
    (s.rxState = .escaping ∨
      s.rxState = .inMessage ∧ b ≠ s.params.startByte ∧ b ≠ s.params.endByte ∧ b ≠ s.params.escapeByte) →
    (s.rxIdx < s.params.readCap → exec (.feed b) s =
      .next { s with
        rxBuf := Memory.write s.rxBuf s.rxIdx b, rxIdx := s.rxIdx + 1, rxState := .inMessage
        responses := s.responses ++ [.optByte none] }) ∧
    (s.rxIdx = s.params.readCap → exec (.feed b) s =
      .next { s with
        rxState := .idle, rxIdx := 0
        history := s.history ++ [.dbg .bufferOverflow]
        responses := s.responses ++ [.optByte none] })

/-- R84 (D12, D23): START END with no data byte is dropped without a report and without a dispatch; START ESCAPE END is not
empty, the END is taken literally. -/
def Obligations.EmptyFrameIsDropped : Prop :=
  (∀ s : State, s.params.Valid → s.Driver → s.rxState = .inMessage → s.rxIdx = 0 →
    exec (.feed s.params.endByte) s =
      .next { s with rxState := .idle, responses := s.responses ++ [.optByte none] }) ∧
  (∀ s : State, s.params.Valid → s.Driver → s.rxState = .escaping → s.rxIdx = 0 →
    ∃ t, exec (.feed s.params.endByte) s = .next t ∧ t.rxState = .inMessage ∧ t.rxIdx = 1 ∧
      Memory.read t.rxBuf 0 = some s.params.endByte ∧ t.history = s.history)

/-- R79, R83, R92 (D11, D15, D17, D18): END in InMessage with a byte buffered copies the frame to the message buffer, sets
the payload bounds, returns to Idle, and dispatches on the first byte: the registered handler is entered with the
cursor at the payload's start, or UNHANDLED_TYPE is reported; the response is the id. Whatever the buffers hold. -/
def Obligations.EndFinalizesAndDispatches : Prop :=
  ∀ (s : State) (id : Byte), s.params.Valid → s.Driver → s.rxState = .inMessage → 1 ≤ s.rxIdx →
    s.rxIdx ≤ s.params.readCap → id = Memory.byteAt .rxBuf s.rxBuf 0 →
    ∃ m, (∀ i < s.rxIdx, Memory.read m i = some (Memory.byteAt .rxBuf s.rxBuf i)) ∧
      (∀ i, s.rxIdx ≤ i → Memory.read m i = Memory.read s.msgBuf i) ∧
      exec (.feed s.params.endByte) s = .next
        (match if id.toNat < s.params.handlerCount then s.handlerTable.getD id.toNat none else none with
        | some h =>
          { s with
            msgBuf := m, payloadStart := 1, payloadEnd := s.rxIdx, rxState := .idle, rxIdx := 0
            cursor := 1, inHandler := true, activeHandler := some h
            history := s.history ++ [.invoke h]
            responses := s.responses ++ [.optByte (some id)] }
        | none =>
          { s with
            msgBuf := m, payloadStart := 1, payloadEnd := s.rxIdx, rxState := .idle, rxIdx := 0
            history := s.history ++ [.dbg .unhandledType]
            responses := s.responses ++ [.optByte (some id)] })

/-- R85 (D13): an id-only frame is valid and finalizes with payload_start = payload_end = 1, an empty payload: a handler it
invokes finds HAS_NEXT false at once (R95). -/
def Obligations.IdOnlyFrameHasEmptyPayload : Prop :=
  ∀ (s : State) (id : Byte), s.params.Valid → s.Driver → s.rxState = .inMessage → s.rxIdx = 1 →
    id = Memory.byteAt .rxBuf s.rxBuf 0 →
    ∃ t, exec (.feed s.params.endByte) s = .next t ∧ t.payloadStart = 1 ∧ t.payloadEnd = 1 ∧
      t.responses = s.responses ++ [.optByte (some id)] ∧
      (t.inHandler = true →
        exec .hasNext t = .next { t with responses := t.responses ++ [.bool false] })

/-- One byte makes at most one event. A byte that finalizes (its response is some id) makes DISPATCH's single event and
nothing else: Invoke of the handler registered for that id, or UNHANDLED_TYPE where there is none; a byte that does not
finalize makes neither of these (the last paragraph of the derived transition table of 41_receive_assembler.md). In every
state. -/
def Obligations.FeedReportsAtMostOnce : Prop :=
  (∀ (s t : State) (b : Byte), exec (.feed b) s = .next t →
    t.history = s.history ∨
    (∃ c, t.history = s.history ++ [.dbg c] ∧ c ∈ [DbgCode.bufferOverflow, .unexpectedResync, .unhandledType]) ∨
    (∃ h, t.history = s.history ++ [.invoke h] ∧ t.activeHandler = some h)) ∧
  (∀ (s t : State) (b id : Byte), exec (.feed b) s = .next t →
    t.responses = s.responses ++ [.optByte (some id)] →
    t.history = s.history ++
      [match if id.toNat < s.params.handlerCount then s.handlerTable.getD id.toNat none else none with
      | some h => .invoke h
      | none => .dbg .unhandledType]) ∧
  (∀ (s t : State) (b : Byte), exec (.feed b) s = .next t → t.responses = s.responses ++ [.optByte none] →
    t.history = s.history ∨ t.history = s.history ++ [.dbg .bufferOverflow] ∨
      t.history = s.history ++ [.dbg .unexpectedResync])

/-- R88 (D26): POLL_ONCE's word, its context check, its effect, and that with nothing to read the poll ends with the first
sequencer step, with PollDone and the unit response. -/
def Obligations.PollOnceBeginsPoll : Prop :=
  (∀ (b : Byte) (sd : Side), decode { word := 0x0200#16, side := sd } = .ok .pollOnce ∧
    (b ≠ 0x00#8 → decode { word := 0x02#8 ++ b, side := sd } = .error (.strayOperand 0x02#8 b))) ∧
  (∀ s : State, s.Driver → exec .pollOnce s = .next { s with pollActive := true }) ∧
  (∀ s : State, s.InHandlerCtx → exec .pollOnce s = .next { s with fault := some .reentrant }) ∧
  (∀ s : State, s.Driver → s.rxQueue = [] → s.due = [] →
    step { s with pollActive := true } =
      .next { s with history := s.history ++ [.pollDone], responses := s.responses ++ [.unit] })

/-- R87, R89: the poll sequencer's step, enabled exactly when poll-owned and not faulted: it ends the poll when nothing is
available, else takes one byte to the assembler, with the effect FEED of that byte has in driver context, but for FEED's
response, and with the poll still active; where it is not enabled and the issuer sends nothing, nothing moves, which as a
step that changes nothing is the model's convention (log 5). -/
def Obligations.PollStepReadsOneByteOrEnds : Prop :=
  (∀ s : State, s.PollOwned → s.due = [] → s.rxQueue = [] →
    step s = .next { s with
      pollActive := false
      history := s.history ++ [.pollDone]
      responses := s.responses ++ [.unit] }) ∧
  (∀ (s t : State) (b : Byte) (q : List Byte) (r : Option Byte), s.PollOwned → s.due = [] →
    s.rxQueue = b :: q →
    assembleStep b { s with rxQueue := q, history := s.history ++ [.rxRead b] } = .ok (r, t) →
    step s = .next t) ∧
  (∀ (s v : State) (b : Byte) (q : List Byte), s.PollOwned → s.due = [] → s.rxQueue = b :: q →
    exec (.feed b) { s with pollActive := false, rxQueue := q, history := s.history ++ [.rxRead b] } = .next v →
    step s = .next { v with pollActive := true, responses := s.responses }) ∧
  (∀ s : State, ¬ s.PollOwned → s.due = [] → s.port = [] → step s = .next s)

/-- R90: a poll with no handler registered lasts while bytes arrive and ends when they stop. With nothing more to arrive it
ends after one step per byte waiting and one more: the queue is empty and POLL_ONCE has its response. Under a Byte Stream
that delivers the byte b before every step of the block it never ends, and no finite stream of other bytes, one before
every step of the block, ends it either. That the turns say who moves is the model's convention (log 3, log 17). -/
def Obligations.PollLastsWhileBytesArrive : Prop :=
  (∀ s : State, s.Inv → s.PollOwned → s.due = [] → (∀ e ∈ s.handlerTable, e = none) →
    ∃ t h, stepN (s.rxQueue.length + 1) s = .next t ∧ t.pollActive = false ∧ t.rxQueue = [] ∧ t.fault = none ∧
      t.inHandler = false ∧ t.history = h ++ [.pollDone] ∧ t.responses = s.responses ++ [.unit]) ∧
  (∀ (s : State) (b : Byte), s.Inv → s.PollOwned → (∀ e ∈ s.handlerTable, e = none) →
    s.turns = [] → s.cycle = [.arrive b, .block] →
    ∀ n, ∃ t es, stepN n s = .next t ∧ t.PollOwned ∧ t.history = s.history ++ es ∧ Event.pollDone ∉ es ∧
      t.responses = s.responses) ∧
  (∀ (s : State) (bs : List Byte), s.Inv → s.PollOwned → (∀ e ∈ s.handlerTable, e = none) →
    s.turns = bs.flatMap (fun b => [.arrive b, .block]) →
    ∃ t es, stepN (2 * bs.length) s = .next t ∧ t.PollOwned ∧ t.history = s.history ++ es ∧ Event.pollDone ∉ es ∧
      t.responses = s.responses)

/-! ## The dispatch router -/

/-- R91 (D8): REGISTER's words, its effect for an id below HANDLER_COUNT, and the report that changes no entry otherwise; in
driver and in handler context. -/
def Obligations.RegisterWritesTheTable : Prop :=
  (∀ (id : Byte) (sd : Side), decode { word := 0x03#8 ++ id, side := sd } = .ok (.register id sd.h)) ∧
  (∀ (s : State) (id : Byte) (h : Handler), s.Accepts →
    exec (.register id h) s = .next
      (if id.toNat < s.params.handlerCount then
        { s with
          handlerTable := s.handlerTable.set id.toNat (some h)
          responses := s.responses ++ [.unit] }
      else
        { s with
          history := s.history ++ [.dbg .registerOutOfRange]
          responses := s.responses ++ [.unit] }))

/-- R51 (D32): a REGISTER takes effect for every later DISPATCH of its id and of no other, and does not change the active
handler of the invocation in progress. REGISTER sets its id's entry and no other; DISPATCH in any state enters the handler
that its id's entry holds; and in a step only a REGISTER of that id, or RESET, changes the entry. -/
def Obligations.RegistrationTakesEffectForLaterDispatch : Prop :=
  (∀ (s : State) (id : Byte) (h : Handler), s.Accepts → s.handlerTable.length = s.params.handlerCount →
    id.toNat < s.params.handlerCount →
    ∃ t, exec (.register id h) s = .next t ∧ t.activeHandler = s.activeHandler ∧
      t.handlerTable.getD id.toNat none = some h ∧
      ∀ id' : Byte, id' ≠ id → t.handlerTable.getD id'.toNat none = s.handlerTable.getD id'.toNat none) ∧
  (∀ (u : State) (id : Byte) (h : Handler), id.toNat < u.params.handlerCount →
    u.handlerTable.getD id.toNat none = some h →
    dispatch id u = { u with
      cursor := u.payloadStart, inHandler := true, activeHandler := some h
      history := u.history ++ [.invoke h] }) ∧
  (∀ (s t : State) (id : Byte), step s = .next t →
    t.handlerTable.getD id.toNat none ≠ s.handlerTable.getD id.toNat none →
    (∃ ts, s.due = .reset :: ts) ∨
    ∃ c cs h, s.Accepts ∧ (s.due = [] ∨ ∃ ts, s.due = .block :: ts) ∧ s.port = c :: cs ∧
      decode c = .ok (.register id h) ∧ t.handlerTable.getD id.toNat none = some h)

/-- R95: HAS_NEXT's word, its context check, and its answer: the cursor is strictly below payload_end; no state changes. -/
def Obligations.HasNextComparesCursor : Prop :=
  (∀ (b : Byte) (sd : Side), decode { word := 0x0400#16, side := sd } = .ok .hasNext ∧
    (b ≠ 0x00#8 → decode { word := 0x04#8 ++ b, side := sd } = .error (.strayOperand 0x04#8 b))) ∧
  (∀ s : State, s.InHandlerCtx → exec .hasNext s =
    .next { s with responses := s.responses ++ [.bool (decide (s.cursor < s.payloadEnd))] }) ∧
  (∀ s : State, s.Driver → exec .hasNext s = .next { s with fault := some .notInHandler })

/-- R96, R97 (D19): NEXT's word, its context check, the byte at the cursor with the cursor advanced by one, and the overrun:
one report, the sentinel 0x00, the cursor not advanced. -/
def Obligations.NextReadsOrOverruns : Prop :=
  (∀ (b : Byte) (sd : Side), decode { word := 0x0500#16, side := sd } = .ok .next ∧
    (b ≠ 0x00#8 → decode { word := 0x05#8 ++ b, side := sd } = .error (.strayOperand 0x05#8 b))) ∧
  (∀ s : State, s.InHandlerCtx → s.cursor < s.payloadEnd → s.payloadEnd ≤ s.params.msgCap →
    exec .next s = .next { s with
      cursor := s.cursor + 1
      responses := s.responses ++ [.byte (Memory.byteAt .msgBuf s.msgBuf s.cursor)] }) ∧
  (∀ s : State, s.InHandlerCtx → s.payloadEnd ≤ s.cursor → exec .next s =
    .next { s with
      history := s.history ++ [.dbg .cursorOverrun]
      responses := s.responses ++ [.byte 0x00#8] }) ∧
  (∀ s : State, s.Driver → exec .next s = .next { s with fault := some .notInHandler })

/-- R98 (D21): HANDLER_RETURN's word, its context check, and its effect: handler context is left, Ret is emitted, everything
else (the cursor, the payload, an open transaction) keeps its value; a poll that is active has the next step. -/
def Obligations.HandlerReturnLeavesContext : Prop :=
  (∀ (b : Byte) (sd : Side), decode { word := 0x0600#16, side := sd } = .ok .handlerReturn ∧
    (b ≠ 0x00#8 → decode { word := 0x06#8 ++ b, side := sd } = .error (.strayOperand 0x06#8 b))) ∧
  (∀ s : State, s.InHandlerCtx → exec .handlerReturn s =
    .next { s with
      inHandler := false, activeHandler := none
      history := s.history ++ [.ret]
      responses := s.responses ++ [.unit] }) ∧
  (∀ s : State, s.Driver → exec .handlerReturn s = .next { s with fault := some .notInHandler }) ∧
  (∀ s t : State, s.InHandlerCtx → s.pollActive = true → exec .handlerReturn s = .next t → t.PollOwned)

/-! ## The Send Session -/

/-- R100 (D22): BEGIN_SEND's words; with no transaction open it opens one and writes START and the escaped id; with one open
it answers false and writes nothing. -/
def Obligations.BeginSendOpensTransaction : Prop :=
  (∀ (id : Byte) (sd : Side), decode { word := 0x08#8 ++ id, side := sd } = .ok (.beginSend id)) ∧
  (∀ (s : State) (id : Byte), s.Accepts → s.txOpen = false →
    exec (.beginSend id) s = .next { s with
      txOpen := true
      history := s.history ++ (.tx s.params.startByte :: (esc s.params id).map .tx)
      responses := s.responses ++ [.bool true] }) ∧
  (∀ (s : State) (id : Byte), s.Accepts → s.txOpen = true →
    exec (.beginSend id) s = .next { s with responses := s.responses ++ [.bool false] })

/-- R101: SEND_BYTE's words; with a transaction open it writes the escaped byte, with no length limit; with none open it
answers false and writes nothing. -/
def Obligations.SendByteWritesEscaped : Prop :=
  (∀ (b : Byte) (sd : Side), decode { word := 0x09#8 ++ b, side := sd } = .ok (.sendByte b)) ∧
  (∀ (s : State) (b : Byte), s.Accepts → s.txOpen = true →
    exec (.sendByte b) s = .next { s with
      history := s.history ++ (esc s.params b).map .tx
      responses := s.responses ++ [.bool true] }) ∧
  (∀ (s : State) (b : Byte), s.Accepts → s.txOpen = false →
    exec (.sendByte b) s = .next { s with responses := s.responses ++ [.bool false] })

/-- R102: END_SEND's word; with a transaction open it writes END and closes it; with none open it answers false and writes
nothing. -/
def Obligations.EndSendClosesTransaction : Prop :=
  (∀ (b : Byte) (sd : Side), decode { word := 0x0A00#16, side := sd } = .ok .endSend ∧
    (b ≠ 0x00#8 → decode { word := 0x0A#8 ++ b, side := sd } = .error (.strayOperand 0x0A#8 b))) ∧
  (∀ s : State, s.Accepts → s.txOpen = true →
    exec .endSend s = .next { s with
      txOpen := false
      history := s.history ++ [.tx s.params.endByte]
      responses := s.responses ++ [.bool true] }) ∧
  (∀ s : State, s.Accepts → s.txOpen = false →
    exec .endSend s = .next { s with responses := s.responses ++ [.bool false] })

/-- R103: SEND0's words; with no transaction open it writes the id-only frame and leaves none open, the effect of BEGIN_SEND
and END_SEND with no step between; with one open it answers false and writes nothing. -/
def Obligations.SendZeroWritesIdOnlyFrame : Prop :=
  (∀ (id : Byte) (sd : Side), decode { word := 0x0B#8 ++ id, side := sd } = .ok (.send0 id)) ∧
  (∀ (s : State) (id : Byte), s.Accepts → s.txOpen = false →
    exec (.send0 id) s = .next { s with
      history := s.history ++ (.tx s.params.startByte :: (esc s.params id).map .tx ++ [.tx s.params.endByte])
      responses := s.responses ++ [.bool true] } ∧
    execAll [.beginSend id, .endSend] s = .next { s with
      history := s.history ++ (.tx s.params.startByte :: (esc s.params id).map .tx ++ [.tx s.params.endByte])
      responses := s.responses ++ [.bool true, .bool true] }) ∧
  (∀ (s : State) (id : Byte), s.Accepts → s.txOpen = true →
    exec (.send0 id) s = .next { s with responses := s.responses ++ [.bool false] })

/-- R104 (D31): SEND_BLOCK's words; the open transaction is checked first and answers false; then a range outside the data
raises F_SEND_RANGE; else exactly the encoded frame of the bytes `D[OFF + i]` is written and no transaction is left open. -/
def Obligations.SendBlockWritesEncodedFrame : Prop :=
  (∀ (id : Byte) (sd : Side),
    decode { word := 0x0C#8 ++ id, side := sd } = .ok (.sendBlock id sd.d sd.off sd.len)) ∧
  (∀ (s : State) (id : Byte) (d : List Byte) (off len : Nat), s.Accepts → s.txOpen = true →
    exec (.sendBlock id d off len) s = .next { s with responses := s.responses ++ [.bool false] }) ∧
  (∀ (s : State) (id : Byte) (d : List Byte) (off len : Nat), s.Accepts → s.txOpen = false →
    d.length < off + len →
    exec (.sendBlock id d off len) s = .next { s with fault := some .sendRange }) ∧
  (∀ (s : State) (id : Byte) (d : List Byte) (off len : Nat), s.Accepts → s.txOpen = false →
    off + len ≤ d.length →
    ∃ p : List Byte, p.length = len ∧ (∀ i < len, p[i]? = d[off + i]?) ∧
      exec (.sendBlock id d off len) s = .next { s with
        history := s.history ++ (encodeFrame s.params id p).map .tx
        responses := s.responses ++ [.bool true] })

/-- SEND_BLOCK that does not fault has the effect of BEGIN_SEND, one SEND_BYTE per byte of the range, END_SEND, run with no
other step between: the same bytes, the same tx_open, and true exactly when BEGIN_SEND would succeed
(43_send_session.md, the derived equivalence). -/
def Obligations.SendBlockEqualsSequence : Prop :=
  ∀ (s : State) (id : Byte) (d : List Byte) (off len : Nat), s.Accepts → off + len ≤ d.length →
    (s.txOpen = false → ∃ t u,
      exec (.sendBlock id d off len) s = .next t ∧
      execAll (.beginSend id :: (((d.drop off).take len).map .sendByte ++ [.endSend])) s = .next u ∧
      { u with responses := s.responses } = { t with responses := s.responses } ∧
      t.responses = s.responses ++ [.bool true] ∧
      u.responses = s.responses ++ List.replicate (len + 2) (.bool true)) ∧
    (s.txOpen = true → exec (.sendBlock id d off len) s = exec (.beginSend id) s)

/-! ## The Frame Codec -/

/-- R15, R66, R67: exactly the three control values escape, to ESCAPE and the byte itself; every other byte is sent as it
is; and the stateful form appends Tx of each byte in order and changes nothing else. -/
def Obligations.EscapingRule : Prop :=
  (∀ (p : Params) (b : Byte), isCtrl p b = true ↔ b = p.startByte ∨ b = p.endByte ∨ b = p.escapeByte) ∧
  (∀ (p : Params) (b : Byte), esc p b = if isCtrl p b then [p.escapeByte, b] else [b]) ∧
  (∀ (s : State) (b : Byte), txEsc b s = { s with history := s.history ++ (esc s.params b).map .tx })

/-- R53, R68: the wire frame is START, the escaped id, each payload byte escaped under the same rule, END, in order. -/
def Obligations.WireFrameLayout : Prop :=
  ∀ (p : Params) (id : Byte) (payload : List Byte),
    encodeFrame p id payload =
      [p.startByte] ++ esc p id ++ (payload.map (esc p)).flatten ++ [p.endByte]

/-- R69: the equations of decodeBody. -/
def Obligations.DecodeBodyEquations : Prop :=
  ∀ (p : Params) (d : Byte) (rest : List Byte), p.Valid →
    decodeBody p [] = some [] ∧
    decodeBody p (p.escapeByte :: d :: rest) = (decodeBody p rest).map (fun ds => d :: ds) ∧
    decodeBody p [p.escapeByte] = none ∧
    (isCtrl p d = false → decodeBody p (d :: rest) = (decodeBody p rest).map (fun ds => d :: ds)) ∧
    decodeBody p (p.startByte :: rest) = none ∧
    decodeBody p (p.endByte :: rest) = none

/-- Decoding inverts the escaping, for every byte list (40_frame_codec.md section 2, a derived rule). -/
def Obligations.DecodeBodyInvertsEscaping : Prop :=
  ∀ (p : Params) (ds : List Byte), decodeBody p ((ds.map (esc p)).flatten) = some ds

/-- The encoded frame determines the id and the payload (40_frame_codec.md section 2, a derived rule). -/
def Obligations.EncodeFrameInjective : Prop :=
  ∀ (p : Params) (id id' : Byte) (pl pl' : List Byte),
    encodeFrame p id pl = encodeFrame p id' pl' → id = id' ∧ pl = pl'

/-- A frame of n payload bytes has n + 3 bytes and one more for each data byte (the id or a payload byte) that is a control
value, so between n + 3 and 2n + 4 bytes (30_encoding.md, the derived length rule). -/
def Obligations.FrameLengthBounds : Prop :=
  ∀ (p : Params) (id : Byte) (pl : List Byte),
    (encodeFrame p id pl).length = pl.length + 3 + (id :: pl).countP (isCtrl p) ∧
    pl.length + 3 ≤ (encodeFrame p id pl).length ∧ (encodeFrame p id pl).length ≤ 2 * pl.length + 4

/-- Round trip: the bytes of an encoded frame, fed one FEED at a time to an assembler that is not in Escaping, finalize
exactly that message with the last FEED, provided it fits READ_CAP; the assembler reports nothing, but for the one
UNEXPECTED_RESYNC where the frame's START cut off another; then DISPATCH runs (40_frame_codec.md section 2 and
70_reset_and_hazards.md section 2, derived rules). -/
def Obligations.FrameRoundTrip : Prop :=
  ∀ (s : State) (id : Byte) (p : List Byte) (pre : List Event), s.params.Valid → s.Driver →
    (s.rxState = .idle ∧ pre = [] ∨ s.rxState = .inMessage ∧ pre = [.dbg .unexpectedResync]) →
    1 + p.length ≤ s.params.readCap →
    ∃ t, execAll (feedFrame s.params id p) s = .next t ∧
      t.responses = s.responses ++
        List.replicate ((encodeFrame s.params id p).length - 1) (.optByte none) ++ [.optByte (some id)] ∧
      Memory.read t.msgBuf 0 = some id ∧ t.payloadStart = 1 ∧ t.payloadEnd = 1 + p.length ∧
      (∀ k < p.length, Memory.read t.msgBuf (t.payloadStart + k) = p[k]?) ∧
      t.rxState = .idle ∧ t.fault = none ∧
      (match if id.toNat < s.params.handlerCount then s.handlerTable.getD id.toNat none else none with
      | some h => t.inHandler = true ∧ t.activeHandler = some h ∧ t.cursor = 1 ∧
          t.history = s.history ++ pre ++ [.invoke h]
      | none => t.inHandler = false ∧ t.history = s.history ++ pre ++ [.dbg .unhandledType])

/-- Beyond capacity: with more than READ_CAP data bytes, the first READ_CAP are buffered without a report, the next one
raises exactly one BUFFER_OVERFLOW and returns the assembler to Idle, and nothing of the frame has been finalized. What the
bytes after it do is not stated: they are read in Idle and may overflow again (40_frame_codec.md section 2, a derived rule;
D14; C6). -/
def Obligations.OversizedFrameFirstOverflow : Prop :=
  ∀ (s : State) (id : Byte) (p : List Byte) (d : Byte), s.params.Valid → s.Driver → s.rxState = .idle →
    s.params.readCap < 1 + p.length → (id :: p)[s.params.readCap]? = some d →
    ∃ t u,
      execAll (feeds ([s.params.startByte] ++
        (((id :: p).take s.params.readCap).map (esc s.params)).flatten)) s = .next t ∧
      t.rxState = .inMessage ∧ t.rxIdx = s.params.readCap ∧ t.history = s.history ∧
      execAll (feeds (esc s.params d)) t = .next u ∧
      u.rxState = .idle ∧ u.rxIdx = 0 ∧ u.history = s.history ++ [.dbg .bufferOverflow] ∧
      u.msgBuf = s.msgBuf ∧ u.inHandler = false ∧ (∀ r ∈ u.responses.drop s.responses.length, r = .optByte none)

/-- After any encoded frame, of any length, fed to an assembler that is not in Escaping, the assembler is in Idle again, also
where an overflow's tail opened a spurious frame (70_reset_and_hazards.md section 2, a derived rule; C6). -/
def Obligations.FrameAlwaysEndsIdle : Prop :=
  ∀ (s : State) (id : Byte) (p : List Byte), s.params.Valid → s.Driver → s.rxState ≠ .escaping →
    ∃ t, execAll (feedFrame s.params id p) s = .next t ∧ t.rxState = .idle ∧ t.fault = none

/-! ## Reset, invariants, whole-machine rules -/

/-- R130 (D10): a run begins in the reset state, in driver context, with no fault, an empty history and an empty receive
queue, and the fields R34 gives a value have it; the first step is whatever the command issuer sends, or an Arrive. What
the buffers, the responses, the port and the turns hold at reset is the model's choice (log 3, log 4, log 7, log 8) and is
not stated. -/
def Obligations.ResetStateIsLaunch : Prop :=
  State.reset.Driver ∧ State.reset.history = [] ∧ State.reset.rxQueue = [] ∧
  State.reset.rxState = .idle ∧ State.reset.rxIdx = 0 ∧ State.reset.payloadStart = 0 ∧
  State.reset.payloadEnd = 0 ∧ State.reset.cursor = 0 ∧ State.reset.activeHandler = none ∧
  State.reset.txOpen = false ∧ State.reset.handlerTable.length = State.reset.params.handlerCount ∧
  (∀ e ∈ State.reset.handlerTable, e = none) ∧
  (∀ (c : Command) (i : Instr), decode c = .ok i → step (offer c State.reset) = exec i State.reset) ∧
  (∀ b : Byte, step { State.reset with turns := [.arrive b] } = .next { State.reset with rxQueue := [b] })

/-- R128, R129 (D10, D34, D35): RESET, in every context, gives every field but the fault mark and the buffers its reset
value, appends no event, gives no response, and leaves the history and the receive queue; with the fault mark set it
is not accepted and nothing changes. That it leaves the commands waiting on the port (log 19) and the responses given
(log 7) is the model's choice, and that a RESET taken under a fault is lost is DEDUCED (log 12). -/
def Obligations.ResetSignalEffect : Prop :=
  ∀ (s : State) (ts : List Turn), s.due = .reset :: ts →
    (s.fault = none → step s = .next { s with
      rxState := .idle, rxIdx := 0, payloadStart := 0, payloadEnd := 0, cursor := 0
      inHandler := false, activeHandler := none
      handlerTable := List.replicate s.params.handlerCount none
      txOpen := false, pollActive := false
      turns := ts }) ∧
    (s.fault ≠ none → step s = .next { s with turns := ts })

/-- The invariant holds at launch with every legal choice of parameters, and at the model's reset, whose open parameters are
a legal choice (10_state.md R34, R35; log 1). -/
def Obligations.InvariantHoldsAtReset : Prop :=
  (∀ p : Params, p.Valid → (State.launch p).Inv) ∧ State.reset.Inv

/-- Every step of the machine, of any agent, keeps the invariant: (I1) to (I7), the ranges of R18, the canonical form and
the capacity of each buffer, and that what may be read has been written. -/
def Obligations.StepKeepsInvariant : Prop :=
  ∀ s t : State, s.Inv → step s = .next t → t.Inv

/-- Under the invariant no step stops the model: no rule reads or writes a buffer at or beyond its capacity (20_memory.md
section 2, 10_state.md section 3). -/
def Obligations.StepNeverStops : Prop :=
  ∀ s : State, s.Inv → ∃ t, step s = .next t

/-- The open parameters are left open: the seeds reach every legal choice, and each choice they make is legal (R6 to R9;
the model's construction, log 1). -/
def Obligations.SeedsCoverEveryLegalChoice : Prop :=
  (∀ st en es rc mc hc, (Config.ofSeeds st en es rc mc hc).Valid) ∧
  (∀ p : Params, p.Valid → ∃ st en es rc mc hc, Config.ofSeeds st en es rc mc hc = p)

/-- No step writes the parameters, and the event history and the responses only grow (00_scope.md sections 3 and 4). -/
def Obligations.HistoryOnlyGrows : Prop :=
  ∀ s t : State, step s = .next t →
    t.params = s.params ∧ (∃ es, t.history = s.history ++ es) ∧ (∃ rs, t.responses = s.responses ++ rs)

/-- Handler context is entered only by DISPATCH, with the invoked token active and the cursor at the payload's start, and
left only by HANDLER_RETURN or RESET (60_exceptions.md section 4; 10_state.md section 1). In every state. -/
def Obligations.HandlerContextEntryAndExit : Prop :=
  ∀ s t : State, step s = .next t →
    (s.inHandler = false → t.inHandler = true →
      ∃ h es, t.history = s.history ++ es ++ [.invoke h] ∧ t.activeHandler = some h ∧ t.cursor = t.payloadStart) ∧
    (s.inHandler = true → t.inHandler = false →
      t.activeHandler = none ∧ (t.history = s.history ++ [.ret] ∨ ∃ ts, s.due = .reset :: ts))

/-- While a handler runs no step touches the message it reads: no byte of either buffer changes, the payload bounds and the
active handler stay while it stays in context (20_memory.md section 1, single message in flight). In every state. -/
def Obligations.PayloadStableWhileHandlerRuns : Prop :=
  ∀ s t : State, s.inHandler = true → step s = .next t →
    (∀ i, Memory.read t.msgBuf i = Memory.read s.msgBuf i) ∧ (∀ i, Memory.read t.rxBuf i = Memory.read s.rxBuf i) ∧
    (t.inHandler = true →
      t.payloadStart = s.payloadStart ∧ t.payloadEnd = s.payloadEnd ∧ t.activeHandler = s.activeHandler)

/-- The frame of the five send commands, in every state: only tx_open, the history, the responses and (SEND_BLOCK) the fault
mark may change; tx_open changes only by BEGIN_SEND and END_SEND; every byte of both buffers stays. -/
def Obligations.FrameOfSendCommands : Prop :=
  ∀ (i : Instr) (s t : State), isSendCommand i = true → exec i s = .next t →
    t = { s with txOpen := t.txOpen, history := t.history, responses := t.responses, fault := t.fault } ∧
    (t.txOpen ≠ s.txOpen → i = .endSend ∨ ∃ id, i = .beginSend id) ∧
    (t.fault ≠ s.fault → t.fault = some .sendRange ∧ ∃ id d off len, i = .sendBlock id d off len) ∧
    (∀ a, Memory.read t.rxBuf a = Memory.read s.rxBuf a ∧ Memory.read t.msgBuf a = Memory.read s.msgBuf a)

/-- The frame of REGISTER, HAS_NEXT, NEXT and HANDLER_RETURN, in every state: REGISTER writes only the table entry of its
id; HAS_NEXT only answers; NEXT moves only the cursor; HANDLER_RETURN writes only in_handler and active_handler; beside
the history, the responses and the fault mark. Every byte of both buffers stays. -/
def Obligations.FrameOfRouterCommands : Prop :=
  (∀ (id : Byte) (h : Handler) (s t : State), exec (.register id h) s = .next t →
    t = { s with handlerTable := t.handlerTable, history := t.history, responses := t.responses } ∧
    t.handlerTable.length = s.handlerTable.length ∧
    (∀ k, k ≠ id.toNat → t.handlerTable.getD k none = s.handlerTable.getD k none)) ∧
  (∀ s t : State, exec .hasNext s = .next t →
    t = { s with responses := t.responses, fault := t.fault }) ∧
  (∀ s t : State, exec .next s = .next t →
    t = { s with cursor := t.cursor, history := t.history, responses := t.responses, fault := t.fault }) ∧
  (∀ s t : State, exec .handlerReturn s = .next t →
    t = { s with
      inHandler := t.inHandler, activeHandler := t.activeHandler
      history := t.history, responses := t.responses, fault := t.fault }) ∧
  (∀ (i : Instr) (s t : State), ((∃ id h, i = .register id h) ∨ i = .hasNext ∨ i = .next ∨ i = .handlerReturn) →
    exec i s = .next t →
    ∀ a, Memory.read t.rxBuf a = Memory.read s.rxBuf a ∧ Memory.read t.msgBuf a = Memory.read s.msgBuf a)

/-- The frame of FEED and POLL_ONCE, in every state. FEED leaves the handler table, tx_open, poll_active, the receive queue;
it stores one byte, at rx_idx of the receive buffer, or the finalized prefix of the message buffer, and every byte
outside those reads as before; a byte that is not stored (in Idle, or a control byte in InMessage) changes no byte of
the receive buffer, and only END in InMessage changes the message buffer. POLL_ONCE writes only poll_active (or the
fault mark). A poll step on a byte has FEED's frame, but for the byte taken from the receive queue, and gives no response. -/
def Obligations.FrameOfReceiveCommands : Prop :=
  (∀ (b : Byte) (s t : State), exec (.feed b) s = .next t →
    t = { s with
      rxState := t.rxState, rxIdx := t.rxIdx, rxBuf := t.rxBuf, msgBuf := t.msgBuf
      payloadStart := t.payloadStart, payloadEnd := t.payloadEnd, cursor := t.cursor
      inHandler := t.inHandler, activeHandler := t.activeHandler
      history := t.history, responses := t.responses, fault := t.fault } ∧
    (∀ a, a ≠ s.rxIdx → Memory.read t.rxBuf a = Memory.read s.rxBuf a) ∧
    (∀ a, s.rxIdx ≤ a → Memory.read t.msgBuf a = Memory.read s.msgBuf a) ∧
    (s.rxState = .idle ∨ s.rxState = .inMessage ∧ isCtrl s.params b = true →
      ∀ a, Memory.read t.rxBuf a = Memory.read s.rxBuf a) ∧
    (¬ (s.rxState = .inMessage ∧ b = s.params.endByte) →
      (∀ a, Memory.read t.msgBuf a = Memory.read s.msgBuf a) ∧
      t.payloadStart = s.payloadStart ∧ t.payloadEnd = s.payloadEnd ∧ t.cursor = s.cursor ∧
      t.inHandler = s.inHandler ∧ t.activeHandler = s.activeHandler)) ∧
  (∀ s t : State, exec .pollOnce s = .next t →
    t = { s with pollActive := t.pollActive, fault := t.fault } ∧
    (∀ a, Memory.read t.rxBuf a = Memory.read s.rxBuf a ∧ Memory.read t.msgBuf a = Memory.read s.msgBuf a)) ∧
  (∀ (s t : State) (b : Byte) (q : List Byte), s.PollOwned → s.due = [] → s.rxQueue = b :: q → step s = .next t →
    t = { s with
      rxState := t.rxState, rxIdx := t.rxIdx, rxBuf := t.rxBuf, msgBuf := t.msgBuf
      payloadStart := t.payloadStart, payloadEnd := t.payloadEnd, cursor := t.cursor
      inHandler := t.inHandler, activeHandler := t.activeHandler
      rxQueue := q, history := t.history } ∧
    (∀ a, a ≠ s.rxIdx → Memory.read t.rxBuf a = Memory.read s.rxBuf a) ∧
    (∀ a, s.rxIdx ≤ a → Memory.read t.msgBuf a = Memory.read s.msgBuf a) ∧
    (s.rxState = .idle ∨ s.rxState = .inMessage ∧ isCtrl s.params b = true →
      ∀ a, Memory.read t.rxBuf a = Memory.read s.rxBuf a) ∧
    (¬ (s.rxState = .inMessage ∧ b = s.params.endByte) →
      (∀ a, Memory.read t.msgBuf a = Memory.read s.msgBuf a) ∧
      t.payloadStart = s.payloadStart ∧ t.payloadEnd = s.payloadEnd ∧ t.cursor = s.cursor ∧
      t.inHandler = s.inHandler ∧ t.activeHandler = s.activeHandler))

/-- The receive path and the send path share no state: a command that is no send command runs the same whatever tx_open is,
and a send command runs the same whatever the receive path holds, but for the flags the issue gating reads
(20_memory.md section 4). -/
def Obligations.SendAndReceiveAreIndependent : Prop :=
  (∀ (i : Instr) (s : State) (v : Bool), isSendCommand i = false →
    exec i (withSendPath v s) = mapNext (withSendPath v) (exec i s)) ∧
  (∀ (i : Instr) (s r : State), isSendCommand i = true →
    exec i (withReceivePath r s) = mapNext (withReceivePath r) (exec i s))

/-- The block never inspects a handler token: renaming the tokens, by any function whatever, in the table, the active
handler, the history and the port, commutes with every step (00_scope.md section 3). -/
def Obligations.HandlerTokensAreOpaque : Prop :=
  ∀ (f : Handler → Handler) (s : State), step (renameState f s) = renameResult f (step s)

/-- At the end of a run (R142), whatever the claim states is left in the receive queue, nothing of the block moves any more.
A block that does not move takes a step that changes nothing (log 5). -/
def Obligations.EndedBlockHolds : Prop :=
  ∀ (s : State) (rest : List Byte), s.EndedWith rest → s.due = [] → step s = .next s

/-- The codes the fault mark and the debug events carry, each where its condition arises (the tables of R108 and R116), and
the 2-bit encoding of rx_state, in which 0b11 is no state (R19; D9, D20, D24). -/
def Obligations.ConditionsCarryTheirCodes : Prop :=
  (∀ (s : State) (c : Command) (cs : List Command), s.Accepts → s.due = [] → s.port = c :: cs →
    illegalWord c.word = true → ∃ t, step s = .next t ∧ t.fault.map FaultReason.code = some 1) ∧
  (∀ (s : State) (i : Instr), s.InHandlerCtx → (i = .pollOnce ∨ ∃ b, i = .feed b) →
    ∃ t, exec i s = .next t ∧ t.fault.map FaultReason.code = some 2) ∧
  (∀ (s : State) (i : Instr), s.Driver → i ∈ [.hasNext, .next, .handlerReturn] →
    ∃ t, exec i s = .next t ∧ t.fault.map FaultReason.code = some 3) ∧
  (∀ (s : State) (id : Byte) (d : List Byte) (off len : Nat), s.Accepts → s.txOpen = false →
    d.length < off + len →
    ∃ t, exec (.sendBlock id d off len) s = .next t ∧ t.fault.map FaultReason.code = some 4) ∧
  (∀ (s : State) (b : Byte), s.Driver → s.rxIdx = s.params.readCap →
    (s.rxState = .escaping ∨ s.rxState = .inMessage ∧ isCtrl s.params b = false) →
    ∃ t c, exec (.feed b) s = .next t ∧ t.history = s.history ++ [.dbg c] ∧ c.code = 0x01#8) ∧
  (∀ s : State, s.params.Valid → s.Driver → s.rxState = .inMessage →
    ∃ t c, exec (.feed s.params.startByte) s = .next t ∧ t.history = s.history ++ [.dbg c] ∧ c.code = 0x02#8) ∧
  (∀ (s : State) (id : Byte), s.params.Valid → s.Driver → s.rxState = .inMessage → 1 ≤ s.rxIdx →
    s.rxIdx ≤ s.params.readCap → id = Memory.byteAt .rxBuf s.rxBuf 0 →
    (s.params.handlerCount ≤ id.toNat ∨ s.handlerTable.getD id.toNat none = none) →
    ∃ t c, exec (.feed s.params.endByte) s = .next t ∧ t.history = s.history ++ [.dbg c] ∧ c.code = 0x03#8) ∧
  (∀ s : State, s.InHandlerCtx → s.payloadEnd ≤ s.cursor →
    ∃ t c, exec .next s = .next t ∧ t.history = s.history ++ [.dbg c] ∧ c.code = 0x04#8) ∧
  (∀ (s : State) (id : Byte) (h : Handler), s.Accepts → s.params.handlerCount ≤ id.toNat →
    ∃ t c, exec (.register id h) s = .next t ∧ t.history = s.history ++ [.dbg c] ∧ c.code = 0x05#8) ∧
  RxState.idle.code = 0b00#2 ∧ RxState.inMessage.code = 0b01#2 ∧ RxState.escaping.code = 0b10#2 ∧
  ∀ x : RxState, x.code ≠ 0b11#2
end

