-- ==== Sys2Proof/Laws/State.lean ====
section
/-! SUPPORT. What each named update of State does to each field: one lemma per field per update, true by rfl, for simp. -/

namespace Sys2Proof.Machine

@[simp] theorem emit_rxState (e : Event) (s : State) : (emit e s).rxState = s.rxState := rfl
@[simp] theorem emit_rxIdx (e : Event) (s : State) : (emit e s).rxIdx = s.rxIdx := rfl
@[simp] theorem emit_rxBuf (e : Event) (s : State) : (emit e s).rxBuf = s.rxBuf := rfl
@[simp] theorem emit_msgBuf (e : Event) (s : State) : (emit e s).msgBuf = s.msgBuf := rfl
@[simp] theorem emit_payloadStart (e : Event) (s : State) : (emit e s).payloadStart = s.payloadStart := rfl
@[simp] theorem emit_payloadEnd (e : Event) (s : State) : (emit e s).payloadEnd = s.payloadEnd := rfl
@[simp] theorem emit_cursor (e : Event) (s : State) : (emit e s).cursor = s.cursor := rfl
@[simp] theorem emit_inHandler (e : Event) (s : State) : (emit e s).inHandler = s.inHandler := rfl
@[simp] theorem emit_activeHandler (e : Event) (s : State) : (emit e s).activeHandler = s.activeHandler := rfl
@[simp] theorem emit_handlerTable (e : Event) (s : State) : (emit e s).handlerTable = s.handlerTable := rfl
@[simp] theorem emit_txOpen (e : Event) (s : State) : (emit e s).txOpen = s.txOpen := rfl
@[simp] theorem emit_pollActive (e : Event) (s : State) : (emit e s).pollActive = s.pollActive := rfl
@[simp] theorem emit_fault (e : Event) (s : State) : (emit e s).fault = s.fault := rfl
@[simp] theorem emit_rxQueue (e : Event) (s : State) : (emit e s).rxQueue = s.rxQueue := rfl
@[simp] theorem emit_history (e : Event) (s : State) : (emit e s).history = s.history ++ [e] := rfl
@[simp] theorem emit_responses (e : Event) (s : State) : (emit e s).responses = s.responses := rfl
@[simp] theorem emit_params (e : Event) (s : State) : (emit e s).params = s.params := rfl
@[simp] theorem emit_port (e : Event) (s : State) : (emit e s).port = s.port := rfl
@[simp] theorem emit_turns (e : Event) (s : State) : (emit e s).turns = s.turns := rfl
@[simp] theorem emit_cycle (e : Event) (s : State) : (emit e s).cycle = s.cycle := rfl

@[simp] theorem report_rxState (c : DbgCode) (s : State) : (report c s).rxState = s.rxState := rfl
@[simp] theorem report_rxIdx (c : DbgCode) (s : State) : (report c s).rxIdx = s.rxIdx := rfl
@[simp] theorem report_rxBuf (c : DbgCode) (s : State) : (report c s).rxBuf = s.rxBuf := rfl
@[simp] theorem report_msgBuf (c : DbgCode) (s : State) : (report c s).msgBuf = s.msgBuf := rfl
@[simp] theorem report_payloadStart (c : DbgCode) (s : State) : (report c s).payloadStart = s.payloadStart := rfl
@[simp] theorem report_payloadEnd (c : DbgCode) (s : State) : (report c s).payloadEnd = s.payloadEnd := rfl
@[simp] theorem report_cursor (c : DbgCode) (s : State) : (report c s).cursor = s.cursor := rfl
@[simp] theorem report_inHandler (c : DbgCode) (s : State) : (report c s).inHandler = s.inHandler := rfl
@[simp] theorem report_activeHandler (c : DbgCode) (s : State) : (report c s).activeHandler = s.activeHandler := rfl
@[simp] theorem report_handlerTable (c : DbgCode) (s : State) : (report c s).handlerTable = s.handlerTable := rfl
@[simp] theorem report_txOpen (c : DbgCode) (s : State) : (report c s).txOpen = s.txOpen := rfl
@[simp] theorem report_pollActive (c : DbgCode) (s : State) : (report c s).pollActive = s.pollActive := rfl
@[simp] theorem report_fault (c : DbgCode) (s : State) : (report c s).fault = s.fault := rfl
@[simp] theorem report_rxQueue (c : DbgCode) (s : State) : (report c s).rxQueue = s.rxQueue := rfl
@[simp] theorem report_history (c : DbgCode) (s : State) : (report c s).history = s.history ++ [.dbg c] := rfl
@[simp] theorem report_responses (c : DbgCode) (s : State) : (report c s).responses = s.responses := rfl
@[simp] theorem report_params (c : DbgCode) (s : State) : (report c s).params = s.params := rfl
@[simp] theorem report_port (c : DbgCode) (s : State) : (report c s).port = s.port := rfl
@[simp] theorem report_turns (c : DbgCode) (s : State) : (report c s).turns = s.turns := rfl
@[simp] theorem report_cycle (c : DbgCode) (s : State) : (report c s).cycle = s.cycle := rfl

@[simp] theorem txWrite_rxState (b : Byte) (s : State) : (txWrite b s).rxState = s.rxState := rfl
@[simp] theorem txWrite_rxIdx (b : Byte) (s : State) : (txWrite b s).rxIdx = s.rxIdx := rfl
@[simp] theorem txWrite_rxBuf (b : Byte) (s : State) : (txWrite b s).rxBuf = s.rxBuf := rfl
@[simp] theorem txWrite_msgBuf (b : Byte) (s : State) : (txWrite b s).msgBuf = s.msgBuf := rfl
@[simp] theorem txWrite_payloadStart (b : Byte) (s : State) : (txWrite b s).payloadStart = s.payloadStart := rfl
@[simp] theorem txWrite_payloadEnd (b : Byte) (s : State) : (txWrite b s).payloadEnd = s.payloadEnd := rfl
@[simp] theorem txWrite_cursor (b : Byte) (s : State) : (txWrite b s).cursor = s.cursor := rfl
@[simp] theorem txWrite_inHandler (b : Byte) (s : State) : (txWrite b s).inHandler = s.inHandler := rfl
@[simp] theorem txWrite_activeHandler (b : Byte) (s : State) : (txWrite b s).activeHandler = s.activeHandler := rfl
@[simp] theorem txWrite_handlerTable (b : Byte) (s : State) : (txWrite b s).handlerTable = s.handlerTable := rfl
@[simp] theorem txWrite_txOpen (b : Byte) (s : State) : (txWrite b s).txOpen = s.txOpen := rfl
@[simp] theorem txWrite_pollActive (b : Byte) (s : State) : (txWrite b s).pollActive = s.pollActive := rfl
@[simp] theorem txWrite_fault (b : Byte) (s : State) : (txWrite b s).fault = s.fault := rfl
@[simp] theorem txWrite_rxQueue (b : Byte) (s : State) : (txWrite b s).rxQueue = s.rxQueue := rfl
@[simp] theorem txWrite_history (b : Byte) (s : State) : (txWrite b s).history = s.history ++ [.tx b] := rfl
@[simp] theorem txWrite_responses (b : Byte) (s : State) : (txWrite b s).responses = s.responses := rfl
@[simp] theorem txWrite_params (b : Byte) (s : State) : (txWrite b s).params = s.params := rfl
@[simp] theorem txWrite_port (b : Byte) (s : State) : (txWrite b s).port = s.port := rfl
@[simp] theorem txWrite_turns (b : Byte) (s : State) : (txWrite b s).turns = s.turns := rfl
@[simp] theorem txWrite_cycle (b : Byte) (s : State) : (txWrite b s).cycle = s.cycle := rfl

@[simp] theorem respond_rxState (r : Response) (s : State) : (respond r s).rxState = s.rxState := rfl
@[simp] theorem respond_rxIdx (r : Response) (s : State) : (respond r s).rxIdx = s.rxIdx := rfl
@[simp] theorem respond_rxBuf (r : Response) (s : State) : (respond r s).rxBuf = s.rxBuf := rfl
@[simp] theorem respond_msgBuf (r : Response) (s : State) : (respond r s).msgBuf = s.msgBuf := rfl
@[simp] theorem respond_payloadStart (r : Response) (s : State) : (respond r s).payloadStart = s.payloadStart := rfl
@[simp] theorem respond_payloadEnd (r : Response) (s : State) : (respond r s).payloadEnd = s.payloadEnd := rfl
@[simp] theorem respond_cursor (r : Response) (s : State) : (respond r s).cursor = s.cursor := rfl
@[simp] theorem respond_inHandler (r : Response) (s : State) : (respond r s).inHandler = s.inHandler := rfl
@[simp] theorem respond_activeHandler (r : Response) (s : State) : (respond r s).activeHandler = s.activeHandler := rfl
@[simp] theorem respond_handlerTable (r : Response) (s : State) : (respond r s).handlerTable = s.handlerTable := rfl
@[simp] theorem respond_txOpen (r : Response) (s : State) : (respond r s).txOpen = s.txOpen := rfl
@[simp] theorem respond_pollActive (r : Response) (s : State) : (respond r s).pollActive = s.pollActive := rfl
@[simp] theorem respond_fault (r : Response) (s : State) : (respond r s).fault = s.fault := rfl
@[simp] theorem respond_rxQueue (r : Response) (s : State) : (respond r s).rxQueue = s.rxQueue := rfl
@[simp] theorem respond_history (r : Response) (s : State) : (respond r s).history = s.history := rfl
@[simp] theorem respond_responses (r : Response) (s : State) : (respond r s).responses = s.responses ++ [r] := rfl
@[simp] theorem respond_params (r : Response) (s : State) : (respond r s).params = s.params := rfl
@[simp] theorem respond_port (r : Response) (s : State) : (respond r s).port = s.port := rfl
@[simp] theorem respond_turns (r : Response) (s : State) : (respond r s).turns = s.turns := rfl
@[simp] theorem respond_cycle (r : Response) (s : State) : (respond r s).cycle = s.cycle := rfl

@[simp] theorem raise_rxState (r : FaultReason) (s : State) : (raise r s).rxState = s.rxState := rfl
@[simp] theorem raise_rxIdx (r : FaultReason) (s : State) : (raise r s).rxIdx = s.rxIdx := rfl
@[simp] theorem raise_rxBuf (r : FaultReason) (s : State) : (raise r s).rxBuf = s.rxBuf := rfl
@[simp] theorem raise_msgBuf (r : FaultReason) (s : State) : (raise r s).msgBuf = s.msgBuf := rfl
@[simp] theorem raise_payloadStart (r : FaultReason) (s : State) : (raise r s).payloadStart = s.payloadStart := rfl
@[simp] theorem raise_payloadEnd (r : FaultReason) (s : State) : (raise r s).payloadEnd = s.payloadEnd := rfl
@[simp] theorem raise_cursor (r : FaultReason) (s : State) : (raise r s).cursor = s.cursor := rfl
@[simp] theorem raise_inHandler (r : FaultReason) (s : State) : (raise r s).inHandler = s.inHandler := rfl
@[simp] theorem raise_activeHandler (r : FaultReason) (s : State) : (raise r s).activeHandler = s.activeHandler := rfl
@[simp] theorem raise_handlerTable (r : FaultReason) (s : State) : (raise r s).handlerTable = s.handlerTable := rfl
@[simp] theorem raise_txOpen (r : FaultReason) (s : State) : (raise r s).txOpen = s.txOpen := rfl
@[simp] theorem raise_pollActive (r : FaultReason) (s : State) : (raise r s).pollActive = s.pollActive := rfl
@[simp] theorem raise_fault (r : FaultReason) (s : State) : (raise r s).fault = some r := rfl
@[simp] theorem raise_rxQueue (r : FaultReason) (s : State) : (raise r s).rxQueue = s.rxQueue := rfl
@[simp] theorem raise_history (r : FaultReason) (s : State) : (raise r s).history = s.history := rfl
@[simp] theorem raise_responses (r : FaultReason) (s : State) : (raise r s).responses = s.responses := rfl
@[simp] theorem raise_params (r : FaultReason) (s : State) : (raise r s).params = s.params := rfl
@[simp] theorem raise_port (r : FaultReason) (s : State) : (raise r s).port = s.port := rfl
@[simp] theorem raise_turns (r : FaultReason) (s : State) : (raise r s).turns = s.turns := rfl
@[simp] theorem raise_cycle (r : FaultReason) (s : State) : (raise r s).cycle = s.cycle := rfl

@[simp] theorem enterHandler_rxState (h : Handler) (s : State) : (enterHandler h s).rxState = s.rxState := rfl
@[simp] theorem enterHandler_rxIdx (h : Handler) (s : State) : (enterHandler h s).rxIdx = s.rxIdx := rfl
@[simp] theorem enterHandler_rxBuf (h : Handler) (s : State) : (enterHandler h s).rxBuf = s.rxBuf := rfl
@[simp] theorem enterHandler_msgBuf (h : Handler) (s : State) : (enterHandler h s).msgBuf = s.msgBuf := rfl
@[simp] theorem enterHandler_payloadStart (h : Handler) (s : State) : (enterHandler h s).payloadStart = s.payloadStart := rfl
@[simp] theorem enterHandler_payloadEnd (h : Handler) (s : State) : (enterHandler h s).payloadEnd = s.payloadEnd := rfl
@[simp] theorem enterHandler_cursor (h : Handler) (s : State) : (enterHandler h s).cursor = s.payloadStart := rfl
@[simp] theorem enterHandler_inHandler (h : Handler) (s : State) : (enterHandler h s).inHandler = true := rfl
@[simp] theorem enterHandler_activeHandler (h : Handler) (s : State) : (enterHandler h s).activeHandler = some h := rfl
@[simp] theorem enterHandler_handlerTable (h : Handler) (s : State) : (enterHandler h s).handlerTable = s.handlerTable := rfl
@[simp] theorem enterHandler_txOpen (h : Handler) (s : State) : (enterHandler h s).txOpen = s.txOpen := rfl
@[simp] theorem enterHandler_pollActive (h : Handler) (s : State) : (enterHandler h s).pollActive = s.pollActive := rfl
@[simp] theorem enterHandler_fault (h : Handler) (s : State) : (enterHandler h s).fault = s.fault := rfl
@[simp] theorem enterHandler_rxQueue (h : Handler) (s : State) : (enterHandler h s).rxQueue = s.rxQueue := rfl
@[simp] theorem enterHandler_history (h : Handler) (s : State) : (enterHandler h s).history = s.history ++ [.invoke h] := rfl
@[simp] theorem enterHandler_responses (h : Handler) (s : State) : (enterHandler h s).responses = s.responses := rfl
@[simp] theorem enterHandler_params (h : Handler) (s : State) : (enterHandler h s).params = s.params := rfl
@[simp] theorem enterHandler_port (h : Handler) (s : State) : (enterHandler h s).port = s.port := rfl
@[simp] theorem enterHandler_turns (h : Handler) (s : State) : (enterHandler h s).turns = s.turns := rfl
@[simp] theorem enterHandler_cycle (h : Handler) (s : State) : (enterHandler h s).cycle = s.cycle := rfl

@[simp] theorem leaveHandler_rxState (s : State) : (leaveHandler s).rxState = s.rxState := rfl
@[simp] theorem leaveHandler_rxIdx (s : State) : (leaveHandler s).rxIdx = s.rxIdx := rfl
@[simp] theorem leaveHandler_rxBuf (s : State) : (leaveHandler s).rxBuf = s.rxBuf := rfl
@[simp] theorem leaveHandler_msgBuf (s : State) : (leaveHandler s).msgBuf = s.msgBuf := rfl
@[simp] theorem leaveHandler_payloadStart (s : State) : (leaveHandler s).payloadStart = s.payloadStart := rfl
@[simp] theorem leaveHandler_payloadEnd (s : State) : (leaveHandler s).payloadEnd = s.payloadEnd := rfl
@[simp] theorem leaveHandler_cursor (s : State) : (leaveHandler s).cursor = s.cursor := rfl
@[simp] theorem leaveHandler_inHandler (s : State) : (leaveHandler s).inHandler = false := rfl
@[simp] theorem leaveHandler_activeHandler (s : State) : (leaveHandler s).activeHandler = none := rfl
@[simp] theorem leaveHandler_handlerTable (s : State) : (leaveHandler s).handlerTable = s.handlerTable := rfl
@[simp] theorem leaveHandler_txOpen (s : State) : (leaveHandler s).txOpen = s.txOpen := rfl
@[simp] theorem leaveHandler_pollActive (s : State) : (leaveHandler s).pollActive = s.pollActive := rfl
@[simp] theorem leaveHandler_fault (s : State) : (leaveHandler s).fault = s.fault := rfl
@[simp] theorem leaveHandler_rxQueue (s : State) : (leaveHandler s).rxQueue = s.rxQueue := rfl
@[simp] theorem leaveHandler_history (s : State) : (leaveHandler s).history = s.history ++ [.ret] := rfl
@[simp] theorem leaveHandler_responses (s : State) : (leaveHandler s).responses = s.responses := rfl
@[simp] theorem leaveHandler_params (s : State) : (leaveHandler s).params = s.params := rfl
@[simp] theorem leaveHandler_port (s : State) : (leaveHandler s).port = s.port := rfl
@[simp] theorem leaveHandler_turns (s : State) : (leaveHandler s).turns = s.turns := rfl
@[simp] theorem leaveHandler_cycle (s : State) : (leaveHandler s).cycle = s.cycle := rfl

@[simp] theorem tableWrite_rxState (id : Byte) (h : Handler) (s : State) : (tableWrite id h s).rxState = s.rxState := rfl
@[simp] theorem tableWrite_rxIdx (id : Byte) (h : Handler) (s : State) : (tableWrite id h s).rxIdx = s.rxIdx := rfl
@[simp] theorem tableWrite_rxBuf (id : Byte) (h : Handler) (s : State) : (tableWrite id h s).rxBuf = s.rxBuf := rfl
@[simp] theorem tableWrite_msgBuf (id : Byte) (h : Handler) (s : State) : (tableWrite id h s).msgBuf = s.msgBuf := rfl
@[simp] theorem tableWrite_payloadStart (id : Byte) (h : Handler) (s : State) : (tableWrite id h s).payloadStart = s.payloadStart := rfl
@[simp] theorem tableWrite_payloadEnd (id : Byte) (h : Handler) (s : State) : (tableWrite id h s).payloadEnd = s.payloadEnd := rfl
@[simp] theorem tableWrite_cursor (id : Byte) (h : Handler) (s : State) : (tableWrite id h s).cursor = s.cursor := rfl
@[simp] theorem tableWrite_inHandler (id : Byte) (h : Handler) (s : State) : (tableWrite id h s).inHandler = s.inHandler := rfl
@[simp] theorem tableWrite_activeHandler (id : Byte) (h : Handler) (s : State) : (tableWrite id h s).activeHandler = s.activeHandler := rfl
@[simp] theorem tableWrite_handlerTable (id : Byte) (h : Handler) (s : State) : (tableWrite id h s).handlerTable = s.handlerTable.set id.toNat (some h) := rfl
@[simp] theorem tableWrite_txOpen (id : Byte) (h : Handler) (s : State) : (tableWrite id h s).txOpen = s.txOpen := rfl
@[simp] theorem tableWrite_pollActive (id : Byte) (h : Handler) (s : State) : (tableWrite id h s).pollActive = s.pollActive := rfl
@[simp] theorem tableWrite_fault (id : Byte) (h : Handler) (s : State) : (tableWrite id h s).fault = s.fault := rfl
@[simp] theorem tableWrite_rxQueue (id : Byte) (h : Handler) (s : State) : (tableWrite id h s).rxQueue = s.rxQueue := rfl
@[simp] theorem tableWrite_history (id : Byte) (h : Handler) (s : State) : (tableWrite id h s).history = s.history := rfl
@[simp] theorem tableWrite_responses (id : Byte) (h : Handler) (s : State) : (tableWrite id h s).responses = s.responses := rfl
@[simp] theorem tableWrite_params (id : Byte) (h : Handler) (s : State) : (tableWrite id h s).params = s.params := rfl
@[simp] theorem tableWrite_port (id : Byte) (h : Handler) (s : State) : (tableWrite id h s).port = s.port := rfl
@[simp] theorem tableWrite_turns (id : Byte) (h : Handler) (s : State) : (tableWrite id h s).turns = s.turns := rfl
@[simp] theorem tableWrite_cycle (id : Byte) (h : Handler) (s : State) : (tableWrite id h s).cycle = s.cycle := rfl

@[simp] theorem setTxOpen_rxState (v : Bool) (s : State) : (setTxOpen v s).rxState = s.rxState := rfl
@[simp] theorem setTxOpen_rxIdx (v : Bool) (s : State) : (setTxOpen v s).rxIdx = s.rxIdx := rfl
@[simp] theorem setTxOpen_rxBuf (v : Bool) (s : State) : (setTxOpen v s).rxBuf = s.rxBuf := rfl
@[simp] theorem setTxOpen_msgBuf (v : Bool) (s : State) : (setTxOpen v s).msgBuf = s.msgBuf := rfl
@[simp] theorem setTxOpen_payloadStart (v : Bool) (s : State) : (setTxOpen v s).payloadStart = s.payloadStart := rfl
@[simp] theorem setTxOpen_payloadEnd (v : Bool) (s : State) : (setTxOpen v s).payloadEnd = s.payloadEnd := rfl
@[simp] theorem setTxOpen_cursor (v : Bool) (s : State) : (setTxOpen v s).cursor = s.cursor := rfl
@[simp] theorem setTxOpen_inHandler (v : Bool) (s : State) : (setTxOpen v s).inHandler = s.inHandler := rfl
@[simp] theorem setTxOpen_activeHandler (v : Bool) (s : State) : (setTxOpen v s).activeHandler = s.activeHandler := rfl
@[simp] theorem setTxOpen_handlerTable (v : Bool) (s : State) : (setTxOpen v s).handlerTable = s.handlerTable := rfl
@[simp] theorem setTxOpen_txOpen (v : Bool) (s : State) : (setTxOpen v s).txOpen = v := rfl
@[simp] theorem setTxOpen_pollActive (v : Bool) (s : State) : (setTxOpen v s).pollActive = s.pollActive := rfl
@[simp] theorem setTxOpen_fault (v : Bool) (s : State) : (setTxOpen v s).fault = s.fault := rfl
@[simp] theorem setTxOpen_rxQueue (v : Bool) (s : State) : (setTxOpen v s).rxQueue = s.rxQueue := rfl
@[simp] theorem setTxOpen_history (v : Bool) (s : State) : (setTxOpen v s).history = s.history := rfl
@[simp] theorem setTxOpen_responses (v : Bool) (s : State) : (setTxOpen v s).responses = s.responses := rfl
@[simp] theorem setTxOpen_params (v : Bool) (s : State) : (setTxOpen v s).params = s.params := rfl
@[simp] theorem setTxOpen_port (v : Bool) (s : State) : (setTxOpen v s).port = s.port := rfl
@[simp] theorem setTxOpen_turns (v : Bool) (s : State) : (setTxOpen v s).turns = s.turns := rfl
@[simp] theorem setTxOpen_cycle (v : Bool) (s : State) : (setTxOpen v s).cycle = s.cycle := rfl

@[simp] theorem setPollActive_rxState (v : Bool) (s : State) : (setPollActive v s).rxState = s.rxState := rfl
@[simp] theorem setPollActive_rxIdx (v : Bool) (s : State) : (setPollActive v s).rxIdx = s.rxIdx := rfl
@[simp] theorem setPollActive_rxBuf (v : Bool) (s : State) : (setPollActive v s).rxBuf = s.rxBuf := rfl
@[simp] theorem setPollActive_msgBuf (v : Bool) (s : State) : (setPollActive v s).msgBuf = s.msgBuf := rfl
@[simp] theorem setPollActive_payloadStart (v : Bool) (s : State) : (setPollActive v s).payloadStart = s.payloadStart := rfl
@[simp] theorem setPollActive_payloadEnd (v : Bool) (s : State) : (setPollActive v s).payloadEnd = s.payloadEnd := rfl
@[simp] theorem setPollActive_cursor (v : Bool) (s : State) : (setPollActive v s).cursor = s.cursor := rfl
@[simp] theorem setPollActive_inHandler (v : Bool) (s : State) : (setPollActive v s).inHandler = s.inHandler := rfl
@[simp] theorem setPollActive_activeHandler (v : Bool) (s : State) : (setPollActive v s).activeHandler = s.activeHandler := rfl
@[simp] theorem setPollActive_handlerTable (v : Bool) (s : State) : (setPollActive v s).handlerTable = s.handlerTable := rfl
@[simp] theorem setPollActive_txOpen (v : Bool) (s : State) : (setPollActive v s).txOpen = s.txOpen := rfl
@[simp] theorem setPollActive_pollActive (v : Bool) (s : State) : (setPollActive v s).pollActive = v := rfl
@[simp] theorem setPollActive_fault (v : Bool) (s : State) : (setPollActive v s).fault = s.fault := rfl
@[simp] theorem setPollActive_rxQueue (v : Bool) (s : State) : (setPollActive v s).rxQueue = s.rxQueue := rfl
@[simp] theorem setPollActive_history (v : Bool) (s : State) : (setPollActive v s).history = s.history := rfl
@[simp] theorem setPollActive_responses (v : Bool) (s : State) : (setPollActive v s).responses = s.responses := rfl
@[simp] theorem setPollActive_params (v : Bool) (s : State) : (setPollActive v s).params = s.params := rfl
@[simp] theorem setPollActive_port (v : Bool) (s : State) : (setPollActive v s).port = s.port := rfl
@[simp] theorem setPollActive_turns (v : Bool) (s : State) : (setPollActive v s).turns = s.turns := rfl
@[simp] theorem setPollActive_cycle (v : Bool) (s : State) : (setPollActive v s).cycle = s.cycle := rfl

@[simp] theorem rxRead_rxState (b : Byte) (q : List Byte) (s : State) : (rxRead b q s).rxState = s.rxState := rfl
@[simp] theorem rxRead_rxIdx (b : Byte) (q : List Byte) (s : State) : (rxRead b q s).rxIdx = s.rxIdx := rfl
@[simp] theorem rxRead_rxBuf (b : Byte) (q : List Byte) (s : State) : (rxRead b q s).rxBuf = s.rxBuf := rfl
@[simp] theorem rxRead_msgBuf (b : Byte) (q : List Byte) (s : State) : (rxRead b q s).msgBuf = s.msgBuf := rfl
@[simp] theorem rxRead_payloadStart (b : Byte) (q : List Byte) (s : State) : (rxRead b q s).payloadStart = s.payloadStart := rfl
@[simp] theorem rxRead_payloadEnd (b : Byte) (q : List Byte) (s : State) : (rxRead b q s).payloadEnd = s.payloadEnd := rfl
@[simp] theorem rxRead_cursor (b : Byte) (q : List Byte) (s : State) : (rxRead b q s).cursor = s.cursor := rfl
@[simp] theorem rxRead_inHandler (b : Byte) (q : List Byte) (s : State) : (rxRead b q s).inHandler = s.inHandler := rfl
@[simp] theorem rxRead_activeHandler (b : Byte) (q : List Byte) (s : State) : (rxRead b q s).activeHandler = s.activeHandler := rfl
@[simp] theorem rxRead_handlerTable (b : Byte) (q : List Byte) (s : State) : (rxRead b q s).handlerTable = s.handlerTable := rfl
@[simp] theorem rxRead_txOpen (b : Byte) (q : List Byte) (s : State) : (rxRead b q s).txOpen = s.txOpen := rfl
@[simp] theorem rxRead_pollActive (b : Byte) (q : List Byte) (s : State) : (rxRead b q s).pollActive = s.pollActive := rfl
@[simp] theorem rxRead_fault (b : Byte) (q : List Byte) (s : State) : (rxRead b q s).fault = s.fault := rfl
@[simp] theorem rxRead_rxQueue (b : Byte) (q : List Byte) (s : State) : (rxRead b q s).rxQueue = q := rfl
@[simp] theorem rxRead_history (b : Byte) (q : List Byte) (s : State) : (rxRead b q s).history = s.history ++ [.rxRead b] := rfl
@[simp] theorem rxRead_responses (b : Byte) (q : List Byte) (s : State) : (rxRead b q s).responses = s.responses := rfl
@[simp] theorem rxRead_params (b : Byte) (q : List Byte) (s : State) : (rxRead b q s).params = s.params := rfl
@[simp] theorem rxRead_port (b : Byte) (q : List Byte) (s : State) : (rxRead b q s).port = s.port := rfl
@[simp] theorem rxRead_turns (b : Byte) (q : List Byte) (s : State) : (rxRead b q s).turns = s.turns := rfl
@[simp] theorem rxRead_cycle (b : Byte) (q : List Byte) (s : State) : (rxRead b q s).cycle = s.cycle := rfl

@[simp] theorem arrive_rxState (b : Byte) (s : State) : (arrive b s).rxState = s.rxState := rfl
@[simp] theorem arrive_rxIdx (b : Byte) (s : State) : (arrive b s).rxIdx = s.rxIdx := rfl
@[simp] theorem arrive_rxBuf (b : Byte) (s : State) : (arrive b s).rxBuf = s.rxBuf := rfl
@[simp] theorem arrive_msgBuf (b : Byte) (s : State) : (arrive b s).msgBuf = s.msgBuf := rfl
@[simp] theorem arrive_payloadStart (b : Byte) (s : State) : (arrive b s).payloadStart = s.payloadStart := rfl
@[simp] theorem arrive_payloadEnd (b : Byte) (s : State) : (arrive b s).payloadEnd = s.payloadEnd := rfl
@[simp] theorem arrive_cursor (b : Byte) (s : State) : (arrive b s).cursor = s.cursor := rfl
@[simp] theorem arrive_inHandler (b : Byte) (s : State) : (arrive b s).inHandler = s.inHandler := rfl
@[simp] theorem arrive_activeHandler (b : Byte) (s : State) : (arrive b s).activeHandler = s.activeHandler := rfl
@[simp] theorem arrive_handlerTable (b : Byte) (s : State) : (arrive b s).handlerTable = s.handlerTable := rfl
@[simp] theorem arrive_txOpen (b : Byte) (s : State) : (arrive b s).txOpen = s.txOpen := rfl
@[simp] theorem arrive_pollActive (b : Byte) (s : State) : (arrive b s).pollActive = s.pollActive := rfl
@[simp] theorem arrive_fault (b : Byte) (s : State) : (arrive b s).fault = s.fault := rfl
@[simp] theorem arrive_rxQueue (b : Byte) (s : State) : (arrive b s).rxQueue = s.rxQueue ++ [b] := rfl
@[simp] theorem arrive_history (b : Byte) (s : State) : (arrive b s).history = s.history := rfl
@[simp] theorem arrive_responses (b : Byte) (s : State) : (arrive b s).responses = s.responses := rfl
@[simp] theorem arrive_params (b : Byte) (s : State) : (arrive b s).params = s.params := rfl
@[simp] theorem arrive_port (b : Byte) (s : State) : (arrive b s).port = s.port := rfl
@[simp] theorem arrive_turns (b : Byte) (s : State) : (arrive b s).turns = s.turns := rfl
@[simp] theorem arrive_cycle (b : Byte) (s : State) : (arrive b s).cycle = s.cycle := rfl

@[simp] theorem resetEffect_rxState (s : State) : (resetEffect s).rxState = .idle := rfl
@[simp] theorem resetEffect_rxIdx (s : State) : (resetEffect s).rxIdx = 0 := rfl
@[simp] theorem resetEffect_rxBuf (s : State) : (resetEffect s).rxBuf = s.rxBuf := rfl
@[simp] theorem resetEffect_msgBuf (s : State) : (resetEffect s).msgBuf = s.msgBuf := rfl
@[simp] theorem resetEffect_payloadStart (s : State) : (resetEffect s).payloadStart = 0 := rfl
@[simp] theorem resetEffect_payloadEnd (s : State) : (resetEffect s).payloadEnd = 0 := rfl
@[simp] theorem resetEffect_cursor (s : State) : (resetEffect s).cursor = 0 := rfl
@[simp] theorem resetEffect_inHandler (s : State) : (resetEffect s).inHandler = false := rfl
@[simp] theorem resetEffect_activeHandler (s : State) : (resetEffect s).activeHandler = none := rfl
@[simp] theorem resetEffect_handlerTable (s : State) : (resetEffect s).handlerTable = List.replicate s.params.handlerCount none := rfl
@[simp] theorem resetEffect_txOpen (s : State) : (resetEffect s).txOpen = false := rfl
@[simp] theorem resetEffect_pollActive (s : State) : (resetEffect s).pollActive = false := rfl
@[simp] theorem resetEffect_fault (s : State) : (resetEffect s).fault = s.fault := rfl
@[simp] theorem resetEffect_rxQueue (s : State) : (resetEffect s).rxQueue = s.rxQueue := rfl
@[simp] theorem resetEffect_history (s : State) : (resetEffect s).history = s.history := rfl
@[simp] theorem resetEffect_responses (s : State) : (resetEffect s).responses = s.responses := rfl
@[simp] theorem resetEffect_params (s : State) : (resetEffect s).params = s.params := rfl
@[simp] theorem resetEffect_port (s : State) : (resetEffect s).port = s.port := rfl
@[simp] theorem resetEffect_turns (s : State) : (resetEffect s).turns = s.turns := rfl
@[simp] theorem resetEffect_cycle (s : State) : (resetEffect s).cycle = s.cycle := rfl

@[simp] theorem offer_rxState (c : Command) (s : State) : (offer c s).rxState = s.rxState := rfl
@[simp] theorem offer_rxIdx (c : Command) (s : State) : (offer c s).rxIdx = s.rxIdx := rfl
@[simp] theorem offer_rxBuf (c : Command) (s : State) : (offer c s).rxBuf = s.rxBuf := rfl
@[simp] theorem offer_msgBuf (c : Command) (s : State) : (offer c s).msgBuf = s.msgBuf := rfl
@[simp] theorem offer_payloadStart (c : Command) (s : State) : (offer c s).payloadStart = s.payloadStart := rfl
@[simp] theorem offer_payloadEnd (c : Command) (s : State) : (offer c s).payloadEnd = s.payloadEnd := rfl
@[simp] theorem offer_cursor (c : Command) (s : State) : (offer c s).cursor = s.cursor := rfl
@[simp] theorem offer_inHandler (c : Command) (s : State) : (offer c s).inHandler = s.inHandler := rfl
@[simp] theorem offer_activeHandler (c : Command) (s : State) : (offer c s).activeHandler = s.activeHandler := rfl
@[simp] theorem offer_handlerTable (c : Command) (s : State) : (offer c s).handlerTable = s.handlerTable := rfl
@[simp] theorem offer_txOpen (c : Command) (s : State) : (offer c s).txOpen = s.txOpen := rfl
@[simp] theorem offer_pollActive (c : Command) (s : State) : (offer c s).pollActive = s.pollActive := rfl
@[simp] theorem offer_fault (c : Command) (s : State) : (offer c s).fault = s.fault := rfl
@[simp] theorem offer_rxQueue (c : Command) (s : State) : (offer c s).rxQueue = s.rxQueue := rfl
@[simp] theorem offer_history (c : Command) (s : State) : (offer c s).history = s.history := rfl
@[simp] theorem offer_responses (c : Command) (s : State) : (offer c s).responses = s.responses := rfl
@[simp] theorem offer_params (c : Command) (s : State) : (offer c s).params = s.params := rfl
@[simp] theorem offer_port (c : Command) (s : State) : (offer c s).port = c :: s.port := rfl
@[simp] theorem offer_turns (c : Command) (s : State) : (offer c s).turns = .block :: s.turns := rfl
@[simp] theorem offer_cycle (c : Command) (s : State) : (offer c s).cycle = s.cycle := rfl

@[simp] theorem hold_eq (s : State) : hold s = s := rfl

end Sys2Proof.Machine
end

