-- ==== Sys2Proof/Laws/Memory.lean ====
section
/-! SUPPORT. The laws of the byte buffers: a read after a write, the canonical form and the capacity kept by every
operation, and what Finalize's copy leaves. -/

namespace Sys2Proof.Machine

@[simp] theorem memory_read_nil (i : Nat) : Memory.read [] i = none := rfl

theorem memory_read_write_same (m : Memory) (i : Nat) (v : Byte) :
    Memory.read (Memory.write m i v) i = some v := by
  induction m with
  | nil => simp [Memory.write, Memory.read]
  | cons c rest ih =>
    obtain ⟨k, w⟩ := c
    simp only [Memory.write]
    split
    · simp [Memory.read]
    · split
      · simp [Memory.read]
      · have hk : ¬ k = i := by omega
        simp [Memory.read, hk, ih]

theorem memory_read_write_other (m : Memory) (i j : Nat) (v : Byte) (h : j ≠ i) :
    Memory.read (Memory.write m i v) j = Memory.read m j := by
  induction m with
  | nil => simp [Memory.write, Memory.read, h.symm]
  | cons c rest ih =>
    obtain ⟨k, w⟩ := c
    simp only [Memory.write]
    split
    · simp [Memory.read, h.symm]
    · split
      · subst k; simp [Memory.read, h.symm]
      · simp [Memory.read, ih]

/-- What a write adds to the cells: the index written, or a cell that was there. -/
theorem memory_mem_write {m : Memory} {i : Nat} {v : Byte} {c : Host.Cell}
    (h : c ∈ Memory.write m i v) : c = (i, v) ∨ c ∈ m := by
  induction m with
  | nil => simp [Memory.write] at h; exact .inl h
  | cons d rest ih =>
    obtain ⟨k, w⟩ := d
    simp only [Memory.write] at h
    split at h
    · simpa using h
    · split at h
      · simp only [List.mem_cons] at h ⊢
        rcases h with h | h
        · exact .inl h
        · exact .inr (.inr h)
      · simp only [List.mem_cons] at h ⊢
        rcases h with h | h
        · exact .inr (.inl h)
        · rcases ih h with h | h
          · exact .inl h
          · exact .inr (.inr h)

theorem memory_write_wf {m : Memory} (i : Nat) (v : Byte) (h : Memory.wf m) :
    Memory.wf (Memory.write m i v) := by
  induction m with
  | nil => simp [Memory.write, Memory.wf]
  | cons c rest ih =>
    obtain ⟨k, w⟩ := c
    have h' := List.pairwise_cons.1 h
    simp only [Memory.write]
    split
    · rename_i hik
      refine List.pairwise_cons.2 ⟨fun d hd => ?_, h⟩
      rcases List.mem_cons.1 hd with rfl | hd
      · exact hik
      · exact Nat.lt_trans hik (h'.1 d hd)
    · split
      · rename_i hik
        subst hik
        exact List.pairwise_cons.2 ⟨h'.1, h'.2⟩
      · rename_i h1 h2
        refine List.pairwise_cons.2 ⟨fun d hd => ?_, ih h'.2⟩
        rcases memory_mem_write hd with rfl | hd
        · show k < i
          omega
        · exact h'.1 d hd

theorem memory_write_below {m : Memory} {cap i : Nat} (v : Byte) (hi : i < cap)
    (h : ∀ c ∈ m, c.1 < cap) : ∀ c ∈ Memory.write m i v, c.1 < cap := by
  intro c hc
  rcases memory_mem_write hc with rfl | hc
  · exact hi
  · exact h c hc

/-- A write below the capacity completes. -/
theorem bufWrite_below {buf : Buffer} {cap : Nat} {m : Memory} {i : Nat} {v : Byte} (h : i < cap) :
    bufWrite buf cap m i v = .ok (Memory.write m i v) := by
  simp [bufWrite, h]

/-- All a completed write can be. -/
theorem bufWrite_ok {buf : Buffer} {cap : Nat} {m m' : Memory} {i : Nat} {v : Byte}
    (h : bufWrite buf cap m i v = .ok m') : i < cap ∧ m' = Memory.write m i v := by
  unfold bufWrite at h
  split at h
  · simp only [Except.ok.injEq] at h; exact ⟨‹_›, h.symm⟩
  · simp at h

/-- A byte that has been written is the byte held. -/
theorem byteAt_written {buf : Buffer} {m : Memory} {i : Nat} {v : Byte} (h : Memory.read m i = some v) :
    Memory.byteAt buf m i = v := by simp [Memory.byteAt, h]

/-- A byte that has not been written is the free byte of reset (R34). -/
theorem byteAt_unwritten {buf : Buffer} {m : Memory} {i : Nat} (h : Memory.read m i = none) :
    Memory.byteAt buf m i = buf.initial i := by simp [Memory.byteAt, h]

/-- Every read below the capacity completes (R13). -/
theorem bufRead_below {buf : Buffer} {cap : Nat} {m : Memory} {i : Nat} (h : i < cap) :
    bufRead buf cap m i = .ok (Memory.byteAt buf m i) := by
  simp [bufRead, h]

/-- All a completed read can be. -/
theorem bufRead_ok {buf : Buffer} {cap : Nat} {m : Memory} {i : Nat} {v : Byte}
    (h : bufRead buf cap m i = .ok v) : i < cap ∧ v = Memory.byteAt buf m i := by
  unfold bufRead at h
  split at h
  · simp only [Except.ok.injEq] at h; exact ⟨‹_›, h.symm⟩
  · simp at h

/-- All that Finalize's copy can leave: the prefix copied, every other byte as it was, the canonical form and the
capacity kept. -/
theorem copyPrefix_ok {p : Params} {rx msg m : Memory} {n : Nat} (h : copyPrefix p rx msg n = .ok m) :
    (∀ i < n, Memory.read m i = some (Memory.byteAt .rxBuf rx i)) ∧
    (∀ i, n ≤ i → Memory.read m i = Memory.read msg i) ∧
    (Memory.wf msg → Memory.wf m) ∧
    ((∀ c ∈ msg, c.1 < p.msgCap) → ∀ c ∈ m, c.1 < p.msgCap) := by
  induction n generalizing m with
  | zero =>
    simp only [copyPrefix, Except.ok.injEq] at h
    subst h
    exact ⟨fun i hi => absurd hi (Nat.not_lt_zero i), fun _ _ => rfl, id, id⟩
  | succ n ih =>
    simp only [copyPrefix] at h
    split at h
    · simp at h
    · rename_i m₁ h₁
      obtain ⟨hc, ho, hw, hb⟩ := ih h₁
      split at h
      · simp at h
      · rename_i v hv
        obtain ⟨-, rfl⟩ := bufRead_ok hv
        obtain ⟨hn, rfl⟩ := bufWrite_ok h
        refine ⟨fun i hi => ?_, fun i hi => ?_, fun w => memory_write_wf n _ (hw w),
          fun b => memory_write_below _ hn (hb b)⟩
        · by_cases hin : i = n
          · subst hin
            exact memory_read_write_same _ _ _
          · rw [memory_read_write_other _ _ _ _ hin]
            exact hc i (by omega)
        · rw [memory_read_write_other _ _ _ _ (by omega)]
          exact ho i (by omega)

/-- Finalize's copy completes: every byte it copies fits both buffers (R83, R86). -/
theorem copyPrefix_completes {p : Params} {rx msg : Memory} {n : Nat} (hn : n ≤ p.readCap)
    (hp : p.readCap ≤ p.msgCap) :
    ∃ m, copyPrefix p rx msg n = .ok m := by
  induction n with
  | zero => exact ⟨msg, rfl⟩
  | succ n ih =>
    obtain ⟨m, hm⟩ := ih (by omega)
    refine ⟨Memory.write m n (Memory.byteAt .rxBuf rx n), ?_⟩
    simp only [copyPrefix, hm]
    rw [bufRead_below (by omega)]
    exact bufWrite_below (by omega)

/-- The buffers right after reset are in canonical form and list nothing. -/
theorem reset_buffers_wf : Memory.wf State.reset.rxBuf ∧ Memory.wf State.reset.msgBuf :=
  ⟨List.Pairwise.nil, List.Pairwise.nil⟩

end Sys2Proof.Machine
end

