-- ==== Sys2Proof/Laws/Assembler.lean ====
section
/-! SUPPORT. What the assembler and DISPATCH can do: one inversion lemma per operation, and when each completes. -/

namespace Sys2Proof.Machine

/-- The entry of an id, as R92 reads it. -/
theorem tableEntry_eq (s : State) (id : Byte) :
    tableEntry s id = if id.toNat < s.params.handlerCount then s.handlerTable.getD id.toNat none else none := by
  unfold tableEntry idInTable
  by_cases h : id.toNat < s.params.handlerCount <;> simp [h]

theorem dispatch_found {s : State} {id : Byte} {h : Handler} (he : tableEntry s id = some h) :
    dispatch id s = enterHandler h s := by simp [dispatch, he]

theorem dispatch_missing {s : State} {id : Byte} (he : tableEntry s id = none) :
    dispatch id s = report .unhandledType s := by simp [dispatch, he]

/-- All that DISPATCH can do (R92). -/
theorem dispatch_cases (id : Byte) (s : State) :
    (∃ h, tableEntry s id = some h ∧ dispatch id s = enterHandler h s) ∨
    (tableEntry s id = none ∧ dispatch id s = report .unhandledType s) := by
  cases he : tableEntry s id with
  | none => exact .inr ⟨rfl, dispatch_missing he⟩
  | some h => exact .inl ⟨h, rfl, dispatch_found he⟩

/-- All that Append can do (R81). -/
theorem appendByte_ok {b : Byte} {s t : State} (h : appendByte b s = .ok t) :
    (s.rxIdx = s.params.readCap ∧
      t = { report .bufferOverflow s with rxState := .idle, rxIdx := 0 }) ∨
    (s.rxIdx < s.params.readCap ∧
      t = { s with rxBuf := Memory.write s.rxBuf s.rxIdx b, rxIdx := s.rxIdx + 1, rxState := .inMessage }) := by
  unfold appendByte at h
  split at h
  · simp only [Except.ok.injEq] at h
    exact .inl ⟨‹_›, h.symm⟩
  · split at h
    · rename_i m hm
      obtain ⟨hlt, rfl⟩ := bufWrite_ok hm
      simp only [Except.ok.injEq] at h
      exact .inr ⟨hlt, h.symm⟩
    · simp at h

/-- Append with room left (R80, R82). -/
theorem appendByte_room {b : Byte} {s : State} (h : s.rxIdx < s.params.readCap) :
    appendByte b s =
      .ok { s with rxBuf := Memory.write s.rxBuf s.rxIdx b, rxIdx := s.rxIdx + 1, rxState := .inMessage } := by
  simp [appendByte, Nat.ne_of_lt h, bufWrite_below h]

/-- Append with the buffer full (R81, R109). -/
theorem appendByte_full {b : Byte} {s : State} (h : s.rxIdx = s.params.readCap) :
    appendByte b s = .ok { report .bufferOverflow s with rxState := .idle, rxIdx := 0 } := by
  simp [appendByte, h]

/-- All that an append step can do. -/
theorem appendStep_ok {b : Byte} {s t : State} {r : Option Byte} (h : appendStep b s = .ok (r, t)) :
    r = none ∧ appendByte b s = .ok t := by
  unfold appendStep at h
  split at h
  · rename_i u hu
    simp only [Except.ok.injEq, Prod.mk.injEq] at h
    obtain ⟨rfl, rfl⟩ := h
    exact ⟨rfl, hu⟩
  · simp at h

/-- The state Finalize hands to DISPATCH: `m` is the message buffer with the frame copied in (R83). -/
def finalized (m : Memory) (s : State) : State :=
  { s with msgBuf := m, payloadStart := 1, payloadEnd := s.rxIdx, rxState := .idle, rxIdx := 0 }

/-- All that Finalize can do (R83). -/
theorem finalize_ok {s t : State} {r : Option Byte} (h : finalize s = .ok (r, t)) :
    ∃ m id, copyPrefix s.params s.rxBuf s.msgBuf s.rxIdx = .ok m ∧ id = Memory.byteAt .msgBuf m 0 ∧
      r = some id ∧ t = dispatch id (finalized m s) := by
  unfold finalize at h
  split at h
  · simp at h
  · rename_i m hm
    split at h
    · simp at h
    · rename_i id hid
      simp only [Except.ok.injEq, Prod.mk.injEq] at h
      exact ⟨m, id, hm, (bufRead_ok hid).2, h.1.symm, h.2.symm⟩

/-- The id a copied frame begins with is the first byte of the receive buffer. -/
theorem copied_id {s : State} {m : Memory} (h0 : s.rxIdx ≠ 0)
    (hm : copyPrefix s.params s.rxBuf s.msgBuf s.rxIdx = .ok m) :
    Memory.byteAt .msgBuf m 0 = Memory.byteAt .rxBuf s.rxBuf 0 :=
  byteAt_written ((copyPrefix_ok hm).1 0 (Nat.pos_of_ne_zero h0))

/-- Finalize completes on every frame that fits the buffers (R83, R86). -/
theorem finalize_completes {s : State} (hp : s.params.readCap ≤ s.params.msgCap) (h1 : 1 ≤ s.rxIdx)
    (hn : s.rxIdx ≤ s.params.readCap) :
    ∃ m, copyPrefix s.params s.rxBuf s.msgBuf s.rxIdx = .ok m ∧
      finalize s = .ok (some (Memory.byteAt .rxBuf s.rxBuf 0),
        dispatch (Memory.byteAt .rxBuf s.rxBuf 0) (finalized m s)) := by
  obtain ⟨m, hm⟩ := copyPrefix_completes (msg := s.msgBuf) hn hp
  refine ⟨m, hm, ?_⟩
  simp [finalize, hm, bufRead_below (buf := .msgBuf) (m := m) (show 0 < s.params.msgCap by omega),
    copied_id (by omega) hm, finalized]

/-- All that an assembler step in InMessage can do, with the byte that makes it do so (R77..R80, R83, R84). -/
theorem inMessageStep_ok {b : Byte} {s t : State} {r : Option Byte} (h : inMessageStep b s = .ok (r, t)) :
    (b = s.params.escapeByte ∧ r = none ∧ t = { s with rxState := .escaping }) ∨
    (b = s.params.endByte ∧ s.rxIdx = 0 ∧ r = none ∧ t = { s with rxState := .idle }) ∨
    (b = s.params.endByte ∧ s.rxIdx ≠ 0 ∧ finalize s = .ok (r, t)) ∨
    (b = s.params.startByte ∧ r = none ∧
      t = report .unexpectedResync { s with rxIdx := 0, rxState := .inMessage }) ∨
    (isCtrl s.params b = false ∧ r = none ∧ appendByte b s = .ok t) := by
  unfold inMessageStep at h
  split at h
  · rename_i h1
    simp only [Except.ok.injEq, Prod.mk.injEq] at h
    exact .inl ⟨by simpa using h1, h.1.symm, h.2.symm⟩
  · rename_i h1
    split at h
    · rename_i h2
      split at h
      · simp only [Except.ok.injEq, Prod.mk.injEq] at h
        exact .inr (.inl ⟨by simpa using h2, ‹_›, h.1.symm, h.2.symm⟩)
      · exact .inr (.inr (.inl ⟨by simpa using h2, ‹_›, h⟩))
    · rename_i h2
      split at h
      · rename_i h3
        simp only [Except.ok.injEq, Prod.mk.injEq] at h
        exact .inr (.inr (.inr (.inl ⟨by simpa using h3, h.1.symm, h.2.symm⟩)))
      · rename_i h3
        obtain ⟨hr, ht⟩ := appendStep_ok h
        refine .inr (.inr (.inr (.inr ⟨?_, hr, ht⟩)))
        simp only [isCtrl, Bool.or_eq_false_iff]
        exact ⟨⟨Bool.eq_false_iff.2 h3, Bool.eq_false_iff.2 h2⟩, Bool.eq_false_iff.2 h1⟩

/-- All that an assembler step can do (R75, R87). -/
theorem assembleStep_ok {b : Byte} {s t : State} {r : Option Byte} (h : assembleStep b s = .ok (r, t)) :
    (s.rxState = .idle ∧ r = none ∧
      t = if b == s.params.startByte then { s with rxIdx := 0, rxState := .inMessage } else s) ∨
    (s.rxState = .inMessage ∧ inMessageStep b s = .ok (r, t)) ∨
    (s.rxState = .escaping ∧ r = none ∧ appendByte b s = .ok t) := by
  unfold assembleStep at h
  split at h
  · simp only [Except.ok.injEq, Prod.mk.injEq] at h
    exact .inl ⟨‹_›, h.1.symm, h.2.symm⟩
  · exact .inr (.inl ⟨‹_›, h⟩)
  · exact .inr (.inr ⟨‹_›, appendStep_ok h⟩)

/-- Everything one assembler step can do, case by case, with the byte and the condition of each case: the transition table
of 41_receive_assembler.md. -/
theorem assembleStep_cases {b : Byte} {s t : State} {r : Option Byte} (h : assembleStep b s = .ok (r, t)) :
    (r = none ∧ s.rxState = .idle ∧ b = s.params.startByte ∧ t = { s with rxIdx := 0, rxState := .inMessage }) ∨
    (r = none ∧ s.rxState = .idle ∧ b ≠ s.params.startByte ∧ t = s) ∨
    (r = none ∧ s.rxState = .inMessage ∧ b = s.params.escapeByte ∧ t = { s with rxState := .escaping }) ∨
    (r = none ∧ s.rxState = .inMessage ∧ b = s.params.endByte ∧ s.rxIdx = 0 ∧ t = { s with rxState := .idle }) ∨
    (s.rxState = .inMessage ∧ b = s.params.endByte ∧ s.rxIdx ≠ 0 ∧ ∃ m id, r = some id ∧
      copyPrefix s.params s.rxBuf s.msgBuf s.rxIdx = .ok m ∧ id = Memory.byteAt .rxBuf s.rxBuf 0 ∧
      ((∃ h, tableEntry s id = some h ∧ t = enterHandler h (finalized m s)) ∨
        (tableEntry s id = none ∧ t = report .unhandledType (finalized m s)))) ∨
    (r = none ∧ s.rxState = .inMessage ∧ b = s.params.startByte ∧
      t = report .unexpectedResync { s with rxIdx := 0, rxState := .inMessage }) ∨
    (r = none ∧ (s.rxState = .escaping ∨ s.rxState = .inMessage ∧ isCtrl s.params b = false) ∧
      s.rxIdx = s.params.readCap ∧ t = { report .bufferOverflow s with rxState := .idle, rxIdx := 0 }) ∨
    (r = none ∧ (s.rxState = .escaping ∨ s.rxState = .inMessage ∧ isCtrl s.params b = false) ∧
      s.rxIdx < s.params.readCap ∧
      t = { s with rxBuf := Memory.write s.rxBuf s.rxIdx b, rxIdx := s.rxIdx + 1, rxState := .inMessage }) := by
  rcases assembleStep_ok h with ⟨hi, rfl, rfl⟩ | ⟨hi, hm⟩ | ⟨hi, rfl, ha⟩
  · by_cases hb : b = s.params.startByte <;> simp [hi, hb]
  · rcases inMessageStep_ok hm with ⟨hb, rfl, rfl⟩ | ⟨hb, h0, rfl, rfl⟩ | ⟨hb, h0, hf⟩ | ⟨hb, rfl, rfl⟩ | ⟨hb, rfl, ha⟩
    · simp [hi, hb]
    · simp [hi, hb, h0]
    · obtain ⟨m, id, hc, hid, rfl, rfl⟩ := finalize_ok hf
      exact .inr (.inr (.inr (.inr (.inl ⟨hi, hb, h0, m, id, rfl, hc, hid.trans (copied_id h0 hc), dispatch_cases id (finalized m s)⟩))))
    · simp [hi, hb]
    · rcases appendByte_ok ha with ⟨h1, rfl⟩ | ⟨h1, rfl⟩ <;> simp [hi, hb, h1]
  · rcases appendByte_ok ha with ⟨h1, rfl⟩ | ⟨h1, rfl⟩ <;> simp [hi, h1]

/-- An assembler's outcome with `poll_active` set to `v`. -/
def withPollActive (v : Bool) : Except Fault (Option Byte × State) → Except Fault (Option Byte × State)
  | .ok (r, t) => .ok (r, { t with pollActive := v })
  | .error f => .error f

theorem appendStep_pollActive (b : Byte) (v : Bool) (s : State) :
    appendStep b { s with pollActive := v } = withPollActive v (appendStep b s) := by
  unfold appendStep appendByte
  by_cases h : s.rxIdx = s.params.readCap
  · simp only [h, if_true]; rfl
  · simp only [if_neg h]
    cases bufWrite .rxBuf s.params.readCap s.rxBuf s.rxIdx b <;> rfl

theorem dispatch_pollActive (id : Byte) (v : Bool) (s : State) :
    dispatch id { s with pollActive := v } = { dispatch id s with pollActive := v } := by
  have h : tableEntry { s with pollActive := v } id = tableEntry s id := rfl
  unfold dispatch
  rw [h]
  cases tableEntry s id <;> rfl

theorem finalize_pollActive (v : Bool) (s : State) :
    finalize { s with pollActive := v } = withPollActive v (finalize s) := by
  unfold finalize
  cases copyPrefix s.params s.rxBuf s.msgBuf s.rxIdx with
  | error f => rfl
  | ok m =>
    simp only []
    cases bufRead .msgBuf s.params.msgCap m 0 with
    | error f => rfl
    | ok id => exact congrArg (fun t => Except.ok (some id, t)) (dispatch_pollActive id v (finalized m s))

/-- An assembler step does the same whatever `poll_active` is: FEED and the poll sequencer share it (R75). -/
theorem assembleStep_pollActive (b : Byte) (v : Bool) (s : State) :
    assembleStep b { s with pollActive := v } = withPollActive v (assembleStep b s) := by
  unfold assembleStep
  cases hr : s.rxState with
  | idle =>
    simp only []
    by_cases h : (b == s.params.startByte) = true <;> simp [h, hr, withPollActive]
  | inMessage =>
    simp only [inMessageStep]
    by_cases h1 : (b == s.params.escapeByte) = true
    · simp only [h1, if_true]; rfl
    · simp only [if_neg h1]
      by_cases h2 : (b == s.params.endByte) = true
      · simp only [h2, if_true]
        by_cases h0 : s.rxIdx = 0
        · simp only [h0, if_true]; rfl
        · simp only [if_neg h0]; exact finalize_pollActive v s
      · simp only [if_neg h2]
        by_cases h3 : (b == s.params.startByte) = true
        · simp only [h3, if_true]; rfl
        · simp only [if_neg h3]; exact appendStep_pollActive b v s
  | escaping => exact appendStep_pollActive b v s

end Sys2Proof.Machine
end

