-- ==== Sys2Proof/Laws/Codec.lean ====
section
/-! SUPPORT. What the codec's functions do: the escaped write is the escaping rule's bytes appended to the history. -/

namespace Sys2Proof.Machine

theorem esc_plain {p : Params} {b : Byte} (h : isCtrl p b = false) : esc p b = [b] := by simp [esc, h]

theorem esc_ctrl {p : Params} {b : Byte} (h : isCtrl p b = true) : esc p b = [p.escapeByte, b] := by
  simp [esc, h]

/-- Exactly which bytes are control bytes (R15). -/
theorem isCtrl_iff {p : Params} {b : Byte} :
    isCtrl p b = true ↔ b = p.startByte ∨ b = p.endByte ∨ b = p.escapeByte := by
  simp [isCtrl, or_assoc]

theorem isCtrl_false_iff {p : Params} {b : Byte} :
    isCtrl p b = false ↔ b ≠ p.startByte ∧ b ≠ p.endByte ∧ b ≠ p.escapeByte := by
  rw [← Bool.not_eq_true, isCtrl_iff]; tauto

/-- `TxEsc(b)` appends `Tx(x)` for each `x` of `esc(b)` and touches nothing else (R67). -/
theorem txEsc_eq (b : Byte) (s : State) :
    txEsc b s = { s with history := s.history ++ (esc s.params b).map Event.tx } := by
  unfold txEsc
  split
  · rename_i h; simp [esc_ctrl h, txWrite, emit]
  · rename_i h; simp [esc_plain (Bool.not_eq_true _ ▸ h), txWrite, emit]

/-- SEND_BLOCK's loop appends the escaped bytes in order and touches nothing else (R104). -/
theorem txEscEach_eq (bs : List Byte) (s : State) :
    txEscEach bs s = { s with history := s.history ++ (escAll s.params bs).map Event.tx } := by
  induction bs generalizing s with
  | nil => simp [txEscEach, escAll]
  | cons b bs ih => simp [txEscEach, txEsc_eq, ih, escAll]

theorem escAll_append (p : Params) (xs ys : List Byte) : escAll p (xs ++ ys) = escAll p xs ++ escAll p ys := by
  induction xs with
  | nil => rfl
  | cons x xs ih => simp [escAll, ih]

end Sys2Proof.Machine
end

