-- ==== Sys2Proof/Laws/Context.lean ====
section
/-! SUPPORT. What the context gates do (60_exceptions.md R119, R121): one lemma per gate and situation, and one inversion
lemma per gate. -/

namespace Sys2Proof.Machine

theorem accepting_iff (s : State) : s.accepting = true ↔ s.Accepts := by
  rcases hf : s.fault with _ | f <;> rcases hi : s.inHandler with _ | _ <;> rcases hp : s.pollActive with _ | _ <;>
    simp [State.accepting, State.pollOwned, State.Accepts, State.Driver, State.InHandlerCtx, hf, hi, hp]

theorem accepting_false_iff (s : State) : s.accepting = false ↔ s.fault ≠ none ∨ s.PollOwned := by
  rcases hf : s.fault with _ | f <;> rcases hi : s.inHandler with _ | _ <;> rcases hp : s.pollActive with _ | _ <;>
    simp [State.accepting, State.pollOwned, State.PollOwned, hf, hi, hp]

theorem accepts_fault {s : State} (h : s.Accepts) : s.fault = none := h.elim (·.1) (·.1)

theorem accepts_not_pollOwned {s : State} (h : s.Accepts) : ¬ s.PollOwned := by
  intro hp
  rcases h with h | h
  · exact absurd (h.2.2.symm.trans hp.2.2) (by decide)
  · exact absurd (h.2.symm.trans hp.2.1) (by decide)

/-- Every state is faulted, poll-owned or accepting (R117, R121). -/
theorem situation_cases (s : State) : s.fault ≠ none ∨ s.PollOwned ∨ s.Accepts := by
  cases h : s.accepting with
  | true => exact .inr (.inr ((accepting_iff s).1 h))
  | false =>
    rcases (accepting_false_iff s).1 h with h | h
    · exact .inl h
    · exact .inr (.inl h)

theorem inAnyContext_accepts {s : State} (run : State → Result) (h : s.Accepts) : inAnyContext s run = run s := by
  simp [inAnyContext, (accepting_iff s).2 h]

theorem inDriver_driver {s : State} (run : State → Result) (h : s.Driver) : inDriver s run = run s := by
  simp [inDriver, (accepting_iff s).2 (.inl h), h.2.1]

theorem inDriver_handler {s : State} (run : State → Result) (h : s.InHandlerCtx) :
    inDriver s run = .next (raise .reentrant s) := by
  simp [inDriver, (accepting_iff s).2 (.inr h), h.2]

theorem inHandlerOnly_handler {s : State} (run : State → Result) (h : s.InHandlerCtx) :
    inHandlerOnly s run = run s := by
  simp [inHandlerOnly, (accepting_iff s).2 (.inr h), h.2]

theorem inHandlerOnly_driver {s : State} (run : State → Result) (h : s.Driver) :
    inHandlerOnly s run = .next (raise .notInHandler s) := by
  simp [inHandlerOnly, (accepting_iff s).2 (.inl h), h.2.1]

theorem inAnyContext_pollOwned {s : State} (run : State → Result) (h : s.PollOwned) :
    inAnyContext s run = .next s := by
  simp [inAnyContext, (accepting_false_iff s).2 (.inr h)]

theorem inDriver_pollOwned {s : State} (run : State → Result) (h : s.PollOwned) : inDriver s run = .next s := by
  simp [inDriver, (accepting_false_iff s).2 (.inr h)]

theorem inHandlerOnly_pollOwned {s : State} (run : State → Result) (h : s.PollOwned) :
    inHandlerOnly s run = .next s := by
  simp [inHandlerOnly, (accepting_false_iff s).2 (.inr h)]

/-- All that a command accepted in any context can do. -/
theorem inAnyContext_next {s t : State} {run : State → Result} (h : inAnyContext s run = .next t) :
    (s.Accepts ∧ run s = .next t) ∨ ((s.fault ≠ none ∨ s.PollOwned) ∧ t = s) := by
  unfold inAnyContext at h
  split at h
  · exact .inl ⟨(accepting_iff s).1 ‹_›, h⟩
  · refine .inr ⟨(accepting_false_iff s).1 (Bool.eq_false_iff.2 ‹_›), ?_⟩
    simpa using h.symm

/-- All that a driver-only command can do. -/
theorem inDriver_next {s t : State} {run : State → Result} (h : inDriver s run = .next t) :
    (s.Driver ∧ run s = .next t) ∨ (s.InHandlerCtx ∧ t = raise .reentrant s) ∨
    ((s.fault ≠ none ∨ s.PollOwned) ∧ t = s) := by
  unfold inDriver at h
  split at h
  · have ha := (accepting_iff s).1 ‹_›
    split at h
    · rename_i hi
      rcases ha with ha | ha
      · simp [ha.2.1] at hi
      · refine .inr (.inl ⟨ha, ?_⟩)
        simpa using h.symm
    · rename_i hi
      rcases ha with ha | ha
      · exact .inl ⟨ha, h⟩
      · exact absurd ha.2 hi
  · refine .inr (.inr ⟨(accepting_false_iff s).1 (Bool.eq_false_iff.2 ‹_›), ?_⟩)
    simpa using h.symm

/-- All that a handler-only command can do. -/
theorem inHandlerOnly_next {s t : State} {run : State → Result} (h : inHandlerOnly s run = .next t) :
    (s.InHandlerCtx ∧ run s = .next t) ∨ (s.Driver ∧ t = raise .notInHandler s) ∨
    ((s.fault ≠ none ∨ s.PollOwned) ∧ t = s) := by
  unfold inHandlerOnly at h
  split at h
  · have ha := (accepting_iff s).1 ‹_›
    split at h
    · rename_i hi
      rcases ha with ha | ha
      · simp [ha.2.1] at hi
      · exact .inl ⟨ha, h⟩
    · rename_i hi
      rcases ha with ha | ha
      · refine .inr (.inl ⟨ha, ?_⟩)
        simpa using h.symm
      · exact absurd ha.2 hi
  · refine .inr (.inr ⟨(accepting_false_iff s).1 (Bool.eq_false_iff.2 ‹_›), ?_⟩)
    simpa using h.symm

end Sys2Proof.Machine
end

