-- ==== Sys2Proof/Laws/Decode.lean ====
section
/-! SUPPORT. The fields of a command word (30_encoding.md R57): packing and unpacking are inverse, and what a row's mask
leaves of a packed word. -/

namespace Sys2Proof

theorem packWord_getLsbD (o b : Byte) (i : Nat) :
    (packWord o b).getLsbD i = if i < 8 then b.getLsbD i else o.getLsbD (i - 8) := by
  have h : (packWord o b).getLsbD i = if i < 8 then b.getLsbD i else o.getLsbD (i - 8) :=
    BitVec.getLsbD_append
  exact h

@[simp] theorem wordOpc_packWord (o b : Byte) : wordOpc (packWord o b) = o := by
  refine BitVec.eq_of_getLsbD_eq fun i hi => ?_
  simp [wordOpc, packWord_getLsbD, hi]

@[simp] theorem wordB_packWord (o b : Byte) : wordB (packWord o b) = b := by
  refine BitVec.eq_of_getLsbD_eq fun i hi => ?_
  simp [wordB, packWord_getLsbD, hi]

/-- A word is its two fields packed. -/
theorem packWord_fields (w : Word) : packWord (wordOpc w) (wordB w) = w := by
  refine BitVec.eq_of_getLsbD_eq fun i hi => ?_
  rw [packWord_getLsbD]
  split
  · rename_i h; simp [wordB, h]
  · rename_i h
    have h8 : i - 8 < 8 := by omega
    simp [wordOpc, h8, Nat.add_sub_cancel' (Nat.le_of_not_lt h)]

theorem packWord_inj {o o' b b' : Byte} (h : packWord o b = packWord o' b') : o = o' ∧ b = b' := by
  have h1 := congrArg wordOpc h
  have h2 := congrArg wordB h
  simp only [wordOpc_packWord, wordB_packWord] at h1 h2
  exact ⟨h1, h2⟩

/-- What a mask leaves of a packed word, field by field. -/
theorem packWord_and (o b m n : Byte) : packWord o b &&& packWord m n = packWord (o &&& m) (b &&& n) := by
  refine BitVec.eq_of_getLsbD_eq fun i hi => ?_
  simp only [BitVec.getLsbD_and, packWord_getLsbD]
  split <;> simp

/-- The operand mask leaves the opcode alone. -/
theorem packWord_and_operand (o b : Byte) : packWord o b &&& 0xFF00#16 = packWord o 0x00#8 := by
  have h : 0xFF00#16 = packWord 0xFF#8 0x00#8 := by decide
  have ho : o &&& 0xFF#8 = o := BitVec.and_allOnes
  rw [h, packWord_and, ho, BitVec.and_zero]

/-- The full mask leaves the whole word. -/
theorem packWord_and_full (o b : Byte) : packWord o b &&& 0xFFFF#16 = packWord o b := by
  have h : 0xFFFF#16 = BitVec.allOnes 16 := by decide
  rw [h, BitVec.and_allOnes]

/-- A row with the operand mask takes exactly the words of its opcode. -/
theorem hit_operand (p o b : Byte) (k : Byte → Side → Instr) :
    ({ mask := 0xFF00#16, pattern := packWord p 0x00#8, build := k } : Row).hit (packWord o b) = (o == p) := by
  rw [Bool.eq_iff_iff]
  simp only [Row.hit, packWord_and_operand, beq_iff_eq]
  exact ⟨fun h => (packWord_inj h).1, fun h => h ▸ rfl⟩

/-- A row with the full mask takes exactly the one word of its opcode with `B` zero. -/
theorem hit_full (p o b : Byte) (k : Byte → Side → Instr) :
    ({ mask := 0xFFFF#16, pattern := packWord p 0x00#8, build := k } : Row).hit (packWord o b) =
      (o == p && b == 0x00#8) := by
  rw [Bool.eq_iff_iff]
  simp only [Row.hit, packWord_and_full, beq_iff_eq, Bool.and_eq_true]
  exact ⟨fun h => packWord_inj h, fun h => h.1 ▸ h.2 ▸ rfl⟩

/-- The decoder's answer, once the row that takes the word has been looked for. -/
def answerOf (f : Option Row) (b : Byte) (sd : Side) (e : DecodeError) : Except DecodeError Instr :=
  match f with
  | some r => .ok (r.build b sd)
  | none => .error e

theorem decode_eq_answerOf (w : Word) (sd : Side) :
    decode { word := w, side := sd } =
      answerOf (opcodeMap.find? (fun r => r.hit w)) (wordB w) sd (decodeErrorOf w) := rfl

theorem answerOf_operand (p o b : Byte) (sd : Side) (e : DecodeError) (k : Byte → Side → Instr) (rs : List Row) :
    answerOf ((({ mask := 0xFF00#16, pattern := packWord p 0x00#8, build := k } : Row) :: rs).find?
      (fun r => r.hit (packWord o b))) b sd e =
    if o = p then .ok (k b sd) else answerOf (rs.find? (fun r => r.hit (packWord o b))) b sd e := by
  rw [List.find?_cons, hit_operand]
  by_cases h : o = p
  · simp [h, answerOf]
  · have h' : (o == p) = false := by simpa using h
    simp only [h', if_neg h]

theorem answerOf_full (p o b : Byte) (sd : Side) (e : DecodeError) (k : Byte → Side → Instr) (rs : List Row) :
    answerOf ((({ mask := 0xFFFF#16, pattern := packWord p 0x00#8, build := k } : Row) :: rs).find?
      (fun r => r.hit (packWord o b))) b sd e =
    if o = p ∧ b = 0x00#8 then .ok (k b sd)
    else answerOf (rs.find? (fun r => r.hit (packWord o b))) b sd e := by
  rw [List.find?_cons, hit_full]
  by_cases h : o = p ∧ b = 0x00#8
  · simp [h.1, h.2, answerOf]
  · have h' : (o == p && b == 0x00#8) = false := by
      rw [Bool.eq_false_iff]; simpa using h
    simp only [h', if_neg h]

/-- What the decoder reads from a word, given by its fields (R60, R61). -/
theorem decode_packWord (o b : Byte) (sd : Side) :
    decode { word := packWord o b, side := sd } =
      if o = 0x01#8 then .ok (.feed b)
      else if o = 0x02#8 ∧ b = 0x00#8 then .ok .pollOnce
      else if o = 0x03#8 then .ok (.register b sd.h)
      else if o = 0x04#8 ∧ b = 0x00#8 then .ok .hasNext
      else if o = 0x05#8 ∧ b = 0x00#8 then .ok .next
      else if o = 0x06#8 ∧ b = 0x00#8 then .ok .handlerReturn
      else if o = 0x08#8 then .ok (.beginSend b)
      else if o = 0x09#8 then .ok (.sendByte b)
      else if o = 0x0A#8 ∧ b = 0x00#8 then .ok .endSend
      else if o = 0x0B#8 then .ok (.send0 b)
      else if o = 0x0C#8 then .ok (.sendBlock b sd.d sd.off sd.len)
      else .error (decodeErrorOf (packWord o b)) := by
  rw [decode_eq_answerOf, wordB_packWord]
  unfold opcodeMap
  rw [answerOf_operand, answerOf_full, answerOf_operand, answerOf_full, answerOf_full, answerOf_full,
    answerOf_operand, answerOf_operand, answerOf_full, answerOf_operand, answerOf_operand]
  rfl

/-- The opcodes of the map (R60). -/
theorem mappedOpcodes_eq :
    mappedOpcodes =
      [0x01#8, 0x02#8, 0x03#8, 0x04#8, 0x05#8, 0x06#8, 0x08#8, 0x09#8, 0x0A#8, 0x0B#8, 0x0C#8] := by
  decide

/-- The name of the reason a word is illegal, given by its fields (R61). -/
theorem decodeErrorOf_packWord (o b : Byte) :
    decodeErrorOf (packWord o b) =
      if o ∈ mappedOpcodes then .strayOperand o b else .unmappedOpcode o := by
  simp only [decodeErrorOf, wordOpc_packWord, wordB_packWord]

end Sys2Proof
end

