-- ==== Sys2Proof/Laws/Step.lean ====
section
/-! SUPPORT. What a step can do: one inversion lemma for the block's step and one for the turn (00_scope.md R14). -/

namespace Sys2Proof.Machine

/-- All that an accepted transaction can do (R61, R119). -/
theorem runCommand_cases (c : Command) (s : State) :
    (∃ i, decode c = .ok i ∧ runCommand c s = exec i s) ∨
    (∃ e, decode c = .error e ∧ runCommand c s = .next (raise .illegal s)) := by
  unfold runCommand
  cases hd : decode c with
  | ok i => exact .inl ⟨i, rfl, rfl⟩
  | error e => exact .inr ⟨e, rfl, rfl⟩

/-- All that the block's step can do (R89, R117, R121). -/
theorem blockStep_cases (s : State) :
    (s.fault ≠ none ∧ blockStep s = .next s) ∨
    (s.PollOwned ∧ blockStep s = pollStep s) ∨
    (s.Accepts ∧ s.port = [] ∧ blockStep s = .next s) ∨
    (∃ c cs, s.Accepts ∧ s.port = c :: cs ∧ blockStep s = runCommand c { s with port := cs }) := by
  rcases hf : s.fault with _ | f <;> rcases hi : s.inHandler with _ | _ <;> rcases hp : s.pollActive with _ | _ <;>
    rcases hc : s.port with _ | ⟨c, cs⟩ <;>
    simp [blockStep, State.pollOwned, State.PollOwned, State.Accepts, State.Driver, State.InHandlerCtx, hf, hi, hp, hc]

theorem blockStep_faulted {s : State} (h : s.fault ≠ none) : blockStep s = .next s := by
  simp [blockStep, Option.isSome_iff_ne_none.2 h]

theorem blockStep_pollOwned {s : State} (h : s.PollOwned) : blockStep s = pollStep s := by
  simp [blockStep, State.pollOwned, h.1, h.2.1, h.2.2]

theorem blockStep_idle {s : State} (h : s.Accepts) (hp : s.port = []) : blockStep s = .next s := by
  rcases blockStep_cases s with h' | h' | h' | ⟨c, cs, -, h', -⟩
  · exact h'.2
  · exact absurd h'.1 (accepts_not_pollOwned h)
  · exact h'.2.2
  · rw [hp] at h'; cases h'

theorem blockStep_command {s : State} {c : Command} {cs : List Command} (h : s.Accepts) (hp : s.port = c :: cs) :
    blockStep s = runCommand c { s with port := cs } := by
  rcases blockStep_cases s with h' | h' | h' | ⟨c', cs', -, h', hb⟩
  · exact absurd (accepts_fault h) h'.1
  · exact absurd h'.1 (accepts_not_pollOwned h)
  · rw [hp] at h'; cases h'.2.1
  · rw [hp] at h'; cases h'; exact hb

theorem due_of_turns {s : State} {t : Turn} {ts : List Turn} (h : s.turns = t :: ts) : s.due = t :: ts := by
  simp [State.due, h]

theorem due_of_cycle {s : State} (h : s.turns = []) : s.due = s.cycle := by
  simp [State.due, h]

/-- Nothing is due exactly where neither list has a turn. -/
theorem due_nil_iff {s : State} : s.due = [] ↔ s.turns = [] ∧ s.cycle = [] := by
  unfold State.due
  split <;> simp_all

theorem step_noTurns {s : State} (h : s.due = []) : step s = blockStep s := by
  simp [step, takeTurn, h]

theorem step_blockTurn {s : State} {ts : List Turn} (h : s.due = .block :: ts) :
    step s = blockStep { s with turns := ts } := by
  simp [step, takeTurn, h]

/-- All that a step can do: the agent whose turn it is moves. -/
theorem step_cases (s : State) :
    (s.due = [] ∧ step s = blockStep s) ∨
    (∃ ts, s.due = .block :: ts ∧ step s = blockStep { s with turns := ts }) ∨
    (∃ b ts, s.due = .arrive b :: ts ∧ step s = .next (arrive b { s with turns := ts })) ∨
    (∃ ts, s.due = .reset :: ts ∧ step s = .next (resetSignal { s with turns := ts })) := by
  unfold step takeTurn
  rcases ht : s.due with _ | ⟨_ | b | _, ts⟩ <;> simp

/-- All that RESET can do (R128, R129). -/
theorem resetSignal_cases (s : State) :
    (s.fault = none ∧ resetSignal s = resetEffect s) ∨ (s.fault ≠ none ∧ resetSignal s = s) := by
  rcases hf : s.fault with _ | f <;> simp [resetSignal, hf]

/-- All that the poll sequencer's step can do (R89). -/
theorem pollStep_next {s t : State} (h : pollStep s = .next t) :
    (s.rxQueue = [] ∧ t = respond .unit (emit .pollDone (setPollActive false s))) ∨
    (∃ b rest r, s.rxQueue = b :: rest ∧ assembleStep b (rxRead b rest s) = .ok (r, t)) := by
  unfold pollStep at h
  split at h
  · refine .inl ⟨‹_›, ?_⟩
    simpa using h.symm
  · rename_i b rest hq
    split at h
    · rename_i r u hu
      simp only [Host.Outcome.next.injEq] at h
      subst h
      exact .inr ⟨b, rest, r, hq, hu⟩
    · simp at h

end Sys2Proof.Machine
end

