-- ==== Sys2Proof/Laws/Exec.lean ====
section
/-! SUPPORT. What each command can do: one inversion lemma per meaning ("if it answers next t, then one of these"), with
the escaped writes already spelled out. -/

namespace Sys2Proof.Machine

/-- A command that did not run: the block is faulted or poll-owned, and nothing changed. -/
abbrev Held (s t : State) : Prop := (s.fault ≠ none ∨ s.PollOwned) ∧ t = s

theorem execFeed_next {b : Byte} {s t : State} (h : execFeed b s = .next t) :
    (s.Driver ∧ ∃ r u, assembleStep b s = .ok (r, u) ∧ t = respond (.optByte r) u) ∨
    (s.InHandlerCtx ∧ t = raise .reentrant s) ∨ Held s t := by
  rcases inDriver_next h with ⟨hd, h⟩ | h | h
  · split at h
    · rename_i r u hu
      exact .inl ⟨hd, r, u, hu, by simpa using h.symm⟩
    · simp at h
  · exact .inr (.inl h)
  · exact .inr (.inr h)

theorem execPollOnce_next {s t : State} (h : execPollOnce s = .next t) :
    (s.Driver ∧ t = setPollActive true s) ∨ (s.InHandlerCtx ∧ t = raise .reentrant s) ∨ Held s t := by
  rcases inDriver_next h with ⟨hd, h⟩ | h | h
  · exact .inl ⟨hd, by simpa using h.symm⟩
  · exact .inr (.inl h)
  · exact .inr (.inr h)

theorem execRegister_next {id : Byte} {h : Handler} {s t : State} (hx : execRegister id h s = .next t) :
    (s.Accepts ∧ id.toNat < s.params.handlerCount ∧ t = respond .unit (tableWrite id h s)) ∨
    (s.Accepts ∧ s.params.handlerCount ≤ id.toNat ∧ t = respond .unit (report .registerOutOfRange s)) ∨
    Held s t := by
  rcases inAnyContext_next hx with ⟨hd, hx⟩ | h
  · by_cases hi : id.toNat < s.params.handlerCount
    · refine .inl ⟨hd, hi, ?_⟩
      simpa [idInTable, hi] using hx.symm
    · refine .inr (.inl ⟨hd, Nat.le_of_not_lt hi, ?_⟩)
      simpa [idInTable, hi] using hx.symm
  · exact .inr (.inr h)

theorem execHasNext_next {s t : State} (h : execHasNext s = .next t) :
    (s.InHandlerCtx ∧ t = respond (.bool (decide (s.cursor < s.payloadEnd))) s) ∨
    (s.Driver ∧ t = raise .notInHandler s) ∨ Held s t := by
  rcases inHandlerOnly_next h with ⟨hd, h⟩ | h | h
  · exact .inl ⟨hd, by simpa using h.symm⟩
  · exact .inr (.inl h)
  · exact .inr (.inr h)

theorem execNext_next {s t : State} (h : execNext s = .next t) :
    (s.InHandlerCtx ∧ s.cursor < s.payloadEnd ∧
      t = respond (.byte (Memory.byteAt .msgBuf s.msgBuf s.cursor)) { s with cursor := s.cursor + 1 }) ∨
    (s.InHandlerCtx ∧ s.payloadEnd ≤ s.cursor ∧
      t = respond (.byte Config.sentinel) (report .cursorOverrun s)) ∨
    (s.Driver ∧ t = raise .notInHandler s) ∨ Held s t := by
  rcases inHandlerOnly_next h with ⟨hd, h⟩ | h | h
  · split at h
    · rename_i hlt
      split at h
      · rename_i v hv
        obtain ⟨-, rfl⟩ := bufRead_ok hv
        exact .inl ⟨hd, hlt, by simpa using h.symm⟩
      · simp at h
    · rename_i hlt
      exact .inr (.inl ⟨hd, Nat.le_of_not_lt hlt, by simpa using h.symm⟩)
  · exact .inr (.inr (.inl h))
  · exact .inr (.inr (.inr h))

theorem execHandlerReturn_next {s t : State} (h : execHandlerReturn s = .next t) :
    (s.InHandlerCtx ∧ t = respond .unit (leaveHandler s)) ∨ (s.Driver ∧ t = raise .notInHandler s) ∨
    Held s t := by
  rcases inHandlerOnly_next h with ⟨hd, h⟩ | h | h
  · exact .inl ⟨hd, by simpa using h.symm⟩
  · exact .inr (.inl h)
  · exact .inr (.inr h)

/-- The end of every send command: `es` written, `tx_open` left at `v`, the response `r` given. -/
def sent (v : Bool) (es : List Byte) (r : Bool) (s : State) : State :=
  { s with txOpen := v, history := s.history ++ es.map Event.tx, responses := s.responses ++ [.bool r] }

theorem sendFails_eq (s : State) : sendFails s = .next (sent s.txOpen [] false s) := by
  simp [sendFails, sent, respond]

theorem execBeginSend_next {id : Byte} {s t : State} (h : execBeginSend id s = .next t) :
    (s.Accepts ∧ s.txOpen = true ∧ t = sent true [] false s) ∨
    (s.Accepts ∧ s.txOpen = false ∧ t = sent true (s.params.startByte :: esc s.params id) true s) ∨
    Held s t := by
  rcases inAnyContext_next h with ⟨hd, h⟩ | h
  · split at h
    · rename_i ho
      rw [sendFails_eq, ho] at h
      exact .inl ⟨hd, ho, by simpa using h.symm⟩
    · rename_i ho
      refine .inr (.inl ⟨hd, by simpa using ho, ?_⟩)
      simp only [Host.Outcome.next.injEq] at h
      rw [← h]
      simp [txEsc_eq, sent, respond, txWrite, emit, setTxOpen]
  · exact .inr (.inr h)

theorem execSendByte_next {b : Byte} {s t : State} (h : execSendByte b s = .next t) :
    (s.Accepts ∧ s.txOpen = true ∧ t = sent true (esc s.params b) true s) ∨
    (s.Accepts ∧ s.txOpen = false ∧ t = sent false [] false s) ∨ Held s t := by
  rcases inAnyContext_next h with ⟨hd, h⟩ | h
  · split at h
    · rename_i ho
      refine .inl ⟨hd, ho, ?_⟩
      simp only [Host.Outcome.next.injEq] at h
      rw [← h, ← ho]
      simp [txEsc_eq, sent, respond]
    · rename_i ho
      have ho' : s.txOpen = false := by simpa using ho
      rw [sendFails_eq, ho'] at h
      exact .inr (.inl ⟨hd, ho', by simpa using h.symm⟩)
  · exact .inr (.inr h)

theorem execEndSend_next {s t : State} (h : execEndSend s = .next t) :
    (s.Accepts ∧ s.txOpen = true ∧ t = sent false [s.params.endByte] true s) ∨
    (s.Accepts ∧ s.txOpen = false ∧ t = sent false [] false s) ∨ Held s t := by
  rcases inAnyContext_next h with ⟨hd, h⟩ | h
  · split at h
    · rename_i ho
      refine .inl ⟨hd, ho, ?_⟩
      simp only [Host.Outcome.next.injEq] at h
      rw [← h]
      simp [sent, respond, txWrite, emit, setTxOpen]
    · rename_i ho
      have ho' : s.txOpen = false := by simpa using ho
      rw [sendFails_eq, ho'] at h
      exact .inr (.inl ⟨hd, ho', by simpa using h.symm⟩)
  · exact .inr (.inr h)

theorem execSend0_next {id : Byte} {s t : State} (h : execSend0 id s = .next t) :
    (s.Accepts ∧ s.txOpen = true ∧ t = sent true [] false s) ∨
    (s.Accepts ∧ s.txOpen = false ∧ t = sent false (encodeFrame s.params id []) true s) ∨ Held s t := by
  rcases inAnyContext_next h with ⟨hd, h⟩ | h
  · split at h
    · rename_i ho
      rw [sendFails_eq, ho] at h
      exact .inl ⟨hd, ho, by simpa using h.symm⟩
    · rename_i ho
      have ho' : s.txOpen = false := by simpa using ho
      refine .inr (.inl ⟨hd, ho', ?_⟩)
      simp only [Host.Outcome.next.injEq] at h
      rw [← h, ← ho']
      simp [txEsc_eq, sent, respond, txWrite, emit, encodeFrame, escAll]
  · exact .inr (.inr h)

theorem execSendBlock_next {id : Byte} {d : List Byte} {off len : Nat} {s t : State}
    (h : execSendBlock id d off len s = .next t) :
    (s.Accepts ∧ s.txOpen = true ∧ t = sent true [] false s) ∨
    (s.Accepts ∧ s.txOpen = false ∧ d.length < off + len ∧ t = raise .sendRange s) ∨
    (s.Accepts ∧ s.txOpen = false ∧ off + len ≤ d.length ∧
      t = sent false (encodeFrame s.params id (rangeBytes d off len)) true s) ∨
    Held s t := by
  rcases inAnyContext_next h with ⟨hd, h⟩ | h
  · split at h
    · rename_i ho
      rw [sendFails_eq, ho] at h
      exact .inl ⟨hd, ho, by simpa using h.symm⟩
    · rename_i ho
      have ho' : s.txOpen = false := by simpa using ho
      split at h
      · rename_i hr
        exact .inr (.inl ⟨hd, ho', by simpa [rangeOutside] using hr, by simpa using h.symm⟩)
      · rename_i hr
        refine .inr (.inr (.inl ⟨hd, ho', by simpa [rangeOutside] using hr, ?_⟩))
        simp only [Host.Outcome.next.injEq] at h
        rw [← h, ← ho']
        simp [txEsc_eq, txEscEach_eq, sent, respond, txWrite, emit, encodeFrame]
  · exact .inr (.inr (.inr h))

end Sys2Proof.Machine
end

