-- ==== Sys2Proof/Laws/PerInstr.lean ====
section
/-! SUPPORT. A statement made per instruction: the encoder never writes a word R61 calls illegal, whatever the operands. -/

namespace Sys2Proof.Laws.EncodeLegal

/-- The word that carries `i` is legal by R61's own words (30_encoding.md). -/
def Statement (i : Instr) : Prop := illegalWord (encode i).word = false

/-- A word whose opcode takes an operand byte is legal with every byte. -/
theorem legal_operand (o b : Byte) (h : illegalWord (packWord o 0x00#8) = false)
    (h' : [0x02, 0x04, 0x05, 0x06, 0x0A].contains o.toNat = false) :
    illegalWord (packWord o b) = false := by
  unfold illegalWord strayOperand unmappedOpc at h ⊢
  rw [wordOpc_packWord, h'] at h ⊢
  exact h

theorem feed (b : Byte) : Statement (.feed b) :=
  legal_operand 0x01#8 b (by decide) (by decide)

theorem pollOnce : Statement .pollOnce := rfl

theorem register (id : Byte) (h : Handler) : Statement (.register id h) :=
  legal_operand 0x03#8 id (by decide) (by decide)

theorem hasNext : Statement .hasNext := rfl

theorem next : Statement .next := rfl

theorem handlerReturn : Statement .handlerReturn := rfl

theorem beginSend (id : Byte) : Statement (.beginSend id) :=
  legal_operand 0x08#8 id (by decide) (by decide)

theorem sendByte (b : Byte) : Statement (.sendByte b) :=
  legal_operand 0x09#8 b (by decide) (by decide)

theorem endSend : Statement .endSend := rfl

theorem send0 (id : Byte) : Statement (.send0 id) :=
  legal_operand 0x0B#8 id (by decide) (by decide)

theorem sendBlock (id : Byte) (d : List Byte) (off len : Nat) : Statement (.sendBlock id d off len) :=
  legal_operand 0x0C#8 id (by decide) (by decide)

end Sys2Proof.Laws.EncodeLegal
end

