-- ==== Sys2Proof/Machine/Assembly.lean ====
section
/-! DEFINITION. The assembler's text (30_encoding.md R63, R64): the text of a command, and the reading of a line, which may
be a command, a pseudo-instruction that expands to commands, or empty. The block itself never sees text. -/

namespace Sys2Proof.Machine

/-- The mnemonic of R60. -/
def mnemonicOf : Instr → String
  | .feed _ => "FEED"
  | .pollOnce => "POLL_ONCE"
  | .register _ _ => "REGISTER"
  | .hasNext => "HAS_NEXT"
  | .next => "NEXT"
  | .handlerReturn => "HANDLER_RETURN"
  | .beginSend _ => "BEGIN_SEND"
  | .sendByte _ => "SEND_BYTE"
  | .endSend => "END_SEND"
  | .send0 _ => "SEND0"
  | .sendBlock _ _ _ _ => "SEND_BLOCK"

/-- A byte operand in hex, such as `0xA0`. -/
def byteText (b : Byte) : String :=
  "0x" ++ String.ofList [(Nat.digitChar (b.toNat / 16)).toUpper, (Nat.digitChar (b.toNat % 16)).toUpper]

/-- A handler name: `h_` and the token's number. -/
def handlerText (h : Handler) : String := "h_" ++ toString h.token

/-- A command in the assembler's text (R63). -/
def asmText : Instr → String
  | .feed b => "FEED " ++ byteText b
  | .pollOnce => "POLL_ONCE"
  | .register id h => "REGISTER " ++ byteText id ++ ", " ++ handlerText h
  | .hasNext => "HAS_NEXT"
  | .next => "NEXT"
  | .handlerReturn => "HANDLER_RETURN"
  | .beginSend id => "BEGIN_SEND " ++ byteText id
  | .sendByte b => "SEND_BYTE " ++ byteText b
  | .endSend => "END_SEND"
  | .send0 id => "SEND0 " ++ byteText id
  | .sendBlock id d off len =>
    "SEND_BLOCK " ++ byteText id ++ ", [" ++ String.intercalate ", " (d.map byteText) ++ "], "
      ++ toString off ++ ", " ++ toString len

/-! ## Reading a line -/

/-- A text without its leading and trailing spaces. -/
def trimText (cs : List Char) : List Char :=
  ((cs.dropWhile (· == ' ')).reverse.dropWhile (· == ' ')).reverse

/-- The pieces between the commas that stand outside brackets; `acc` is the piece being read, reversed. -/
def splitOperands : Bool → List Char → List Char → List (List Char)
  | _, acc, [] => [trimText acc.reverse]
  | inside, acc, c :: cs =>
    if c == ',' && !inside then trimText acc.reverse :: splitOperands inside [] cs
    else splitOperands (if c == '[' then true else if c == ']' then false else inside) (c :: acc) cs

/-- The value of a digit in base `base`. -/
def digitValue (base : Nat) (c : Char) : Option Nat :=
  let n := c.toNat
  let v :=
    if '0'.toNat ≤ n ∧ n ≤ '9'.toNat then n - '0'.toNat
    else if 'A'.toNat ≤ n ∧ n ≤ 'F'.toNat then n - 'A'.toNat + 10
    else if 'a'.toNat ≤ n ∧ n ≤ 'f'.toNat then n - 'a'.toNat + 10
    else base
  if v < base then some v else none

/-- The digits' value, after `acc`. -/
def readDigits (base acc : Nat) : List Char → Option Nat
  | [] => some acc
  | c :: cs => (digitValue base c).bind fun v => readDigits base (acc * base + v) cs

/-- A number in hex (`0xA0`) or decimal. -/
def readNumber : List Char → Option Nat
  | [] => none
  | '0' :: 'x' :: c :: cs => readDigits 16 0 (c :: cs)
  | cs => readDigits 10 0 cs

/-- A byte operand: a number below 256, or, in TC only, a control name. -/
def readByte (p : Params) (cs : List Char) : Option Byte :=
  if p = Config.tc ∧ cs = "START".toList then some p.startByte
  else if p = Config.tc ∧ cs = "END".toList then some p.endByte
  else if p = Config.tc ∧ cs = "ESC".toList then some p.escapeByte
  else (readNumber cs).bind fun n => if n < 256 then some (BitVec.ofNat 8 n) else none

/-- Every text a byte operand. -/
def readBytes (p : Params) : List (List Char) → Option (List Byte)
  | [] => some []
  | t :: ts => (readByte p t).bind fun b => (readBytes p ts).map fun bs => b :: bs

/-- A bracketed byte list. -/
def readByteList (p : Params) : List Char → Option (List Byte)
  | '[' :: cs =>
    match cs.reverse with
    | ']' :: body =>
      if trimText body = [] then some [] else readBytes p (splitOperands false [] body.reverse)
    | _ => none
  | _ => none

/-- The assembler's handler names: the environment names its handlers (R10), the block sees tokens only. -/
abbrev HandlerNames := List (List Char × Handler)

/-- The commands of a mnemonic with operand texts: one command, or a pseudo-instruction's expansion (R63, R64). -/
def readCommand (p : Params) (names : HandlerNames) (mnemonic : List Char) (ops : List (List Char)) :
    Option (List Instr) :=
  if mnemonic = "FEEDS".toList then (readBytes p ops).map feeds
  else
    match ops with
    | [] =>
      if mnemonic = "POLL_ONCE".toList then some [.pollOnce]
      else if mnemonic = "HAS_NEXT".toList then some [.hasNext]
      else if mnemonic = "NEXT".toList then some [.next]
      else if mnemonic = "HANDLER_RETURN".toList then some [.handlerReturn]
      else if mnemonic = "END_SEND".toList then some [.endSend]
      else none
    | [a] =>
      (readByte p a).bind fun b =>
        if mnemonic = "FEED".toList then some [.feed b]
        else if mnemonic = "BEGIN_SEND".toList then some [.beginSend b]
        else if mnemonic = "SEND_BYTE".toList then some [.sendByte b]
        else if mnemonic = "SEND0".toList then some [.send0 b]
        else none
    | [a, b] =>
      (readByte p a).bind fun id =>
        if mnemonic = "REGISTER".toList then (names.lookup b).map fun h => [.register id h]
        else if mnemonic = "FEED_FRAME".toList then (readByteList p b).map fun pl => feedFrame p id pl
        else none
    | [a, b, c, d] =>
      if mnemonic = "SEND_BLOCK".toList then
        (readByte p a).bind fun id => (readByteList p b).bind fun bytes =>
          (readNumber c).bind fun off => (readNumber d).map fun len => [.sendBlock id bytes off len]
      else none
    | _ => none

/-- The commands of one line, without its comment; none where the line is not in the forms of R63 and R64. -/
def readLine (p : Params) (names : HandlerNames) (line : List Char) : Option (List Instr) :=
  let text := trimText (line.takeWhile (· != ';'))
  if text = [] then some []
  else
    let rest := trimText (text.dropWhile (· != ' '))
    readCommand p names (text.takeWhile (· != ' ')) (if rest = [] then [] else splitOperands false [] rest)

end Sys2Proof.Machine
end

