-- ==== Sys2Proof/Tests/Slice0.lean ====
section
/-! SUPPORT. The model's own tests in the configuration TC (00_scope.md R6..R9), with the expected results of
95_test_vectors.md; the smoke test of the well-formedness checks; and a witness for every statement that has hypotheses. -/

namespace Sys2Proof.Tests

open Sys2Proof.Machine

/-! ## States -/

/-- The launch state in TC. -/
def drv : State := State.launch Config.tc

/-- The handler token `h5` of the vectors. -/
def h5 : Handler := { token := 5 }

/-- Cells for bytes at indices 0, 1, 2 and so on. -/
def cellsFrom : Nat → List Byte → Memory
  | _, [] => []
  | n, b :: bs => (n, b) :: cellsFrom (n + 1) bs

/-- Inside a frame with `bs` buffered. -/
def inMsg (bs : List Byte) : State :=
  { drv with rxState := .inMessage, rxIdx := bs.length, rxBuf := cellsFrom 0 bs }

/-- As `inMsg`, after an ESCAPE. -/
def esced (bs : List Byte) : State := { inMsg bs with rxState := .escaping }

/-- With `h5` registered for id 5. -/
def withH5 (s : State) : State := { s with handlerTable := s.handlerTable.set 5 (some h5) }

/-- In `h5`, invoked on the message `bs`, with the cursor at `c`. -/
def inH5 (bs : List Byte) (c : Nat) : State :=
  { withH5 drv with
    msgBuf := cellsFrom 0 bs, payloadStart := 1, payloadEnd := bs.length, cursor := c
    inHandler := true, activeHandler := some h5 }

/-- Poll-owned, with `q` in the receive queue. -/
def polled (q : List Byte) : State := { drv with pollActive := true, rxQueue := q }

/-- With a send transaction open. -/
def sending : State := { drv with txOpen := true }

/-- A transaction whose word is `w`, with idle side lines. -/
def cmd (w : Word) : Command := { word := w, side := Side.idle }

/-- `s` with the commands `cs` waiting on the port. -/
def withPort (cs : List Command) (s : State) : State := { s with port := cs }

/-- What a test reads of an outcome: `g` of the next state. -/
def after {α : Type} (r : Result) (g : State → α) : Option α :=
  match r with
  | .next t => some (g t)
  | .fault _ => none
  | .refused _ => none

/-- Whether the decoder gives exactly `i`. -/
def decodesTo (c : Command) (i : Instr) : Bool :=
  match decode c with
  | .ok j => decide (j = i)
  | .error _ => false

/-- Whether the decoder gives exactly the error `e`. -/
def refusedAs (c : Command) (e : DecodeError) : Bool :=
  match decode c with
  | .ok _ => false
  | .error e' => decide (e' = e)

/-! ## Well-formedness: an ill-formed term for each check, which the check refuses (R6..R9, R61) -/

theorem test_tc_valid : Config.tc.Valid := by decide

theorem test_params_refused :
    ¬ { Config.tc with endByte := 0xA0#8 }.Valid ∧ ¬ { Config.tc with escapeByte := 0xA0#8 }.Valid ∧
    ¬ { Config.tc with escapeByte := 0xA1#8 }.Valid ∧ ¬ { Config.tc with readCap := 0 }.Valid ∧
    ¬ { Config.tc with msgCap := 3 }.Valid ∧ ¬ { Config.tc with handlerCount := 0 }.Valid ∧
    ¬ { Config.tc with handlerCount := 257 }.Valid := by decide

/-- R61 (a), at each edge of its ranges: vectors E1, E2, E3. -/
theorem test_unmapped_refused :
    unmappedOpc 0x0000#16 = true ∧ unmappedOpc 0x0700#16 = true ∧ unmappedOpc 0x0D00#16 = true ∧
    unmappedOpc 0x0DFF#16 = true ∧ unmappedOpc 0xFF00#16 = true ∧ unmappedOpc 0x0CFF#16 = false := by decide

/-- R61 (b): vectors E4, E5, E6, E7. -/
theorem test_stray_refused :
    strayOperand 0x0201#16 = true ∧ strayOperand 0x0401#16 = true ∧ strayOperand 0x0501#16 = true ∧
    strayOperand 0x0601#16 = true ∧ strayOperand 0x0A05#16 = true ∧ strayOperand 0x0A00#16 = false := by decide

/-! ## Decoding: words written out from R60, opcode byte first, then `B` -/

/-- Receive and router families: FEED FF, POLL_ONCE, REGISTER 05, HAS_NEXT, NEXT, HANDLER_RETURN. -/
theorem test_decode_receive_router :
    decodesTo (cmd 0b00000001_11111111#16) (.feed 0xFF#8) = true ∧
    decodesTo (cmd 0b00000010_00000000#16) .pollOnce = true ∧
    decodesTo { word := 0b00000011_00000101#16, side := { Side.idle with h := h5 } } (.register 0x05#8 h5) = true ∧
    decodesTo (cmd 0b00000100_00000000#16) .hasNext = true ∧
    decodesTo (cmd 0b00000101_00000000#16) .next = true ∧
    decodesTo (cmd 0b00000110_00000000#16) .handlerReturn = true := by decide

/-- Send family: BEGIN_SEND A1, SEND_BYTE 07, END_SEND, SEND0 05, SEND_BLOCK A0 (vector E9). -/
theorem test_decode_send :
    decodesTo (cmd 0b00001000_10100001#16) (.beginSend 0xA1#8) = true ∧
    decodesTo (cmd 0b00001001_00000111#16) (.sendByte 0x07#8) = true ∧
    decodesTo (cmd 0b00001010_00000000#16) .endSend = true ∧
    decodesTo (cmd 0b00001011_00000101#16) (.send0 0x05#8) = true ∧
    decodesTo { word := 0b00001100_10100000#16, side := { Side.idle with d := [0x33#8], off := 0, len := 1 } }
      (.sendBlock 0xA0#8 [0x33#8] 0 1) = true := by decide

/-- Vectors E2, E7: the reason has its name. -/
theorem test_decode_refuses :
    refusedAs (cmd 0x0700#16) (.unmappedOpcode 0x07#8) = true ∧
    refusedAs (cmd 0x0501#16) (.strayOperand 0x05#8 0x01#8) = true := by decide

/-- The table's word of END_SEND is decoded; a value that is no 16-bit word is not. -/
theorem test_decodeTableWord :
    decodeTableWord 16 0x0A00 = some .endSend ∧ decodeTableWord 16 0x0700 = none ∧
    decodeTableWord 24 0x10A00 = none := by decide

/-- R63, R64: the text forms, a comment, a control name in TC, a pseudo-instruction, and the text of a command. -/
theorem test_assembler_text :
    readLine Config.tc [] "SEND_BLOCK 0x05, [9, START, 0x07], 1, 2 ; S12".toList =
      some [.sendBlock 0x05#8 [0x09#8, 0xA0#8, 0x07#8] 1 2] ∧
    readLine Config.tc [("h_count".toList, h5)] "REGISTER 5, h_count".toList = some [.register 0x05#8 h5] ∧
    readLine Config.tc [] "FEED_FRAME 0x05, [ESC]".toList =
      some [.feed 0xA0#8, .feed 0x05#8, .feed 0xA2#8, .feed 0xA2#8, .feed 0xA1#8] ∧
    readLine Config.tc [] "FEED 256".toList = none ∧ readLine Config.tc [] "; only a comment".toList = some [] ∧
    asmText (.sendBlock 0x05#8 [0x09#8, 0xA0#8] 1 2) = "SEND_BLOCK 0x05, [0x09, 0xA0], 1, 2" := by decide

/-! ## One step per instruction, at most two each (95_test_vectors.md section 2) -/

/-- L2-A6: exactly READ_CAP decoded bytes finalize; id 7 has no handler. -/
theorem test_feed_finalizes_full_frame :
    after (exec (.feed 0xA1#8) (inMsg [0x07#8, 0x01#8, 0x02#8, 0x03#8]))
      (fun t => (t.msgBuf, t.payloadStart, t.payloadEnd, t.history, t.responses.map Response.word, t.rxState)) =
    some ([(0, 0x07#8), (1, 0x01#8), (2, 0x02#8), (3, 0x03#8)], 1, 4, [.dbg .unhandledType], [0x0107#16], .idle) :=
  rfl

/-- L2-A8: the overflowing byte may be an escaped START; it opens no frame. -/
theorem test_feed_overflow_on_escaped_byte :
    after (exec (.feed 0xA0#8) (esced [0x07#8, 0x01#8, 0x02#8, 0x03#8]))
      (fun t => (t.rxState, t.rxIdx, t.history, t.responses.map Response.word)) =
    some (.idle, 0, [.dbg .bufferOverflow], [0x0000#16]) := by decide

/-- L2-Q3: POLL_ONCE in handler context faults and begins no poll. -/
theorem test_pollOnce_reentrant :
    after (exec .pollOnce (inH5 [0x05#8] 1)) (fun t => (t.fault.map FaultReason.code, t.pollActive)) =
    some (some 2, false) := by decide

/-- L2-Q5: the sequencer takes one byte per step, here the END that finalizes id 6. -/
theorem test_poll_step_reads_one_byte :
    after (step { inMsg [0x06#8] with pollActive := true, rxQueue := [0xA1#8] })
      (fun t => (t.history, t.rxQueue, t.pollActive, t.responses)) =
    some ([.rxRead 0xA1#8, .dbg .unhandledType], [], true, []) := by decide

/-- L2-T1: the last valid id. -/
theorem test_register_last_id :
    after (exec (.register 0x07#8 h5) drv) (fun t => (t.handlerTable[7]?, t.history, t.responses)) =
    some (some (some h5), [], [.unit]) := by decide

/-- L2-T2: id 8 is out of range in TC. -/
theorem test_register_out_of_range :
    after (exec (.register 0x08#8 h5) drv) (fun t => (t.handlerTable, t.history, t.responses)) =
    some (drv.handlerTable, [.dbg .registerOutOfRange], [.unit]) := by decide

/-- L2-A5: an id-only message has nothing to read. -/
theorem test_hasNext_empty :
    after (exec .hasNext (inH5 [0x05#8] 1)) (fun t => t.responses.map Response.word) = some [0x0000#16] := by decide

/-- L2-T8: HAS_NEXT in driver context. -/
theorem test_hasNext_in_driver :
    after (exec .hasNext drv) (fun t => (t.fault.map FaultReason.code, t.responses)) = some (some 3, []) := by decide

/-- L2-T7: a payload byte equal to END is data. -/
theorem test_next_returns_control_byte :
    after (exec .next (inH5 [0x05#8, 0xA1#8] 1)) (fun t => (t.responses.map Response.word, t.cursor)) =
    some ([0x00A1#16], 2) := by decide

/-- L2-T5: the overrun reports and does not advance. -/
theorem test_next_overrun :
    after (exec .next (inH5 [0x05#8] 1)) (fun t => (t.responses.map Response.word, t.cursor, t.history)) =
    some ([0x0000#16], 1, [.dbg .cursorOverrun]) := by decide

/-- L2-T12: unread bytes are allowed. -/
theorem test_handlerReturn_unread :
    after (exec .handlerReturn (inH5 [0x05#8, 0x01#8, 0x02#8, 0x03#8] 1))
      (fun t => (t.inHandler, t.activeHandler, t.cursor, t.history, t.responses)) =
    some (false, none, 1, [.ret], [.unit]) := rfl

/-- L2-S2: an id equal to END is escaped. -/
theorem test_beginSend_escapes_id :
    after (exec (.beginSend 0xA1#8) drv) (fun t => (t.history, t.txOpen, t.responses.map Response.word)) =
    some ([.tx 0xA0#8, .tx 0xA2#8, .tx 0xA1#8], true, [0x0001#16]) := by decide

/-- L2-S3: a second BEGIN_SEND. -/
theorem test_beginSend_twice :
    after (exec (.beginSend 0x05#8) sending) (fun t => (t.history, t.txOpen, t.responses.map Response.word)) =
    some ([], true, [0x0000#16]) := by decide

/-- L2-S4. -/
theorem test_sendByte_escapes :
    after (exec (.sendByte 0xA0#8) sending) (fun t => (t.history, t.responses.map Response.word)) =
    some ([.tx 0xA2#8, .tx 0xA0#8], [0x0001#16]) := by decide

/-- L2-S6. -/
theorem test_sendByte_closed :
    after (exec (.sendByte 0x00#8) drv) (fun t => (t.history, t.responses.map Response.word)) =
    some ([], [0x0000#16]) := by decide

/-- L2-S7. -/
theorem test_endSend :
    after (exec .endSend sending) (fun t => (t.history, t.txOpen, t.responses.map Response.word)) =
    some ([.tx 0xA1#8], false, [0x0001#16]) := by decide

/-- L2-S10. -/
theorem test_send0_escapes_id :
    after (exec (.send0 0xA2#8) drv) (fun t => (t.history, t.txOpen, t.responses.map Response.word)) =
    some ([.tx 0xA0#8, .tx 0xA2#8, .tx 0xA2#8, .tx 0xA1#8], false, [0x0001#16]) := by decide

/-- L2-S12. -/
theorem test_sendBlock_range :
    after (exec (.sendBlock 0x05#8 [0x09#8, 0xA0#8, 0x07#8] 1 2) drv) (fun t => (t.history, t.txOpen)) =
    some ([.tx 0xA0#8, .tx 0x05#8, .tx 0xA2#8, .tx 0xA0#8, .tx 0x07#8, .tx 0xA1#8], false) := by decide

/-- L2-S15: an open transaction is checked before the range. -/
theorem test_sendBlock_open_before_range :
    after (exec (.sendBlock 0x05#8 [0x01#8, 0x02#8] 1 2) sending) (fun t => (t.fault, t.responses.map Response.word)) =
    some (none, [0x0000#16]) := by decide

/-- L2-Z1: RESET clears the table and leaves the queue. -/
theorem test_reset_signal :
    after (step { withH5 (inMsg [0x05#8, 0x01#8]) with
        pollActive := true, txOpen := true, rxQueue := [0x33#8], turns := [.reset] })
      (fun t => (t.rxState, t.rxIdx, t.pollActive, t.txOpen, t.handlerTable, t.rxQueue, t.history)) =
    some (.idle, 0, false, false, List.replicate 8 none, [0x33#8], []) := rfl

/-- L2-C10: the longest frame of three payload bytes. -/
theorem test_encodeFrame_maximum :
    encodeFrame Config.tc 0xA1#8 [0xA0#8, 0xA1#8, 0xA2#8] =
      [0xA0#8, 0xA2#8, 0xA1#8, 0xA2#8, 0xA0#8, 0xA2#8, 0xA1#8, 0xA2#8, 0xA2#8, 0xA1#8] := by decide

/-- L2-C13, C14, C16. -/
theorem test_decodeBody :
    decodeBody Config.tc [0x05#8, 0xA2#8] = none ∧ decodeBody Config.tc [0x05#8, 0xA0#8, 0x33#8] = none ∧
    decodeBody Config.tc [0xA2#8, 0xA2#8, 0xA2#8, 0xA1#8] = some [0xA2#8, 0xA1#8] := by decide

/-! ## Witnesses: concrete states and operands that meet each statement's hypotheses -/

/-- OpcodeMapDecodes: opcodes at the edges of the gaps are not in the list. -/
theorem witness_OpcodeMapDecodes :
    ∀ opc ∈ [0x00#8, 0x07#8, 0x0D#8, 0xFF#8],
      opc ∉ [0x01#8, 0x02#8, 0x03#8, 0x04#8, 0x05#8, 0x06#8, 0x08#8, 0x09#8, 0x0A#8, 0x0B#8, 0x0C#8] := by decide

/-- IllegalWordsFault, in driver and in handler context. -/
theorem witness_IllegalWordsFault :
    (withPort [cmd 0x0700#16] drv).Accepts ∧ (withPort [cmd 0x0700#16] drv).due = [] ∧
    (withPort [cmd 0x0401#16] (inH5 [0x05#8] 1)).Accepts ∧ illegalWord 0x0700#16 = true ∧
    illegalWord 0x0401#16 = true := by decide

theorem witness_EncodeDecodeRoundTrip : decode (cmd 0x01FF#16) = .ok (.feed 0xFF#8) := rfl

/-- DecoderPicksAtMostOneRow: a row that takes a word, and a word no row takes. -/
theorem witness_DecoderPicksAtMostOneRow :
    opcodeMap.any (fun r => r.hit 0x01FF#16) = true ∧
    ∀ r ∈ opcodeMap, (0x0700#16 &&& r.mask) ≠ r.pattern := by decide

theorem witness_ResponsesFollowTheirTypes_completes :
    drv.Accepts ∧ (Instr.feed 0xA0#8 ≠ .pollOnce) ∧ ∃ t, exec (.feed 0xA0#8) drv = .next t ∧ t.fault = none :=
  ⟨by decide, by decide, _, rfl, rfl⟩

theorem witness_ResponsesFollowTheirTypes_poll :
    (drv.Driver ∧ ∃ t, exec .pollOnce drv = .next t) ∧
    (polled []).PollOwned ∧ (polled []).due = [] ∧ (polled []).rxQueue = [] :=
  ⟨⟨by decide, _, rfl⟩, by decide⟩

theorem witness_ResponsesFollowTheirTypes_fault :
    drv.fault = none ∧ ∃ t, exec .hasNext drv = .next t ∧ t.fault ≠ none :=
  ⟨rfl, _, rfl, by decide⟩

theorem witness_StepRunsDecodedInstruction :
    (withPort [cmd 0x0A00#16] sending).Accepts ∧ decode (cmd 0x0A00#16) = .ok .endSend ∧
    (withPort [cmd 0x0A00#16] sending).due = [] ∧
    ({ withPort [cmd 0x0A00#16] sending with turns := [.block] } : State).Accepts :=
  ⟨by decide, rfl, rfl, by decide⟩

theorem witness_FetchWordRunsThatWord :
    State.reset.Accepts ∧ decodeTableWord 16 0x0200 = some .pollOnce :=
  ⟨.inl ⟨rfl, rfl, rfl⟩, by decide⟩

theorem witness_ByteStreamArrives :
    ({ drv with turns := [.arrive 0xA0#8] } : State).due = .arrive 0xA0#8 :: [] := rfl

/-- FaultedBlockIsQuiescent: a step that raises, and a faulted state with each kind of turn. -/
theorem witness_FaultedBlockIsQuiescent :
    ((withPort [cmd 0x0000#16] drv).fault = none ∧
      ∃ t, step (withPort [cmd 0x0000#16] drv) = .next t ∧ t.fault = some .illegal) ∧
    ({ drv with fault := some .illegal, turns := [.reset] } : State).fault ≠ none ∧
    ({ drv with fault := some .illegal, turns := [.arrive 0x00#8] } : State).fault ≠ none :=
  ⟨⟨rfl, _, rfl, rfl⟩, by decide, by decide⟩

theorem witness_ContextTable :
    (inH5 [0x05#8] 1).InHandlerCtx ∧ drv.Driver ∧ (polled [0xA0#8]).PollOwned ∧ (polled [0xA0#8]).due = [] ∧
    drv.Inv ∧ Instr.endSend ∉ [Instr.hasNext, .next, .handlerReturn] ∧
    (inH5 [0x05#8, 0x33#8] 2).Inv ∧ (inH5 [0x05#8, 0x33#8] 2).InHandlerCtx ∧ Instr.next ≠ .pollOnce ∧
    (∀ b, Instr.next ≠ .feed b) := by
  refine ⟨by decide, by decide, by decide, rfl, by decide, by decide, by decide, by decide, by decide, fun _ h => ?_⟩
  cases h

/-- ContextTable and IllegalWordsFault: the illegal word on the port, in either context. -/
theorem witness_ContextTable_illegal :
    (withPort [cmd 0x0D00#16] (inH5 [0x05#8] 1)).Accepts ∧ (withPort [cmd 0x0D00#16] (inH5 [0x05#8] 1)).due = [] ∧
    (withPort [cmd 0x0D00#16] (inH5 [0x05#8] 1)).port = cmd 0x0D00#16 :: [] ∧ illegalWord 0x0D00#16 = true := by decide

theorem witness_FeedRunsTheAssembler :
    drv.Driver ∧ (inH5 [0x05#8] 1).InHandlerCtx ∧ (polled []).PollOwned ∧
    ∃ r t, assembleStep 0xA0#8 drv = .ok (r, t) :=
  ⟨by decide, by decide, by decide, _, _, rfl⟩

theorem witness_IdleIgnoresAllButStart :
    drv.Driver ∧ drv.rxState = .idle ∧ 0xA0#8 = drv.params.startByte ∧ 0xA1#8 ≠ drv.params.startByte := by decide

/-- EscapeMakesNextByteLiteral: the last byte that fits, and the first that does not. -/
theorem witness_EscapeMakesNextByteLiteral :
    (inMsg [0x01#8, 0x02#8, 0x03#8]).Driver ∧ (inMsg [0x01#8, 0x02#8, 0x03#8]).rxState = .inMessage ∧
    (inMsg [0x01#8, 0x02#8, 0x03#8]).rxIdx < Config.tc.readCap ∧ (inMsg [0x01#8, 0x02#8, 0x03#8, 0x04#8]).Driver ∧
    (inMsg [0x01#8, 0x02#8, 0x03#8, 0x04#8]).rxIdx = Config.tc.readCap := by decide

theorem witness_StartResynchronizes :
    (inMsg []).params.Valid ∧ (inMsg []).Driver ∧ (inMsg []).rxState = .inMessage := by decide

/-- AppendChecksCapacity: the last byte that fits, the first that does not, and an escaped control byte. -/
theorem witness_AppendChecksCapacity :
    (inMsg [0x01#8, 0x02#8, 0x03#8]).Driver ∧ (inMsg [0x01#8, 0x02#8, 0x03#8]).rxIdx < Config.tc.readCap ∧
    (inMsg [0x01#8, 0x02#8, 0x03#8]).rxState = .inMessage ∧
    (0x33#8 ≠ Config.tc.startByte ∧ 0x33#8 ≠ Config.tc.endByte ∧ 0x33#8 ≠ Config.tc.escapeByte) ∧
    (esced [0x01#8, 0x02#8, 0x03#8, 0x04#8]).Driver ∧ (esced [0x01#8, 0x02#8, 0x03#8, 0x04#8]).rxState = .escaping ∧
    (esced [0x01#8, 0x02#8, 0x03#8, 0x04#8]).rxIdx = Config.tc.readCap := by decide

theorem witness_EmptyFrameIsDropped :
    (inMsg []).params.Valid ∧ (inMsg []).Driver ∧ (inMsg []).rxState = .inMessage ∧ (inMsg []).rxIdx = 0 ∧
    (esced []).Driver ∧ (esced []).rxState = .escaping ∧ (esced []).rxIdx = 0 := by decide

/-- EndFinalizesAndDispatches with a registered id, with an id at HANDLER_COUNT, and IdOnlyFrameHasEmptyPayload. -/
theorem witness_EndFinalizesAndDispatches :
    (withH5 (inMsg [0x05#8])).params.Valid ∧ (withH5 (inMsg [0x05#8])).Driver ∧
    (withH5 (inMsg [0x05#8])).rxState = .inMessage ∧ (withH5 (inMsg [0x05#8])).rxIdx = 1 ∧
    (withH5 (inMsg [0x05#8])).rxIdx ≤ Config.tc.readCap ∧
    0x05#8 = Memory.byteAt .rxBuf (withH5 (inMsg [0x05#8])).rxBuf 0 := by decide

theorem witness_EndFinalizesAndDispatches_unhandled :
    (inMsg [0x08#8, 0x01#8, 0x02#8, 0x03#8]).Driver ∧
    (inMsg [0x08#8, 0x01#8, 0x02#8, 0x03#8]).rxIdx = Config.tc.readCap ∧
    0x08#8 = Memory.byteAt .rxBuf (inMsg [0x08#8, 0x01#8, 0x02#8, 0x03#8]).rxBuf 0 := by decide

/-- EndFinalizesAndDispatches in a state no run reaches: a byte counted as buffered that nothing has written. -/
theorem witness_EndFinalizesAndDispatches_unwritten :
    ({ inMsg [] with rxIdx := 1 } : State).Driver ∧
    Config.rxBufInit 0 = Memory.byteAt .rxBuf ({ inMsg [] with rxIdx := 1 } : State).rxBuf 0 :=
  ⟨by decide, rfl⟩

/-- IdOnlyFrameHasEmptyPayload: the END of an id-only frame enters the handler. -/
theorem witness_IdOnlyFrameHasEmptyPayload :
    ∃ t, exec (.feed Config.tc.endByte) (withH5 (inMsg [0x05#8])) = .next t ∧ t.inHandler = true :=
  ⟨_, rfl, by decide⟩

/-- FeedReportsAtMostOnce: a byte that finalizes, with and without a handler, and one that does not. -/
theorem witness_FeedReportsAtMostOnce :
    (∃ t, exec (.feed 0xA1#8) (withH5 (inMsg [0x05#8])) = .next t ∧ t.responses = [] ++ [.optByte (some 0x05#8)]) ∧
    (∃ t, exec (.feed 0xA1#8) (inMsg [0x08#8]) = .next t ∧ t.responses = [] ++ [.optByte (some 0x08#8)]) ∧
    ∃ t, exec (.feed 0xA0#8) (inMsg [0x11#8]) = .next t ∧ t.responses = [] ++ [.optByte none] :=
  ⟨⟨_, rfl, by decide⟩, ⟨_, rfl, by decide⟩, ⟨_, rfl, by decide⟩⟩

theorem witness_PollOnceBeginsPoll :
    drv.Driver ∧ drv.rxQueue = [] ∧ drv.due = [] ∧ (inH5 [0x05#8] 1).InHandlerCtx ∧ 0x01#8 ≠ 0x00#8 := by decide

theorem witness_PollStepReadsOneByteOrEnds :
    (polled [0xA0#8]).PollOwned ∧ (polled [0xA0#8]).due = [] ∧ (polled [0xA0#8]).rxQueue = 0xA0#8 :: [] ∧
    (∃ r t, assembleStep 0xA0#8
      { polled [0xA0#8] with rxQueue := [], history := (polled [0xA0#8]).history ++ [.rxRead 0xA0#8] } = .ok (r, t)) ∧
    (∃ v, exec (.feed 0xA0#8)
      { polled [0xA0#8] with
        pollActive := false, rxQueue := [], history := (polled [0xA0#8]).history ++ [.rxRead 0xA0#8] } = .next v) ∧
    (polled []).PollOwned ∧ (polled []).rxQueue = [] ∧ ¬ drv.PollOwned ∧ drv.port = [] :=
  ⟨by decide, rfl, rfl, ⟨_, _, rfl⟩, ⟨_, rfl⟩, by decide, rfl, by decide, rfl⟩

/-- Poll-owned, with the byte 0x33 arriving before every step of the block, for ever. -/
def polledForEver : State := { polled [] with cycle := [.arrive 0x33#8, .block] }

/-- Poll-owned, with two bytes to come, one before each step of the block. -/
def polledForTwo : State := { polled [] with turns := [.arrive 0xA0#8, .block, .arrive 0xA1#8, .block] }

/-- PollLastsWhileBytesArrive: a frame waiting and nothing to come. -/
theorem witness_PollLastsWhileBytesArrive_ends :
    (polled [0xA0#8, 0x06#8, 0xA1#8]).Inv ∧ (polled [0xA0#8, 0x06#8, 0xA1#8]).PollOwned ∧
    (polled [0xA0#8, 0x06#8, 0xA1#8]).due = [] ∧
    (∀ e ∈ (polled [0xA0#8, 0x06#8, 0xA1#8]).handlerTable, e = none) := by decide

/-- PollLastsWhileBytesArrive: one byte repeated for ever, and a stream of two. -/
theorem witness_PollLastsWhileBytesArrive :
    (polledForEver.Inv ∧ polledForEver.PollOwned ∧ (∀ e ∈ polledForEver.handlerTable, e = none) ∧
      polledForEver.turns = [] ∧ polledForEver.cycle = [.arrive 0x33#8, .block]) ∧
    polledForTwo.Inv ∧ polledForTwo.PollOwned ∧ (∀ e ∈ polledForTwo.handlerTable, e = none) ∧
    polledForTwo.turns = [0xA0#8, 0xA1#8].flatMap (fun b => [.arrive b, .block]) :=
  ⟨⟨by decide, by decide, by decide, rfl, rfl⟩, by decide, by decide, by decide, rfl⟩

/-- R90: the repeated turns begin again, and the poll is still active at the third byte. -/
theorem test_poll_lasts :
    after (stepN 5 polledForEver) (fun t => (t.pollActive, t.rxQueue)) = some (true, [0x33#8]) := by decide

/-- RegisterWritesTheTable and RegistrationTakesEffectForLaterDispatch: an id below and one at HANDLER_COUNT. -/
theorem witness_RegisterWritesTheTable :
    drv.Accepts ∧ (0x07#8 : Byte).toNat < drv.params.handlerCount ∧ ¬ (0x08#8 : Byte).toNat < drv.params.handlerCount ∧
    (inH5 [0x05#8] 1).Accepts := by decide

theorem witness_RegistrationTakesEffectForLaterDispatch :
    (inH5 [0x05#8] 1).Accepts ∧ (inH5 [0x05#8] 1).handlerTable.length = (inH5 [0x05#8] 1).params.handlerCount ∧
    (0x06#8 : Byte).toNat < (inH5 [0x05#8] 1).params.handlerCount ∧ (0x05#8 : Byte) ≠ 0x06#8 ∧
    (inMsg [0x05#8]).params.handlerCount = 8 ∧ (withH5 (inMsg [0x05#8])).handlerTable.getD (0x05#8 : Byte).toNat none = some h5 := by
  decide

/-- RegistrationTakesEffectForLaterDispatch: a step that sets an entry, and one that clears it. -/
theorem witness_RegistrationTakesEffectForLaterDispatch_step :
    (∃ t, step (withPort [{ word := 0x0305#16, side := { Side.idle with h := h5 } }] drv) = .next t ∧
      t.handlerTable.getD (0x05#8 : Byte).toNat none ≠ drv.handlerTable.getD (0x05#8 : Byte).toNat none) ∧
    ∃ t, step { withH5 drv with turns := [.reset] } = .next t ∧
      t.handlerTable.getD (0x05#8 : Byte).toNat none ≠ (withH5 drv).handlerTable.getD (0x05#8 : Byte).toNat none :=
  ⟨⟨_, rfl, by decide⟩, ⟨_, rfl, by decide⟩⟩

/-- HasNextComparesCursor, and HandlerReturnLeavesContext with a poll active. -/
theorem witness_HasNextComparesCursor : (inH5 [0x05#8] 1).InHandlerCtx ∧ drv.Driver := by decide

theorem witness_HandlerReturnLeavesContext :
    ({ inH5 [0x05#8] 1 with pollActive := true } : State).InHandlerCtx ∧
    ∃ t, exec .handlerReturn { inH5 [0x05#8] 1 with pollActive := true } = .next t :=
  ⟨by decide, _, rfl⟩

/-- NextReadsOrOverruns: the last byte of the payload, and the cursor at its end. -/
theorem witness_NextReadsOrOverruns :
    (inH5 [0x05#8, 0x33#8] 1).InHandlerCtx ∧ (inH5 [0x05#8, 0x33#8] 1).cursor < (inH5 [0x05#8, 0x33#8] 1).payloadEnd ∧
    (inH5 [0x05#8, 0x33#8] 1).payloadEnd ≤ Config.tc.msgCap ∧
    Memory.byteAt .msgBuf (inH5 [0x05#8, 0x33#8] 1).msgBuf 1 = 0x33#8 ∧
    (inH5 [0x05#8, 0x33#8] 2).InHandlerCtx ∧ (inH5 [0x05#8, 0x33#8] 2).payloadEnd ≤ (inH5 [0x05#8, 0x33#8] 2).cursor ∧
    drv.Driver := by decide

/-- The five send statements and SendBlockEqualsSequence: both values of tx_open, in both contexts, and ranges that end at
the end of the data (with length 0 as well) and one past it. -/
theorem witness_send_statements :
    drv.Accepts ∧ drv.txOpen = false ∧ sending.Accepts ∧ sending.txOpen = true ∧ (inH5 [0x05#8] 1).Accepts ∧
    (inH5 [0x05#8] 1).txOpen = false ∧ 2 + 0 ≤ [0x01#8, 0x02#8].length ∧ 1 + 1 ≤ [0x01#8, 0x02#8].length ∧
    [0x01#8, 0x02#8].length < 1 + 2 := by decide

/-- DecodeBodyEquations: a configuration, and a byte that is no control value. -/
theorem witness_DecodeBodyEquations : Config.tc.Valid ∧ isCtrl Config.tc 0x33#8 = false := by decide

theorem witness_EncodeFrameInjective :
    encodeFrame Config.tc 0xA2#8 [0xA0#8] = encodeFrame Config.tc 0xA2#8 [0xA0#8] := rfl

/-- FrameRoundTrip and FrameAlwaysEndsIdle: from Idle and from inside a frame, with a message of exactly READ_CAP bytes. -/
theorem witness_FrameRoundTrip :
    drv.params.Valid ∧ drv.Driver ∧ (drv.rxState = .idle ∧ ([] : List Event) = []) ∧ (inMsg [0x11#8]).Driver ∧
    ((inMsg [0x11#8]).rxState = .inMessage ∧ [Event.dbg .unexpectedResync] = [.dbg .unexpectedResync]) ∧
    1 + [0xA0#8, 0xA1#8, 0xA2#8].length ≤ drv.params.readCap ∧ drv.rxState ≠ .escaping := by decide

/-- OversizedFrameFirstOverflow: one data byte too many, an escaped one. -/
theorem witness_OversizedFrameFirstOverflow :
    drv.params.Valid ∧ drv.Driver ∧ drv.rxState = .idle ∧
    drv.params.readCap < 1 + [0x01#8, 0x02#8, 0x03#8, 0xA0#8].length ∧
    [0x07#8, 0x01#8, 0x02#8, 0x03#8, 0xA0#8][drv.params.readCap]? = some 0xA0#8 := by decide

/-- ResetStateIsLaunch: the first command, REGISTER FF with its side operand. -/
theorem witness_ResetStateIsLaunch :
    decode { word := 0x03FF#16, side := { Side.idle with h := h5 } } = .ok (.register 0xFF#8 h5) := rfl

theorem witness_ResetSignalEffect :
    ({ inH5 [0x05#8] 1 with turns := [.reset] } : State).due = .reset :: [] ∧
    ({ inH5 [0x05#8] 1 with turns := [.reset] } : State).fault = none ∧
    ({ drv with fault := some .illegal, turns := [.reset] } : State).fault ≠ none := by decide

/-- InvariantHoldsAtReset, SeedsCoverEveryLegalChoice: the smallest and a largest legal choice. -/
theorem witness_InvariantHoldsAtReset :
    { Config.tc with readCap := 1, msgCap := 1, handlerCount := 1 }.Valid ∧
    { Config.tc with startByte := 0xFF#8, endByte := 0x00#8, escapeByte := 0x01#8, handlerCount := 256 }.Valid := by decide

/-- StepKeepsInvariant and StepNeverStops, in each context and inside a frame. -/
theorem witness_StepKeepsInvariant :
    (withPort [cmd 0x01A1#16] (inMsg [0x05#8])).Inv ∧ (inH5 [0x05#8, 0x33#8] 2).Inv ∧ (polled [0xA0#8]).Inv ∧
    (esced [0x01#8, 0x02#8, 0x03#8, 0x04#8]).Inv ∧ ∃ t, step (withPort [cmd 0x01A1#16] (inMsg [0x05#8])) = .next t :=
  ⟨by decide, by decide, by decide, by decide, _, rfl⟩

/-- HistoryOnlyGrows and HandlerContextEntryAndExit: a step into a handler, one out of it, and a RESET in it. -/
theorem witness_HandlerContextEntryAndExit :
    ((inMsg [0x05#8]).inHandler = false ∧
      ∃ t, step (withPort [cmd 0x01A1#16] (withH5 (inMsg [0x05#8]))) = .next t ∧ t.inHandler = true) ∧
    ((inH5 [0x05#8] 1).inHandler = true ∧
      ∃ t, step (withPort [cmd 0x0600#16] (inH5 [0x05#8] 1)) = .next t ∧ t.inHandler = false) ∧
    ∃ t, step { inH5 [0x05#8] 1 with turns := [.reset] } = .next t ∧ t.inHandler = false :=
  ⟨⟨rfl, _, rfl, by decide⟩, ⟨rfl, _, rfl, rfl⟩, _, rfl, rfl⟩

theorem witness_PayloadStableWhileHandlerRuns :
    (inH5 [0x05#8, 0x33#8] 1).inHandler = true ∧
    ∃ t, step (withPort [cmd 0x0500#16] (inH5 [0x05#8, 0x33#8] 1)) = .next t ∧ t.inHandler = true :=
  ⟨rfl, _, rfl, by decide⟩

/-- FrameOfSendCommands, and the send half of SendAndReceiveAreIndependent. -/
theorem witness_FrameOfSendCommands :
    isSendCommand .endSend = true ∧ (∃ t, exec .endSend sending = .next t ∧ t.txOpen ≠ sending.txOpen) ∧
    isSendCommand (.sendBlock 0x05#8 [] 0 1) = true ∧
    ∃ t, exec (.sendBlock 0x05#8 [] 0 1) drv = .next t ∧ t.fault ≠ drv.fault :=
  ⟨rfl, ⟨_, rfl, by decide⟩, rfl, _, rfl, by decide⟩

/-- FrameOfRouterCommands, each of its commands, and the receive half of SendAndReceiveAreIndependent. -/
theorem witness_FrameOfRouterCommands :
    (∃ t, exec (.register 0x05#8 h5) drv = .next t) ∧ (∃ t, exec .hasNext (inH5 [0x05#8] 1) = .next t) ∧
    (∃ t, exec .next (inH5 [0x05#8, 0x33#8] 1) = .next t) ∧ (∃ t, exec .handlerReturn (inH5 [0x05#8] 1) = .next t) ∧
    isSendCommand .hasNext = false :=
  ⟨⟨_, rfl⟩, ⟨_, rfl⟩, ⟨_, rfl⟩, ⟨_, rfl⟩, rfl⟩

/-- FrameOfReceiveCommands: a stored byte, a control byte in InMessage, an END that finalizes, a poll. -/
theorem witness_FrameOfReceiveCommands :
    (∃ t, exec (.feed 0x33#8) (inMsg [0x05#8]) = .next t ∧
      ¬ ((inMsg [0x05#8]).rxState = .inMessage ∧ (0x33#8 : Byte) = Config.tc.endByte)) ∧
    (∃ t, exec (.feed 0xA2#8) (inMsg [0x05#8]) = .next t ∧
      (inMsg [0x05#8]).rxState = .inMessage ∧ isCtrl Config.tc 0xA2#8 = true) ∧
    (∃ t, exec (.feed 0xA1#8) (inMsg [0x05#8]) = .next t) ∧ (∃ t, exec .pollOnce drv = .next t) ∧
    (polled [0xA0#8]).PollOwned ∧ (polled [0xA0#8]).due = [] ∧ (polled [0xA0#8]).rxQueue = 0xA0#8 :: [] ∧
    ∃ t, step (polled [0xA0#8]) = .next t :=
  ⟨⟨_, rfl, by decide⟩, ⟨_, rfl, by decide⟩, ⟨_, rfl⟩, ⟨_, rfl⟩, by decide, rfl, rfl, _, rfl⟩

/-- EndedBlockHolds: an end with nothing left, and one with a byte left as the claim states. -/
theorem witness_EndedBlockHolds :
    drv.Ended ∧ drv.due = [] ∧ ({ drv with rxQueue := [0x33#8] } : State).EndedWith [0x33#8] := by decide

/-- ConditionsCarryTheirCodes: one state for each condition, at the boundary of its range. -/
theorem witness_ConditionsCarryTheirCodes :
    (withPort [cmd 0x0D00#16] drv).Accepts ∧ (withPort [cmd 0x0D00#16] drv).due = [] ∧ illegalWord 0x0D00#16 = true ∧
    (inH5 [0x05#8] 1).InHandlerCtx ∧ drv.Driver ∧ drv.Accepts ∧ drv.txOpen = false ∧ ([] : List Byte).length < 0 + 1 ∧
    (esced [0x01#8, 0x02#8, 0x03#8, 0x04#8]).Driver ∧
    (esced [0x01#8, 0x02#8, 0x03#8, 0x04#8]).rxIdx = Config.tc.readCap ∧
    Config.tc.Valid ∧ (inMsg []).Driver ∧ (inMsg [0x08#8]).Driver ∧
    0x08#8 = Memory.byteAt .rxBuf (inMsg [0x08#8]).rxBuf 0 ∧ Config.tc.handlerCount ≤ (0x08#8 : Byte).toNat ∧
    (inH5 [0x05#8] 1).payloadEnd ≤ (inH5 [0x05#8] 1).cursor := by decide

end Sys2Proof.Tests
end

section
/-! PROOF. The escaping rule and its stateful form (`spec/00_scope.md`). -/

namespace Sys2Proof.Machine

/-- Settles O36: the three control values are those of R15, `esc` is R66's case split as it is defined, and `TxEsc` appends
the bytes of `esc` to the history and keeps every other field (R67). -/
theorem escapingRule : Obligations.EscapingRule := by
  unfold Obligations.EscapingRule
  refine ⟨?controlBytes, ?escapedBytes, ?escapedWrite⟩
  case controlBytes => exact fun _ _ => isCtrl_iff
  case escapedBytes => exact fun _ _ => rfl
  case escapedWrite => exact fun s b => txEsc_eq b s

end Sys2Proof.Machine
end

section
/-! PROOF. The handler table (`spec/20_memory.md` R51): what writes an entry, what reads it, and what else a step can do to
it. -/

namespace Sys2Proof.Machine

/-- The entry of an id, as a claim reads it off the state. -/
abbrev entryOf (s : State) (id : Byte) : Option Handler := s.handlerTable.getD id.toNat none

theorem entryOf_tableWrite_same {s : State} {id : Byte} (h : Handler) (hl : id.toNat < s.handlerTable.length) :
    entryOf (tableWrite id h s) id = some h := by
  simp [List.getD_eq_getElem?_getD, hl]

theorem entryOf_tableWrite_other {s : State} {id id' : Byte} (h : Handler) (hne : id' ≠ id) :
    entryOf (tableWrite id h s) id' = entryOf s id' := by
  have hn : id.toNat ≠ id'.toNat := fun e => hne (BitVec.eq_of_toNat_eq e.symm)
  simp [List.getD_eq_getElem?_getD, List.getElem?_set_ne hn]

/-- An entry that a write changed is the one written, and lies inside the table. -/
theorem of_entryOf_tableWrite_ne {s : State} {id id' : Byte} {h : Handler}
    (hc : entryOf (tableWrite id h s) id' ≠ entryOf s id') :
    id' = id ∧ entryOf (tableWrite id h s) id' = some h := by
  have hid : id' = id := by_contra fun hne => hc (entryOf_tableWrite_other h hne)
  subst hid
  have hl : id'.toNat < s.handlerTable.length := by
    by_contra hge
    have hset : (tableWrite id' h s).handlerTable = s.handlerTable := List.set_eq_of_length_le (Nat.le_of_not_lt hge)
    exact hc (by rw [entryOf, hset])
  exact ⟨rfl, entryOf_tableWrite_same h hl⟩

/-- The exact effect of a REGISTER accepted below HANDLER_COUNT (R91). -/
theorem exec_register_inTable {s : State} {id : Byte} (h : Handler) (ha : s.Accepts)
    (hid : id.toNat < s.params.handlerCount) :
    exec (.register id h) s = .next (respond .unit (tableWrite id h s)) := by
  have hin : idInTable s.params id = true := decide_eq_true hid
  simp [exec, execRegister, inAnyContext_accepts _ ha, hin]

/-- The assembler reads the table and never writes it, DISPATCH included. -/
theorem assembleStep_handlerTable {b : Byte} {s t : State} {r : Option Byte} (h : assembleStep b s = .ok (r, t)) :
    t.handlerTable = s.handlerTable := by
  rcases assembleStep_cases h with ⟨-, -, -, rfl⟩ | ⟨-, -, -, rfl⟩ | ⟨-, -, -, rfl⟩ | ⟨-, -, -, -, rfl⟩ |
    ⟨-, -, -, m, id, -, -, -, ⟨g, -, rfl⟩ | ⟨-, rfl⟩⟩ | ⟨-, -, -, rfl⟩ | ⟨-, -, -, rfl⟩ | ⟨-, -, -, rfl⟩ <;> rfl

theorem pollStep_handlerTable {s t : State} (h : pollStep s = .next t) : t.handlerTable = s.handlerTable := by
  rcases pollStep_next h with ⟨-, rfl⟩ | ⟨b, rest, r, -, hu⟩
  · rfl
  · simpa using assembleStep_handlerTable hu

/-- Of the commands only REGISTER writes the table, and it writes its own id's entry. -/
theorem exec_handlerTable {i : Instr} {s t : State} (hx : exec i s = .next t) :
    t.handlerTable = s.handlerTable ∨
    ∃ id h, i = .register id h ∧ t.handlerTable = (tableWrite id h s).handlerTable := by
  cases i with
  | register id h =>
    rcases execRegister_next hx with ⟨-, -, rfl⟩ | ⟨-, -, rfl⟩ | ⟨-, rfl⟩
    · exact .inr ⟨id, h, rfl, rfl⟩
    · exact .inl rfl
    · exact .inl rfl
  | feed b =>
    rcases execFeed_next hx with ⟨-, r, u, hu, rfl⟩ | ⟨-, rfl⟩ | ⟨-, rfl⟩
    · exact .inl (by simpa using assembleStep_handlerTable hu)
    · exact .inl rfl
    · exact .inl rfl
  | pollOnce => rcases execPollOnce_next hx with ⟨-, rfl⟩ | ⟨-, rfl⟩ | ⟨-, rfl⟩ <;> exact .inl rfl
  | hasNext => rcases execHasNext_next hx with ⟨-, rfl⟩ | ⟨-, rfl⟩ | ⟨-, rfl⟩ <;> exact .inl rfl
  | next =>
    rcases execNext_next hx with ⟨-, -, rfl⟩ | ⟨-, -, rfl⟩ | ⟨-, rfl⟩ | ⟨-, rfl⟩ <;> exact .inl rfl
  | handlerReturn => rcases execHandlerReturn_next hx with ⟨-, rfl⟩ | ⟨-, rfl⟩ | ⟨-, rfl⟩ <;> exact .inl rfl
  | beginSend id => rcases execBeginSend_next hx with ⟨-, -, rfl⟩ | ⟨-, -, rfl⟩ | ⟨-, rfl⟩ <;> exact .inl rfl
  | sendByte b => rcases execSendByte_next hx with ⟨-, -, rfl⟩ | ⟨-, -, rfl⟩ | ⟨-, rfl⟩ <;> exact .inl rfl
  | endSend => rcases execEndSend_next hx with ⟨-, -, rfl⟩ | ⟨-, -, rfl⟩ | ⟨-, rfl⟩ <;> exact .inl rfl
  | send0 id => rcases execSend0_next hx with ⟨-, -, rfl⟩ | ⟨-, -, rfl⟩ | ⟨-, rfl⟩ <;> exact .inl rfl
  | sendBlock id d off len =>
    rcases execSendBlock_next hx with ⟨-, -, rfl⟩ | ⟨-, -, -, rfl⟩ | ⟨-, -, -, rfl⟩ | ⟨-, rfl⟩ <;> exact .inl rfl

/-- The block's step writes the table only by running a REGISTER it accepts from the port. -/
theorem blockStep_handlerTable {s t : State} (h : blockStep s = .next t) :
    t.handlerTable = s.handlerTable ∨
    ∃ c cs id g, s.Accepts ∧ s.port = c :: cs ∧ decode c = .ok (.register id g) ∧
      t.handlerTable = (tableWrite id g s).handlerTable := by
  rcases blockStep_cases s with ⟨-, hb⟩ | ⟨-, hb⟩ | ⟨-, -, hb⟩ | ⟨c, cs, ha, hp, hb⟩ <;> rw [hb] at h
  · cases h; exact .inl rfl
  · exact .inl (pollStep_handlerTable h)
  · cases h; exact .inl rfl
  · rcases runCommand_cases c { s with port := cs } with ⟨i, hd, hr⟩ | ⟨e, -, hr⟩ <;> rw [hr] at h
    · rcases exec_handlerTable h with ht | ⟨id, g, rfl, ht⟩
      · exact .inl ht
      · exact .inr ⟨c, cs, id, g, ha, hp, hd, ht⟩
    · cases h; exact .inl rfl

/-- An entry that the block's step changed was set by a REGISTER of its id. -/
theorem blockStep_entry_changed {s t : State} {id : Byte} (h : blockStep s = .next t)
    (hc : entryOf t id ≠ entryOf s id) :
    ∃ c cs g, s.Accepts ∧ s.port = c :: cs ∧ decode c = .ok (.register id g) ∧ entryOf t id = some g := by
  rcases blockStep_handlerTable h with ht | ⟨c, cs, id₀, g, ha, hp, hd, ht⟩
  · exact absurd (by rw [entryOf, ht]) hc
  · have he : entryOf t id = entryOf (tableWrite id₀ g s) id := by rw [entryOf, ht]
    rw [he] at hc ⊢
    obtain ⟨rfl, hg⟩ := of_entryOf_tableWrite_ne hc
    exact ⟨c, cs, g, ha, hp, hd, hg⟩

/-- An entry that a step changed was changed at a RESET turn, or by a REGISTER of its id on the block's turn. -/
theorem step_entry_changed {s t : State} {id : Byte} (h : step s = .next t) (hc : entryOf t id ≠ entryOf s id) :
    (∃ ts, s.due = .reset :: ts) ∨
    ∃ c cs g, s.Accepts ∧ (s.due = [] ∨ ∃ ts, s.due = .block :: ts) ∧ s.port = c :: cs ∧
      decode c = .ok (.register id g) ∧ entryOf t id = some g := by
  rcases step_cases s with ⟨hdue, hs⟩ | ⟨ts, hdue, hs⟩ | ⟨b, ts, -, hs⟩ | ⟨ts, hdue, -⟩
  · obtain ⟨c, cs, g, ha, hp, hd, hg⟩ := blockStep_entry_changed (hs.symm.trans h) hc
    exact .inr ⟨c, cs, g, ha, .inl hdue, hp, hd, hg⟩
  · obtain ⟨c, cs, g, ha, hp, hd, hg⟩ := blockStep_entry_changed (hs.symm.trans h) hc
    exact .inr ⟨c, cs, g, ha, .inr ⟨ts, hdue⟩, hp, hd, hg⟩
  · rw [hs] at h
    cases h
    exact absurd rfl hc
  · exact .inl ⟨ts, hdue⟩

/-- Settles O26: REGISTER sets its id's entry and no other and keeps the active handler, DISPATCH enters the handler its
id's entry holds, and the step's inversion lemmas leave only a REGISTER of that id or a RESET to change an entry. -/
theorem registrationTakesEffectForLaterDispatch : Obligations.RegistrationTakesEffectForLaterDispatch := by
  unfold Obligations.RegistrationTakesEffectForLaterDispatch
  refine ⟨?registerSetsEntry, ?dispatchEntersEntry, ?onlyRegisterOrReset⟩
  case registerSetsEntry =>
    intro s id h ha hl hid
    exact ⟨_, exec_register_inTable h ha hid, rfl, entryOf_tableWrite_same h (hl ▸ hid),
      fun _ hne => entryOf_tableWrite_other h hne⟩
  case dispatchEntersEntry =>
    intro u id h hid he
    have hentry : tableEntry u id = some h := by rw [tableEntry_eq, if_pos hid, he]
    exact dispatch_found hentry
  case onlyRegisterOrReset => exact fun _ _ _ h hc => step_entry_changed h hc

end Sys2Proof.Machine
end

section
/-! PROOF. The decoder against the opcode map (`spec/30_encoding.md` R60, R61, R65): what it reads from a word, which words it
refuses and what running one of those does, and that no two rows take one word. -/

namespace Sys2Proof.Machine

/-! ### The word's own legality, by its fields (R61) -/

theorem unmappedOpc_packWord (o b : Byte) : unmappedOpc (packWord o b) = true ↔ o ∉ mappedOpcodes := by
  simp only [unmappedOpc, wordOpc_packWord, mappedOpcodes_eq, Bool.or_eq_true, beq_iff_eq, decide_eq_true_eq,
    List.mem_cons, List.not_mem_nil, or_false, not_or, ← BitVec.toNat_inj, BitVec.toNat_ofNat, Nat.reducePow,
    Nat.reduceMod]
  omega

/-- The opcodes that take no byte: POLL_ONCE, HAS_NEXT, NEXT, HANDLER_RETURN, END_SEND (R61 (b)). -/
def bareOpcodes : List Byte := [0x02#8, 0x04#8, 0x05#8, 0x06#8, 0x0A#8]

/-- The opcodes of the map that take any byte (R60). -/
def operandOpcodes : List Byte := [0x01#8, 0x03#8, 0x08#8, 0x09#8, 0x0B#8, 0x0C#8]

theorem strayOperand_packWord (o b : Byte) :
    strayOperand (packWord o b) = true ↔ o ∈ bareOpcodes ∧ b ≠ 0x00#8 := by
  simp [strayOperand, bareOpcodes, ← BitVec.toNat_inj]

/-! ### What the decoder answers, by the word's fields (R60, R61) -/

theorem decode_unmapped {o : Byte} (b : Byte) (sd : Side) (ho : o ∉ mappedOpcodes) :
    decode { word := packWord o b, side := sd } = .error (.unmappedOpcode o) := by
  have herr : decodeErrorOf (packWord o b) = .unmappedOpcode o := by rw [decodeErrorOf_packWord, if_neg ho]
  simp only [mappedOpcodes_eq, List.mem_cons, List.not_mem_nil, or_false, not_or] at ho
  simp [decode_packWord, ho, herr]

theorem decode_stray {o b : Byte} (sd : Side) (ho : o ∈ bareOpcodes) (hb : b ≠ 0x00#8) :
    decode { word := packWord o b, side := sd } = .error (.strayOperand o b) := by
  have hmap : o ∈ mappedOpcodes := (by decide : bareOpcodes ⊆ mappedOpcodes) ho
  have herr : decodeErrorOf (packWord o b) = .strayOperand o b := by rw [decodeErrorOf_packWord, if_pos hmap]
  simp only [bareOpcodes, List.mem_cons, List.not_mem_nil, or_false] at ho
  rcases ho with rfl | rfl | rfl | rfl | rfl <;> simp [decode_packWord, hb, herr]

theorem decode_mapped {o b : Byte} (sd : Side) (ho : o ∈ mappedOpcodes) (hb : o ∈ bareOpcodes → b = 0x00#8) :
    ∃ i, decode { word := packWord o b, side := sd } = .ok i := by
  rcases (by decide : ∀ o ∈ mappedOpcodes, o ∈ bareOpcodes ∨ o ∈ operandOpcodes) o ho with hbare | hoperand
  · obtain rfl := hb hbare
    simp only [bareOpcodes, List.mem_cons, List.not_mem_nil, or_false] at hbare
    rcases hbare with rfl | rfl | rfl | rfl | rfl <;> exact ⟨_, decode_packWord _ _ sd⟩
  · simp only [operandOpcodes, List.mem_cons, List.not_mem_nil, or_false] at hoperand
    rcases hoperand with rfl | rfl | rfl | rfl | rfl | rfl <;> exact ⟨_, decode_packWord _ b sd⟩

/-! ### The same for a whole command -/

theorem decode_of_unmappedOpc {c : Command} (h : unmappedOpc c.word = true) :
    decode c = .error (.unmappedOpcode (wordOpc c.word)) := by
  rw [← packWord_fields c.word, unmappedOpc_packWord] at h
  simpa only [packWord_fields] using decode_unmapped (wordB c.word) c.side h

theorem decode_of_strayOperand {c : Command} (h : strayOperand c.word = true) :
    decode c = .error (.strayOperand (wordOpc c.word) (wordB c.word)) := by
  rw [← packWord_fields c.word, strayOperand_packWord] at h
  simpa only [packWord_fields] using decode_stray c.side h.1 h.2

theorem decode_of_legal {c : Command} (h : illegalWord c.word = false) : ∃ i, decode c = .ok i := by
  obtain ⟨hu, hs⟩ := Bool.or_eq_false_iff.1 h
  rw [← Bool.not_eq_true, ← packWord_fields c.word] at hu hs
  rw [unmappedOpc_packWord, not_not] at hu
  rw [strayOperand_packWord, not_and, not_not] at hs
  simpa only [packWord_fields] using decode_mapped c.side hu hs

/-- The decoder refuses exactly the words R61 calls illegal. -/
theorem illegalWord_iff_decode_error (c : Command) : illegalWord c.word = true ↔ ∃ e, decode c = .error e := by
  constructor
  · intro h
    rcases Bool.or_eq_true_iff.1 h with hu | hs
    · exact ⟨_, decode_of_unmappedOpc hu⟩
    · exact ⟨_, decode_of_strayOperand hs⟩
  · rintro ⟨e, he⟩
    by_contra hl
    obtain ⟨i, hi⟩ := decode_of_legal (Bool.not_eq_true _ ▸ hl)
    rw [hi] at he
    cases he

/-- A refused transaction raises F_ILLEGAL and does nothing else (R61). -/
theorem runCommand_refused {c : Command} {e : DecodeError} (s : State) (h : decode c = .error e) :
    runCommand c s = .next (raise .illegal s) := by
  simp [runCommand, h]

/-! ### The rows of the map (R65) -/

/-- Every row's mask keeps the opcode byte, so the row a word hits has the word's opcode. -/
theorem wordOpc_pattern_of_hit {r : Row} {w : Word} (hr : r ∈ opcodeMap) (h : r.hit w = true) :
    wordOpc r.pattern = wordOpc w := by
  have hmask : wordOpc r.mask = BitVec.allOnes 8 :=
    (by decide : ∀ r ∈ opcodeMap, wordOpc r.mask = BitVec.allOnes 8) r hr
  have hand : wordOpc (w &&& r.mask) = wordOpc w &&& wordOpc r.mask := BitVec.extractLsb'_and
  rw [Row.hit, beq_iff_eq] at h
  rw [← h, hand, hmask, BitVec.and_allOnes]

/-- Two rows that take one word are one row: the opcodes of the map are all different. -/
theorem row_unique {r r' : Row} {w : Word} (hr : r ∈ opcodeMap) (hr' : r' ∈ opcodeMap) (h : r.hit w = true)
    (h' : r'.hit w = true) : r = r' := by
  have hnodup : mappedOpcodes.Nodup := by decide
  exact List.inj_on_of_nodup_map hnodup hr hr'
    ((wordOpc_pattern_of_hit hr h).trans (wordOpc_pattern_of_hit hr' h').symm)

theorem decode_of_hit {c : Command} {r : Row} (hr : r ∈ opcodeMap) (h : r.hit c.word = true) :
    decode c = .ok (r.build (wordB c.word) c.side) := by
  unfold decode
  cases hf : opcodeMap.find? (fun r => r.hit c.word) with
  | none => exact absurd h (List.find?_eq_none.1 hf r hr)
  | some r' =>
    have hhit := List.find?_some hf
    rw [row_unique (List.mem_of_find?_eq_some hf) hr hhit h]

theorem decode_of_no_hit {c : Command} (h : ∀ r ∈ opcodeMap, ¬ r.hit c.word = true) :
    decode c = .error (decodeErrorOf c.word) := by
  simp only [decode, List.find?_eq_none.2 h]

/-! ### The obligations -/

/-- Settles O2: once the opcode is fixed, the decoder's reading of a word by its fields (`decode_packWord`) computes to its
row's instruction, and an opcode outside the list is refused. -/
theorem opcodeMapDecodes : Obligations.OpcodeMapDecodes := by
  unfold Obligations.OpcodeMapDecodes
  intro b sd
  refine ⟨decode_packWord 0x01#8 b sd, decode_packWord 0x02#8 0x00#8 sd, decode_packWord 0x03#8 b sd,
    decode_packWord 0x04#8 0x00#8 sd, decode_packWord 0x05#8 0x00#8 sd, decode_packWord 0x06#8 0x00#8 sd,
    decode_packWord 0x08#8 b sd, decode_packWord 0x09#8 b sd, decode_packWord 0x0A#8 0x00#8 sd,
    decode_packWord 0x0B#8 b sd, decode_packWord 0x0C#8 b sd, fun opc ho => ?unlisted⟩
  case unlisted => exact decode_unmapped b sd (mappedOpcodes_eq ▸ ho)

/-- Settles O3: the decoder's refusals are compared with R61 field by field, and a refused head of the port is run as
F_ILLEGAL on the state without it. -/
theorem illegalWordsFault : Obligations.IllegalWordsFault := by
  unfold Obligations.IllegalWordsFault
  refine ⟨illegalWord_iff_decode_error, fun _ => decode_of_unmappedOpc, fun _ => decode_of_strayOperand, ?raisesIllegal⟩
  case raisesIllegal =>
    intro s c cs ha hdue hport hill
    obtain ⟨e, he⟩ := (illegalWord_iff_decode_error c).1 hill
    rw [step_noTurns hdue, blockStep_command ha hport, runCommand_refused _ he]
    rfl

/-- Settles O6: rows that share a word share its opcode and so are equal, the row found is then the row given, and a word no
row takes is refused, which by R61's own words makes it illegal. -/
theorem decoderPicksAtMostOneRow : Obligations.DecoderPicksAtMostOneRow := by
  unfold Obligations.DecoderPicksAtMostOneRow
  refine ⟨?atMostOne, ?givesItsResult, ?noRow⟩
  case atMostOne =>
    intro w r r' hr hr' h h'
    obtain rfl := row_unique hr hr' h h'
    exact ⟨rfl, rfl, rfl⟩
  case givesItsResult => exact fun c r hr h => decode_of_hit hr (beq_iff_eq.2 h)
  case noRow =>
    intro c h
    have herr := decode_of_no_hit (c := c) fun r hr hhit => h r hr (beq_iff_eq.1 hhit)
    exact ⟨(illegalWord_iff_decode_error c).2 ⟨_, herr⟩, _, herr⟩

end Sys2Proof.Machine
end

section
/-! PROOF. The responses (`spec/30_encoding.md` R62): what each command that runs adds to them, and their 16-bit words. -/

namespace Sys2Proof.Machine

/-- What a command that answers next can do to the fault mark and the responses (R62, R117, R121). -/
inductive ResponseCase (i : Instr) (s t : State) : Prop
  /-- It completes with one response of its type. -/
  | completes (r : Response) (hfit : responseFits i r) (hfault : t.fault = s.fault)
      (hresp : t.responses = s.responses ++ [r])
  /-- It raises a fault and does nothing else. -/
  | faults (f : FaultReason) (ht : t = raise f s)
  /-- POLL_ONCE begins the poll and owes its response. -/
  | beginsPoll (hi : i = .pollOnce) (ht : t = setPollActive true s)
  /-- It does not run. -/
  | holds (hheld : Held s t)

/-- An assembler step raises no fault and gives no response, DISPATCH included. -/
theorem assembleStep_fault_responses {b : Byte} {s t : State} {r : Option Byte} (h : assembleStep b s = .ok (r, t)) :
    t.fault = s.fault ∧ t.responses = s.responses := by
  rcases assembleStep_cases h with ⟨-, -, -, rfl⟩ | ⟨-, -, -, rfl⟩ | ⟨-, -, -, rfl⟩ | ⟨-, -, -, -, rfl⟩ |
    ⟨-, -, -, m, id, -, -, -, ⟨g, -, rfl⟩ | ⟨-, rfl⟩⟩ | ⟨-, -, -, rfl⟩ | ⟨-, -, -, rfl⟩ | ⟨-, -, -, rfl⟩ <;>
    exact ⟨rfl, rfl⟩

/-- Every command is in one of these cases, read off its inversion lemma. -/
theorem exec_responseCase {i : Instr} {s t : State} (h : exec i s = .next t) : ResponseCase i s t := by
  cases i with
  | feed b =>
    rcases execFeed_next h with ⟨-, r, u, hu, rfl⟩ | ⟨-, rfl⟩ | hheld
    · obtain ⟨hf, hr⟩ := assembleStep_fault_responses hu
      exact .completes _ ⟨r, rfl⟩ hf (by rw [respond_responses, hr])
    · exact .faults _ rfl
    · exact .holds hheld
  | pollOnce =>
    rcases execPollOnce_next h with ⟨-, rfl⟩ | ⟨-, rfl⟩ | hheld
    · exact .beginsPoll rfl rfl
    · exact .faults _ rfl
    · exact .holds hheld
  | register id g =>
    rcases execRegister_next h with ⟨-, -, rfl⟩ | ⟨-, -, rfl⟩ | hheld
    · exact .completes _ rfl rfl rfl
    · exact .completes _ rfl rfl rfl
    · exact .holds hheld
  | hasNext =>
    rcases execHasNext_next h with ⟨-, rfl⟩ | ⟨-, rfl⟩ | hheld
    · exact .completes _ ⟨_, rfl⟩ rfl rfl
    · exact .faults _ rfl
    · exact .holds hheld
  | next =>
    rcases execNext_next h with ⟨-, -, rfl⟩ | ⟨-, -, rfl⟩ | ⟨-, rfl⟩ | hheld
    · exact .completes _ ⟨_, rfl⟩ rfl rfl
    · exact .completes _ ⟨_, rfl⟩ rfl rfl
    · exact .faults _ rfl
    · exact .holds hheld
  | handlerReturn =>
    rcases execHandlerReturn_next h with ⟨-, rfl⟩ | ⟨-, rfl⟩ | hheld
    · exact .completes _ rfl rfl rfl
    · exact .faults _ rfl
    · exact .holds hheld
  | beginSend id =>
    rcases execBeginSend_next h with ⟨-, -, rfl⟩ | ⟨-, -, rfl⟩ | hheld
    · exact .completes _ ⟨_, rfl⟩ rfl rfl
    · exact .completes _ ⟨_, rfl⟩ rfl rfl
    · exact .holds hheld
  | sendByte b =>
    rcases execSendByte_next h with ⟨-, -, rfl⟩ | ⟨-, -, rfl⟩ | hheld
    · exact .completes _ ⟨_, rfl⟩ rfl rfl
    · exact .completes _ ⟨_, rfl⟩ rfl rfl
    · exact .holds hheld
  | endSend =>
    rcases execEndSend_next h with ⟨-, -, rfl⟩ | ⟨-, -, rfl⟩ | hheld
    · exact .completes _ ⟨_, rfl⟩ rfl rfl
    · exact .completes _ ⟨_, rfl⟩ rfl rfl
    · exact .holds hheld
  | send0 id =>
    rcases execSend0_next h with ⟨-, -, rfl⟩ | ⟨-, -, rfl⟩ | hheld
    · exact .completes _ ⟨_, rfl⟩ rfl rfl
    · exact .completes _ ⟨_, rfl⟩ rfl rfl
    · exact .holds hheld
  | sendBlock id d off len =>
    rcases execSendBlock_next h with ⟨-, -, rfl⟩ | ⟨-, -, -, rfl⟩ | ⟨-, -, -, rfl⟩ | hheld
    · exact .completes _ ⟨_, rfl⟩ rfl rfl
    · exact .faults _ rfl
    · exact .completes _ ⟨_, rfl⟩ rfl rfl
    · exact .holds hheld

/-- POLL_ONCE in driver context only begins the poll: its response is still owed (R88). -/
theorem exec_pollOnce_driver {s : State} (h : s.Driver) : exec .pollOnce s = .next (setPollActive true s) := by
  simp [exec, execPollOnce, inDriver_driver _ h]

/-- The sequencer's step on an empty queue ends the poll and gives POLL_ONCE's response (R89). -/
theorem pollStep_empty {s : State} (h : s.rxQueue = []) :
    pollStep s = .next (respond .unit (emit .pollDone (setPollActive false s))) := by
  simp [pollStep, h]

theorem not_held_of_accepts {s t : State} (ha : s.Accepts) : ¬ Held s t := by
  rintro ⟨hf | hp, -⟩
  · exact hf (accepts_fault ha)
  · exact accepts_not_pollOwned ha hp

theorem packWord_zero (b : Byte) : packWord 0x00#8 b = b.setWidth 16 := by
  rw [BitVec.setWidth_eq_append (by decide : 8 ≤ 16)]; rfl

theorem packWord_one (b : Byte) : packWord 0x01#8 b = 0x0100#16 ||| b.setWidth 16 := by
  have hb : b.toNat % 65536 = b.toNat := Nat.mod_eq_of_lt (by omega)
  have happ : (packWord 0x01#8 b).toNat = 0x01 <<< 8 ||| b.toNat := BitVec.toNat_append 0x01#8 b
  apply BitVec.eq_of_toNat_eq
  simp [happ, hb]

/-- Settles O7: a command that answers next is in one of the four response cases, and each clause's hypotheses leave the one it
is about; the poll's response is read off the sequencer's last step. -/
theorem responsesFollowTheirTypes : Obligations.ResponsesFollowTheirTypes := by
  unfold Obligations.ResponsesFollowTheirTypes
  refine ⟨?oneResponse, ?pollOwesIts, ?pollEnds, ?faultGivesNone, ?encodings⟩
  case oneResponse =>
    intro i s t ha hx hf hi
    cases exec_responseCase hx with
    | completes r hfit _ hresp => exact ⟨r, hfit, hresp⟩
    | faults f ht => subst ht; cases hf
    | beginsPoll hpoll _ => exact absurd hpoll hi
    | holds hheld => exact absurd hheld (not_held_of_accepts ha)
  case pollOwesIts =>
    intro s t hd hx
    rw [exec_pollOnce_driver hd] at hx
    cases hx
    rfl
  case pollEnds =>
    intro s hp hdue hq
    exact ⟨_, by rw [step_noTurns hdue, blockStep_pollOwned hp, pollStep_empty hq], rfl, rfl⟩
  case faultGivesNone =>
    intro i s t hs hx hf
    cases exec_responseCase hx with
    | completes _ _ hfault _ => exact absurd (hfault.trans hs) hf
    | faults f ht => rw [ht, raise_responses]
    | beginsPoll _ ht => exact absurd (ht ▸ hs) hf
    | holds hheld => exact absurd (hheld.2 ▸ hs) hf
  case encodings => exact fun b => ⟨rfl, packWord_one b, rfl, rfl, rfl, packWord_zero b⟩

end Sys2Proof.Machine
end

section
/-! PROOF. The layout of a wire frame (`spec/40_frame_codec.md` R68). -/

namespace Sys2Proof.Machine

/-- The escaped payload is the concatenation of its bytes' escapes, in order. -/
theorem escAll_eq_flatten (p : Params) (ds : List Byte) : escAll p ds = (ds.map (esc p)).flatten := by
  induction ds with
  | nil => rfl
  | cons d ds ih => rw [escAll, ih, List.map_cons, List.flatten_cons]

/-- Settles O37: the frame's parts stand in `encodeFrame` as R53 lists them, and the payload's loop is a concatenation. -/
theorem wireFrameLayout : Obligations.WireFrameLayout := by
  unfold Obligations.WireFrameLayout
  intro p id payload
  rw [encodeFrame, escAll_eq_flatten]

end Sys2Proof.Machine
end

section
/-! PROOF. The un-escaping of a frame's body (`spec/40_frame_codec.md` R69). -/

namespace Sys2Proof.Machine

theorem isCtrl_escapeByte (p : Params) : isCtrl p p.escapeByte = true := isCtrl_iff.2 (.inr (.inr rfl))

theorem decodeBody_escape (p : Params) (d : Byte) (rest : List Byte) :
    decodeBody p (p.escapeByte :: d :: rest) = (decodeBody p rest).map (fun ds => d :: ds) := by
  simp [decodeBody]

theorem decodeBody_lone_escape (p : Params) : decodeBody p [p.escapeByte] = none := by
  simp [decodeBody, isCtrl_escapeByte]

theorem decodeBody_plain {p : Params} {d : Byte} (hd : isCtrl p d = false) (rest : List Byte) :
    decodeBody p (d :: rest) = (decodeBody p rest).map (fun ds => d :: ds) := by
  obtain ⟨-, -, hesc⟩ := isCtrl_false_iff.1 hd
  cases rest with
  | nil => simp [decodeBody, hd]
  | cons e rest => simp [decodeBody, hd, hesc]

/-- A START or END that no ESCAPE precedes has no decoding. -/
theorem decodeBody_bare_ctrl {p : Params} {d : Byte} (hd : isCtrl p d = true) (hesc : d ≠ p.escapeByte)
    (rest : List Byte) : decodeBody p (d :: rest) = none := by
  cases rest with
  | nil => simp [decodeBody, hd]
  | cons e rest => simp [decodeBody, hd, hesc]

/-- Settles O38: one lemma per branch of `decodeBody`. A valid configuration's START and END differ from its ESCAPE, so they
take the bare control byte's branch. -/
theorem decodeBodyEquations : Obligations.DecodeBodyEquations := by
  unfold Obligations.DecodeBodyEquations
  rintro p d rest ⟨-, hstart, hend, -⟩
  exact ⟨rfl, decodeBody_escape p d rest, decodeBody_lone_escape p, fun hd => decodeBody_plain hd rest,
    decodeBody_bare_ctrl (isCtrl_iff.2 (.inl rfl)) hstart rest,
    decodeBody_bare_ctrl (isCtrl_iff.2 (.inr (.inl rfl))) hend rest⟩

end Sys2Proof.Machine
end

section
/-! PROOF. The assembler step, forward (`spec/41_receive_assembler.md` R75..R85): what each byte does in each state, and FEED
as that step with its answer. -/

namespace Sys2Proof.Machine

/-! ### One byte in each state -/

theorem assembleStep_idle_start {s : State} (hr : s.rxState = .idle) :
    assembleStep s.params.startByte s = .ok (none, { s with rxIdx := 0, rxState := .inMessage }) := by
  simp [assembleStep, hr]

theorem assembleStep_idle_other {s : State} {b : Byte} (hr : s.rxState = .idle) (hb : b ≠ s.params.startByte) :
    assembleStep b s = .ok (none, s) := by
  simp [assembleStep, hr, hb]

theorem assembleStep_inMessage {s : State} (b : Byte) (hr : s.rxState = .inMessage) :
    assembleStep b s = inMessageStep b s := by
  simp [assembleStep, hr]

theorem inMessageStep_escape (s : State) :
    inMessageStep s.params.escapeByte s = .ok (none, { s with rxState := .escaping }) := by
  simp [inMessageStep]

theorem inMessageStep_start {s : State} (hv : s.params.Valid) :
    inMessageStep s.params.startByte s =
      .ok (none, report .unexpectedResync { s with rxIdx := 0, rxState := .inMessage }) := by
  obtain ⟨hse, hsx, -⟩ := hv
  simp [inMessageStep, hse, hsx]

theorem inMessageStep_end_empty {s : State} (hv : s.params.Valid) (h0 : s.rxIdx = 0) :
    inMessageStep s.params.endByte s = .ok (none, { s with rxState := .idle }) := by
  obtain ⟨-, -, hex, -⟩ := hv
  simp [inMessageStep, hex, h0]

theorem inMessageStep_end {s : State} (hv : s.params.Valid) (h1 : 1 ≤ s.rxIdx) :
    inMessageStep s.params.endByte s = finalize s := by
  obtain ⟨-, -, hex, -⟩ := hv
  simp [inMessageStep, hex, Nat.ne_of_gt h1]

/-- The byte is data where the assembler stands: any byte after an ESCAPE, else one that is no control byte (R80, R82). -/
abbrev TakenAsData (b : Byte) (s : State) : Prop :=
  s.rxState = .escaping ∨ s.rxState = .inMessage ∧ isCtrl s.params b = false

theorem assembleStep_data {s : State} {b : Byte} (h : TakenAsData b s) : assembleStep b s = appendStep b s := by
  rcases h with hr | ⟨hr, hb⟩
  · simp [assembleStep, hr]
  · obtain ⟨hst, hen, hes⟩ := isCtrl_false_iff.1 hb
    simp [assembleStep, hr, inMessageStep, hst, hen, hes]

/-- `s` with `b` appended to the receive buffer (R81). -/
def buffered (b : Byte) (s : State) : State :=
  { s with rxBuf := Memory.write s.rxBuf s.rxIdx b, rxIdx := s.rxIdx + 1, rxState := .inMessage }

/-- `s` with the partial message dropped and the overflow reported (R81, R109). -/
def overflowed (s : State) : State := { report .bufferOverflow s with rxState := .idle, rxIdx := 0 }

theorem appendStep_room {s : State} (b : Byte) (h : s.rxIdx < s.params.readCap) :
    appendStep b s = .ok (none, buffered b s) := by
  simp only [appendStep, appendByte_room h, buffered]

theorem appendStep_full {s : State} (b : Byte) (h : s.rxIdx = s.params.readCap) :
    appendStep b s = .ok (none, overflowed s) := by
  simp only [appendStep, appendByte_full h, overflowed]

/-! ### FEED -/

/-- FEED in driver context answers with what the assembler step returns (R74). -/
theorem exec_feed_driver {s t : State} {b : Byte} {r : Option Byte} (hd : s.Driver)
    (h : assembleStep b s = .ok (r, t)) : exec (.feed b) s = .next (respond (.optByte r) t) := by
  simp [exec, execFeed, inDriver_driver _ hd, h]

theorem exec_feed_handler {s : State} (b : Byte) (h : s.InHandlerCtx) :
    exec (.feed b) s = .next (raise .reentrant s) := by
  rw [exec, execFeed, inDriver_handler _ h]

theorem exec_feed_pollOwned {s : State} (b : Byte) (h : s.PollOwned) : exec (.feed b) s = .next s := by
  rw [exec, execFeed, inDriver_pollOwned _ h]

theorem exec_feed_inMessage {s t : State} {b : Byte} {r : Option Byte} (hd : s.Driver) (hr : s.rxState = .inMessage)
    (h : inMessageStep b s = .ok (r, t)) : exec (.feed b) s = .next (respond (.optByte r) t) :=
  exec_feed_driver hd (by rw [assembleStep_inMessage b hr, h])

theorem exec_feed_data_room {s : State} {b : Byte} (hd : s.Driver) (h : TakenAsData b s)
    (hroom : s.rxIdx < s.params.readCap) :
    exec (.feed b) s = .next (respond (.optByte none) (buffered b s)) :=
  exec_feed_driver hd (by rw [assembleStep_data h, appendStep_room b hroom])

theorem exec_feed_data_full {s : State} {b : Byte} (hd : s.Driver) (h : TakenAsData b s)
    (hfull : s.rxIdx = s.params.readCap) :
    exec (.feed b) s = .next (respond (.optByte none) (overflowed s)) :=
  exec_feed_driver hd (by rw [assembleStep_data h, appendStep_full b hfull])

/-- END with a frame buffered finalizes it and dispatches on its first byte (R79, R83). -/
theorem exec_feed_end {s : State} {id : Byte} (hv : s.params.Valid) (hd : s.Driver) (hr : s.rxState = .inMessage)
    (h1 : 1 ≤ s.rxIdx) (hn : s.rxIdx ≤ s.params.readCap) (hid : id = Memory.byteAt .rxBuf s.rxBuf 0) :
    ∃ m, copyPrefix s.params s.rxBuf s.msgBuf s.rxIdx = .ok m ∧
      exec (.feed s.params.endByte) s = .next (respond (.optByte (some id)) (dispatch id (finalized m s))) := by
  subst hid
  have ⟨_, _, _, _, hmsg, _⟩ := hv
  obtain ⟨m, hm, hf⟩ := finalize_completes hmsg h1 hn
  exact ⟨m, hm, exec_feed_inMessage hd hr (by rw [inMessageStep_end hv h1, hf])⟩

/-- `s` after FEED of an ESCAPE in InMessage (R77). -/
def afterEscape (s : State) : State := respond (.optByte none) { s with rxState := .escaping }

theorem exec_feed_escape {s : State} (hd : s.Driver) (hr : s.rxState = .inMessage) :
    exec (.feed s.params.escapeByte) s = .next (afterEscape s) :=
  exec_feed_inMessage hd hr (inMessageStep_escape s)

/-- After an ESCAPE the next byte is run from Escaping, with the same bytes buffered (R77, R82). -/
theorem execAll_escape_feed {s t : State} {b : Byte} (hd : s.Driver) (hr : s.rxState = .inMessage)
    (h : exec (.feed b) (afterEscape s) = .next t) :
    execAll [.feed s.params.escapeByte, .feed b] s = .next t := by
  simp only [execAll, exec_feed_escape hd hr, h]

/-- HAS_NEXT in handler context compares the cursor with the payload's end (R95). -/
theorem exec_hasNext_handler {s : State} (h : s.InHandlerCtx) :
    exec .hasNext s = .next (respond (.bool (decide (s.cursor < s.payloadEnd))) s) := by
  rw [exec, execHasNext, inHandlerOnly_handler _ h]

/-! ### The obligations -/

/-- Settles O13: the decoder's row for FEED, and the driver-only gate in each of its three contexts. -/
theorem feedRunsTheAssembler : Obligations.FeedRunsTheAssembler := by
  unfold Obligations.FeedRunsTheAssembler
  exact ⟨fun b sd => decode_packWord 0x01#8 b sd, fun _ _ _ _ hd h => exec_feed_driver hd h,
    fun _ b h => exec_feed_handler b h, fun _ b h => exec_feed_pollOwned b h⟩

/-- Settles O14: the two bytes Idle tells apart. -/
theorem idleIgnoresAllButStart : Obligations.IdleIgnoresAllButStart := by
  unfold Obligations.IdleIgnoresAllButStart
  intro s b hd hr
  refine ⟨?start, ?other⟩
  case start =>
    rintro rfl
    exact exec_feed_driver hd (assembleStep_idle_start hr)
  case other => exact fun hb => exec_feed_driver hd (assembleStep_idle_other hr hb)

/-- Settles O15: the ESCAPE leaves the assembler in Escaping with the index unchanged, and there every byte is data. -/
theorem escapeMakesNextByteLiteral : Obligations.EscapeMakesNextByteLiteral := by
  unfold Obligations.EscapeMakesNextByteLiteral
  refine ⟨?escape, ?room, ?full⟩
  case escape => exact fun s hd hr => exec_feed_escape hd hr
  case room =>
    intro s b hd hr hroom
    have hb := exec_feed_data_room (s := afterEscape s) (b := b) hd (.inl rfl) hroom
    rw [execAll_escape_feed hd hr hb]
    simp [afterEscape, buffered, respond]
  case full =>
    intro s b hd hr hfull
    have hb := exec_feed_data_full (s := afterEscape s) (b := b) hd (.inl rfl) hfull
    rw [execAll_escape_feed hd hr hb]
    simp [afterEscape, overflowed, report, emit, respond]

/-- Settles O16: a valid configuration's START is neither its ESCAPE nor its END, so it takes the resync branch. -/
theorem startResynchronizes : Obligations.StartResynchronizes := by
  unfold Obligations.StartResynchronizes
  exact fun _ hv hd hr => exec_feed_inMessage hd hr (inMessageStep_start hv)

/-- Settles O17: both kinds of data byte run Append, which has one result with room and one without. -/
theorem appendChecksCapacity : Obligations.AppendChecksCapacity := by
  unfold Obligations.AppendChecksCapacity
  intro s b hd h
  have hdata : TakenAsData b s := h.imp_right fun ⟨hr, hb⟩ => ⟨hr, isCtrl_false_iff.2 hb⟩
  exact ⟨exec_feed_data_room hd hdata, exec_feed_data_full hd hdata⟩

/-- Settles O18: with nothing buffered END only returns to Idle, and after an ESCAPE it is the first data byte, for which
every valid READ_CAP has room. -/
theorem emptyFrameIsDropped : Obligations.EmptyFrameIsDropped := by
  unfold Obligations.EmptyFrameIsDropped
  refine ⟨?empty, ?escapedEnd⟩
  case empty => exact fun _ hv hd hr h0 => exec_feed_inMessage hd hr (inMessageStep_end_empty hv h0)
  case escapedEnd =>
    rintro s ⟨-, -, -, hcap, -⟩ hd hr h0
    refine ⟨_, exec_feed_data_room hd (.inl hr) (h0 ▸ hcap), rfl, ?_, ?_, rfl⟩
    · simp [buffered, h0]
    · simpa [buffered, h0] using memory_read_write_same s.rxBuf 0 s.params.endByte

/-- Settles O19: Finalize completes on a frame that fits, its copy is fixed index by index by `copyPrefix_ok`, and DISPATCH
reads the table, which Finalize leaves as it was. -/
theorem endFinalizesAndDispatches : Obligations.EndFinalizesAndDispatches := by
  unfold Obligations.EndFinalizesAndDispatches
  intro s id hv hd hr h1 hn hid
  obtain ⟨m, hm, hx⟩ := exec_feed_end hv hd hr h1 hn hid
  obtain ⟨hcopied, hkept, -⟩ := copyPrefix_ok hm
  have hentry : tableEntry (finalized m s) id = tableEntry s id := rfl
  refine ⟨m, hcopied, hkept, hx.trans ?_⟩
  rw [← tableEntry_eq, ← hentry]
  rcases dispatch_cases id (finalized m s) with ⟨h, he, ht⟩ | ⟨he, ht⟩
  · rw [ht, he]; rfl
  · rw [ht, he]; rfl

/-- Settles O20: END with one byte buffered sets both bounds to 1, so a handler entered there finds the cursor at the
payload's end; where none is entered the block stays in driver context and the last clause has nothing to say. -/
theorem idOnlyFrameHasEmptyPayload : Obligations.IdOnlyFrameHasEmptyPayload := by
  unfold Obligations.IdOnlyFrameHasEmptyPayload
  intro s id hv hd hr h1 hid
  have ⟨_, _, _, hcap, _⟩ := hv
  obtain ⟨m, -, hx⟩ := exec_feed_end hv hd hr h1.ge (h1 ▸ hcap) hid
  refine ⟨_, hx, ?_⟩
  rcases dispatch_cases id (finalized m s) with ⟨h, -, ht⟩ | ⟨-, ht⟩ <;> rw [ht]
  case inl =>
    have hctx : (respond (.optByte (some id)) (enterHandler h (finalized m s))).InHandlerCtx := ⟨hd.1, rfl⟩
    refine ⟨rfl, h1, rfl, fun _ => ?_⟩
    rw [exec_hasNext_handler hctx]
    simp [respond, h1, finalized]
  case inr => exact ⟨rfl, h1, rfl, fun hin => absurd (hd.2.1.symm.trans hin) (by decide)⟩

end Sys2Proof.Machine
end

section
/-! PROOF. The poll (`spec/41_receive_assembler.md` R88..R90): how it begins, what each sequencer step does, and, with no
handler registered, how long it lasts. -/

namespace Sys2Proof.Machine

/-! ### The poll flag -/

theorem setPollActive_setPollActive (v w : Bool) (s : State) :
    setPollActive v (setPollActive w s) = setPollActive v s := rfl

theorem setPollActive_eq_self {s : State} {v : Bool} (h : s.pollActive = v) : setPollActive v s = s := by
  subst h; rfl

/-! ### The assembler step under a poll -/

/-- An append step completes while the index is in range (R81, R86). -/
theorem appendStep_completes {s : State} (b : Byte) (hn : s.rxIdx ≤ s.params.readCap) :
    ∃ t, appendStep b s = .ok (none, t) := by
  rcases Nat.lt_or_eq_of_le hn with hroom | hfull
  · exact ⟨_, appendStep_room b hroom⟩
  · exact ⟨_, appendStep_full b hfull⟩

theorem inMessageStep_completes {s : State} (b : Byte) (hn : s.rxIdx ≤ s.params.readCap)
    (hp : s.params.readCap ≤ s.params.msgCap) : ∃ r t, inMessageStep b s = .ok (r, t) := by
  unfold inMessageStep
  split
  · exact ⟨_, _, rfl⟩
  · split
    · split
      · exact ⟨_, _, rfl⟩
      · obtain ⟨m, -, hf⟩ := finalize_completes hp (by omega) hn
        exact ⟨_, _, hf⟩
    · split
      · exact ⟨_, _, rfl⟩
      · obtain ⟨t, ht⟩ := appendStep_completes b hn
        exact ⟨_, t, ht⟩

/-- An assembler step completes while the index is in range and a full frame fits the message buffer (R45, R86). -/
theorem assembleStep_completes {s : State} (b : Byte) (hn : s.rxIdx ≤ s.params.readCap)
    (hp : s.params.readCap ≤ s.params.msgCap) : ∃ r t, assembleStep b s = .ok (r, t) := by
  cases hr : s.rxState with
  | idle => simp [assembleStep, hr]
  | inMessage => simpa only [assembleStep_inMessage b hr] using inMessageStep_completes b hn hp
  | escaping =>
    obtain ⟨t, ht⟩ := appendStep_completes b hn
    exact ⟨none, t, by rw [assembleStep_data (.inl hr), ht]⟩

/-- The assembler leaves alone what is not the receive path's: the parameters, the poll flag, the receive queue and who
moves next. -/
theorem assembleStep_environment {b : Byte} {s t : State} {r : Option Byte} (h : assembleStep b s = .ok (r, t)) :
    t.params = s.params ∧ t.pollActive = s.pollActive ∧ t.rxQueue = s.rxQueue ∧ t.turns = s.turns ∧
      t.cycle = s.cycle := by
  rcases assembleStep_cases h with ⟨-, -, -, rfl⟩ | ⟨-, -, -, rfl⟩ | ⟨-, -, -, rfl⟩ | ⟨-, -, -, -, rfl⟩ |
    ⟨-, -, -, m, id, -, -, -, ⟨g, -, rfl⟩ | ⟨-, rfl⟩⟩ | ⟨-, -, -, rfl⟩ | ⟨-, -, -, rfl⟩ | ⟨-, -, -, rfl⟩ <;>
    exact ⟨rfl, rfl, rfl, rfl, rfl⟩

/-- The index stays in range (R35 I1). -/
theorem assembleStep_rxIdx_le {b : Byte} {s t : State} {r : Option Byte} (h : assembleStep b s = .ok (r, t))
    (hn : s.rxIdx ≤ s.params.readCap) : t.rxIdx ≤ s.params.readCap := by
  rcases assembleStep_cases h with ⟨-, -, -, rfl⟩ | ⟨-, -, -, rfl⟩ | ⟨-, -, -, rfl⟩ | ⟨-, -, -, -, rfl⟩ |
    ⟨-, -, -, m, id, -, -, -, ⟨g, -, rfl⟩ | ⟨-, rfl⟩⟩ | ⟨-, -, -, rfl⟩ | ⟨-, -, -, rfl⟩ | ⟨-, -, hroom, rfl⟩
  · exact Nat.zero_le _
  · exact hn
  · exact hn
  · exact hn
  · exact Nat.zero_le _
  · exact Nat.zero_le _
  · exact Nat.zero_le _
  · exact Nat.zero_le _
  · exact hroom

theorem tableEntry_of_table_empty {s : State} (hn : ∀ e ∈ s.handlerTable, e = none) (id : Byte) :
    tableEntry s id = none := by
  rw [tableEntry_eq, List.getD_eq_getElem?_getD]
  split
  · cases he : s.handlerTable[id.toNat]? with
    | none => rfl
    | some e => exact hn e (List.mem_of_getElem? he)
  · rfl

/-- With no handler registered an assembler step enters none, and makes at most one report. -/
theorem assembleStep_table_empty {b : Byte} {s t : State} {r : Option Byte} (h : assembleStep b s = .ok (r, t))
    (hn : ∀ e ∈ s.handlerTable, e = none) :
    t.inHandler = s.inHandler ∧ (t.history = s.history ∨ ∃ c, t.history = s.history ++ [.dbg c]) := by
  rcases assembleStep_cases h with ⟨-, -, -, rfl⟩ | ⟨-, -, -, rfl⟩ | ⟨-, -, -, rfl⟩ | ⟨-, -, -, -, rfl⟩ |
    ⟨-, -, -, m, id, -, -, -, ⟨g, he, rfl⟩ | ⟨-, rfl⟩⟩ | ⟨-, -, -, rfl⟩ | ⟨-, -, -, rfl⟩ | ⟨-, -, -, rfl⟩
  · exact ⟨rfl, .inl rfl⟩
  · exact ⟨rfl, .inl rfl⟩
  · exact ⟨rfl, .inl rfl⟩
  · exact ⟨rfl, .inl rfl⟩
  · rw [tableEntry_of_table_empty hn] at he
    cases he
  · exact ⟨rfl, .inr ⟨_, rfl⟩⟩
  · exact ⟨rfl, .inr ⟨_, rfl⟩⟩
  · exact ⟨rfl, .inr ⟨_, rfl⟩⟩
  · exact ⟨rfl, .inl rfl⟩

/-! ### One step of the poll -/

theorem step_pollOwned {s : State} (hp : s.PollOwned) (hdue : s.due = []) : step s = pollStep s := by
  rw [step_noTurns hdue, blockStep_pollOwned hp]

theorem pollStep_byte {s t : State} {b : Byte} {q : List Byte} {r : Option Byte} (hq : s.rxQueue = b :: q)
    (h : assembleStep b (rxRead b q s) = .ok (r, t)) : pollStep s = .next t := by
  simp [pollStep, hq, h]

/-- A polled byte has the effect of FEED in driver context, but for FEED's response and the poll flag (R75, R89). -/
theorem pollStep_of_feed {s v : State} {b : Byte} {q : List Byte} (hp : s.PollOwned) (hq : s.rxQueue = b :: q)
    (h : exec (.feed b) (setPollActive false (rxRead b q s)) = .next v) :
    pollStep s = .next { v with pollActive := true, responses := s.responses } := by
  obtain ⟨hf, hi, ha⟩ := hp
  have hd : (setPollActive false (rxRead b q s)).Driver := ⟨hf, hi, rfl⟩
  rcases execFeed_next h with ⟨-, r, u, hu, rfl⟩ | ⟨hc, -⟩ | hheld
  · have hsame : setPollActive true (setPollActive false (rxRead b q s)) = rxRead b q s :=
      setPollActive_eq_self (s := rxRead b q s) ha
    have hpolled : assembleStep b (rxRead b q s) = .ok (r, setPollActive true u) := by
      have hact := assembleStep_pollActive b true (setPollActive false (rxRead b q s))
      rw [hu] at hact
      exact hsame ▸ hact
    have hresp : u.responses = s.responses := (assembleStep_fault_responses hu).2
    rw [pollStep_byte hq hpolled, ← hresp]
    rfl
  · exact absurd (hd.2.1.symm.trans hc.2) (by decide)
  · exact absurd hheld (not_held_of_accepts (.inl hd))

/-! ### A poll with no handler registered -/

/-- A poll in progress with no handler registered, and the bounds under which the assembler completes. -/
structure UnhandledPoll (s : State) : Prop where
  pollOwned : s.PollOwned
  tableEmpty : ∀ e ∈ s.handlerTable, e = none
  rxIdx_le : s.rxIdx ≤ s.params.readCap
  readCap_le : s.params.readCap ≤ s.params.msgCap

theorem UnhandledPoll.of_inv {s : State} (hinv : s.Inv) (hp : s.PollOwned) (hn : ∀ e ∈ s.handlerTable, e = none) :
    UnhandledPoll s := by
  obtain ⟨⟨-, -, -, -, hmsg, -⟩, ⟨hidx, -⟩, -⟩ := hinv
  exact ⟨hp, hn, hidx, hmsg⟩

/-- From `s` to `t` the poll has gone on: it is still in progress, it has not ended in between, and POLL_ONCE's response is
still owed. -/
structure PollGoesOn (s t : State) : Prop where
  unhandled : UnhandledPoll t
  history : ∃ es, t.history = s.history ++ es ∧ Event.pollDone ∉ es
  responses : t.responses = s.responses

theorem PollGoesOn.refl {s : State} (h : UnhandledPoll s) : PollGoesOn s s :=
  ⟨h, ⟨[], by simp, by simp⟩, rfl⟩

theorem PollGoesOn.trans {s t u : State} (h : PollGoesOn s t) (h' : PollGoesOn t u) : PollGoesOn s u := by
  obtain ⟨-, ⟨es, hes, hnot⟩, hresp⟩ := h
  obtain ⟨hu, ⟨es', hes', hnot'⟩, hresp'⟩ := h'
  exact ⟨hu, ⟨es ++ es', by rw [hes', hes, List.append_assoc], by simp [hnot, hnot']⟩, hresp'.trans hresp⟩

/-- The sequencer takes a waiting byte and the poll goes on (R89). -/
theorem UnhandledPoll.pollStep_goesOn {s : State} {b : Byte} {q : List Byte} (h : UnhandledPoll s)
    (hq : s.rxQueue = b :: q) :
    ∃ t, pollStep s = .next t ∧ PollGoesOn s t ∧ t.rxQueue = q ∧ t.turns = s.turns ∧ t.cycle = s.cycle := by
  obtain ⟨⟨hf, hi, ha⟩, hn, hidx, hcap⟩ := h
  obtain ⟨r, t, ht⟩ := assembleStep_completes (s := rxRead b q s) b hidx hcap
  obtain ⟨hparams, hpoll, hqueue, hturns, hcycle⟩ := assembleStep_environment ht
  obtain ⟨hfault, hresp⟩ := assembleStep_fault_responses ht
  obtain ⟨hhandler, hevents⟩ := assembleStep_table_empty ht hn
  have hlast : UnhandledPoll t :=
    { pollOwned := ⟨hfault.trans hf, hhandler.trans hi, hpoll.trans ha⟩
      tableEmpty := assembleStep_handlerTable ht ▸ hn
      rxIdx_le := hparams ▸ assembleStep_rxIdx_le ht hidx
      readCap_le := hparams ▸ hcap }
  have hhist : ∃ es, t.history = s.history ++ es ∧ Event.pollDone ∉ es := by
    rcases hevents with he | ⟨c, he⟩
    · exact ⟨[.rxRead b], he, by simp⟩
    · exact ⟨[.rxRead b, .dbg c], by simpa using he, by simp⟩
  exact ⟨t, pollStep_byte hq ht, ⟨hlast, hhist, hresp⟩, hqueue, hturns, hcycle⟩

/-- An arrival leaves the block as it was, with a byte more to read (R47). -/
theorem UnhandledPoll.step_arrive {s : State} {b : Byte} {ts : List Turn} (h : UnhandledPoll s)
    (hdue : s.due = .arrive b :: ts) :
    ∃ t, step s = .next t ∧ PollGoesOn s t ∧ t.rxQueue = s.rxQueue ++ [b] ∧ t.turns = ts ∧ t.cycle = s.cycle := by
  obtain ⟨hp, hn, hidx, hcap⟩ := h
  refine ⟨arrive b { s with turns := ts }, by simp [step, takeTurn, hdue], ?_, rfl, rfl, rfl⟩
  exact ⟨⟨hp, hn, hidx, hcap⟩, ⟨[], by simp, by simp⟩, rfl⟩

/-- The block's turn with a byte waiting takes that byte. -/
theorem UnhandledPoll.step_block {s : State} {b : Byte} {q : List Byte} {ts : List Turn} (h : UnhandledPoll s)
    (hq : s.rxQueue = b :: q) (hturns : s.turns = .block :: ts) :
    ∃ t, step s = .next t ∧ PollGoesOn s t ∧ t.turns = ts ∧ t.cycle = s.cycle := by
  obtain ⟨hp, hn, hidx, hcap⟩ := h
  have h' : UnhandledPoll { s with turns := ts } := ⟨hp, hn, hidx, hcap⟩
  obtain ⟨t, ht, ⟨hu, hhist, hresp⟩, -, hts, hcycle⟩ := h'.pollStep_goesOn hq
  refine ⟨t, ?_, ⟨hu, hhist, hresp⟩, hts, hcycle⟩
  rw [step_blockTurn (due_of_turns hturns), blockStep_pollOwned h'.pollOwned, ht]

/-! ### A run of the poll -/

theorem stepN_succ {s t : State} (n : Nat) (h : step s = .next t) : stepN (n + 1) s = stepN n t := by
  simp only [stepN, h]

/-- With nothing more to arrive the poll reads what is waiting, a byte a step, and then ends (R89, R90). -/
theorem UnhandledPoll.ends {s : State} (h : UnhandledPoll s) (hdue : s.due = []) :
    ∃ t hist, stepN (s.rxQueue.length + 1) s = .next t ∧ t.pollActive = false ∧ t.rxQueue = [] ∧ t.fault = none ∧
      t.inHandler = false ∧ t.history = hist ++ [.pollDone] ∧ t.responses = s.responses ++ [.unit] := by
  induction hq : s.rxQueue generalizing s with
  | nil =>
    obtain ⟨hf, hi, -⟩ := h.pollOwned
    have hs : step s = .next (respond .unit (emit .pollDone (setPollActive false s))) := by
      rw [step_pollOwned h.pollOwned hdue, pollStep_empty hq]
    exact ⟨_, s.history, stepN_succ 0 hs, rfl, hq, hf, hi, rfl, rfl⟩
  | cons b q ih =>
    obtain ⟨t, ht, hgo, htq, hturns, hcycle⟩ := h.pollStep_goesOn hq
    have hs : step s = .next t := by rw [step_pollOwned h.pollOwned hdue, ht]
    have htdue : t.due = [] := by rw [due_nil_iff] at hdue ⊢; rwa [hturns, hcycle]
    rw [List.length_cons, stepN_succ _ hs, ← hgo.responses]
    exact ih hgo.unhandled htdue htq

/-- A byte arrives, then the block takes the oldest one waiting: the poll goes on, whatever was waiting (R90). -/
theorem UnhandledPoll.arrive_block {s : State} {b : Byte} {ts : List Turn} (h : UnhandledPoll s)
    (hdue : s.due = .arrive b :: .block :: ts) :
    ∃ t, (∀ n, stepN (n + 2) s = stepN n t) ∧ PollGoesOn s t ∧ t.turns = ts ∧ t.cycle = s.cycle := by
  obtain ⟨u, hu, hgo, huq, huturns, hucycle⟩ := h.step_arrive hdue
  obtain ⟨c, q, hcq⟩ := List.exists_cons_of_ne_nil (List.append_ne_nil_of_right_ne_nil s.rxQueue (List.cons_ne_nil b []))
  obtain ⟨t, ht, hgo', htturns, htcycle⟩ := hgo.unhandled.step_block (huq.trans hcq) huturns
  exact ⟨t, fun n => by rw [stepN_succ _ hu, stepN_succ _ ht], hgo.trans hgo', htturns, htcycle.trans hucycle⟩

/-- The poll never ends while the repeated turns deliver a byte before every step of the block (R90; log 17). -/
theorem UnhandledPoll.lasts_cycle {s : State} {b : Byte} (h : UnhandledPoll s) (hturns : s.turns = [])
    (hcycle : s.cycle = [.arrive b, .block]) (n : Nat) : ∃ t, stepN n s = .next t ∧ PollGoesOn s t := by
  have hdue : s.due = [.arrive b, .block] := (due_of_cycle hturns).trans hcycle
  induction n using Nat.twoStepInduction generalizing s with
  | zero => exact ⟨s, rfl, .refl h⟩
  | one =>
    obtain ⟨t, ht, hgo, -⟩ := h.step_arrive hdue
    exact ⟨t, stepN_succ 0 ht, hgo⟩
  | more n ih _ =>
    obtain ⟨u, hu, hgo, huturns, hucycle⟩ := h.arrive_block hdue
    have hucycle' : u.cycle = [.arrive b, .block] := hucycle.trans hcycle
    obtain ⟨t, ht, hgo'⟩ := ih hgo.unhandled huturns hucycle' ((due_of_cycle huturns).trans hucycle')
    exact ⟨t, (hu n).trans ht, hgo.trans hgo'⟩

/-- No finite stream ends the poll, delivered one byte before every step of the block (R90). -/
theorem UnhandledPoll.lasts_stream {s : State} {bs : List Byte} (h : UnhandledPoll s)
    (hturns : s.turns = bs.flatMap (fun b => [.arrive b, .block])) :
    ∃ t, stepN (2 * bs.length) s = .next t ∧ PollGoesOn s t := by
  induction bs generalizing s with
  | nil => exact ⟨s, rfl, .refl h⟩
  | cons b bs ih =>
    obtain ⟨u, hu, hgo, huturns, -⟩ := h.arrive_block (due_of_turns hturns)
    obtain ⟨t, ht, hgo'⟩ := ih hgo.unhandled huturns
    exact ⟨t, (hu (2 * bs.length)).trans ht, hgo.trans hgo'⟩

/-! ### The obligations -/

/-- Settles O22: POLL_ONCE's row of the decoder, the driver-only gate, and the sequencer's step on an empty queue. -/
theorem pollOnceBeginsPoll : Obligations.PollOnceBeginsPoll := by
  unfold Obligations.PollOnceBeginsPoll
  refine ⟨?word, fun s hd => exec_pollOnce_driver hd, ?reentrant, ?emptyQueue⟩
  case word => exact fun b sd => ⟨decode_packWord 0x02#8 0x00#8 sd, fun hb => decode_stray sd (by decide) hb⟩
  case reentrant =>
    intro s hc
    rw [exec, execPollOnce, inDriver_handler _ hc]
    rfl
  case emptyQueue =>
    rintro s ⟨hf, hi, ha⟩ hq hdue
    have hp : (setPollActive true s).PollOwned := ⟨hf, hi, rfl⟩
    have hstep := (step_pollOwned hp hdue).trans (pollStep_empty hq)
    rw [setPollActive_setPollActive, setPollActive_eq_self ha] at hstep
    exact hstep

/-- Settles O23: a sequencer step ends the poll or runs the assembler, which does the same for FEED; where the block is not
poll-owned it is faulted or accepts commands, and with an empty port it holds in either case. -/
theorem pollStepReadsOneByteOrEnds : Obligations.PollStepReadsOneByteOrEnds := by
  unfold Obligations.PollStepReadsOneByteOrEnds
  refine ⟨?ends, ?takesByte, ?asFeed, ?notEnabled⟩
  case ends => exact fun s hp hdue hq => (step_pollOwned hp hdue).trans (pollStep_empty hq)
  case takesByte => exact fun s t b q r hp hdue hq h => (step_pollOwned hp hdue).trans (pollStep_byte hq h)
  case asFeed => exact fun s v b q hp hdue hq h => (step_pollOwned hp hdue).trans (pollStep_of_feed hp hq h)
  case notEnabled =>
    intro s hp hdue hport
    rw [step_noTurns hdue]
    rcases situation_cases s with hf | hp' | ha
    · exact blockStep_faulted hf
    · exact absurd hp' hp
    · exact blockStep_idle ha hport

/-- Settles O24: with no handler registered every sequencer step with a byte to take leaves the poll going on; the queue
empties where nothing arrives, and never does where a byte arrives before each step of the block. -/
theorem pollLastsWhileBytesArrive : Obligations.PollLastsWhileBytesArrive := by
  unfold Obligations.PollLastsWhileBytesArrive
  refine ⟨?ends, ?repeatedByte, ?finiteStream⟩
  case ends => exact fun s hinv hp hdue hn => (UnhandledPoll.of_inv hinv hp hn).ends hdue
  case repeatedByte =>
    intro s b hinv hp hn hturns hcycle n
    obtain ⟨t, ht, hu, ⟨es, hes, hnot⟩, hresp⟩ := (UnhandledPoll.of_inv hinv hp hn).lasts_cycle hturns hcycle n
    exact ⟨t, es, ht, hu.pollOwned, hes, hnot, hresp⟩
  case finiteStream =>
    intro s bs hinv hp hn hturns
    obtain ⟨t, ht, hu, ⟨es, hes, hnot⟩, hresp⟩ := (UnhandledPoll.of_inv hinv hp hn).lasts_stream hturns
    exact ⟨t, es, ht, hu.pollOwned, hes, hnot, hresp⟩

end Sys2Proof.Machine
end

section
/-! PROOF. The dispatch router's commands, forward (`spec/42_dispatch_cursor.md` R91, R95..R98): the exact effect of REGISTER
outside the table, the gate that the handler-only commands share, the effect of NEXT on each side of the payload's end, and
of HANDLER_RETURN. -/

namespace Sys2Proof.Machine

/-! ### The effect of each command -/

/-- REGISTER of an id at or above HANDLER_COUNT reports and sets no entry (R91). -/
theorem exec_register_outOfRange {s : State} {id : Byte} (h : Handler) (ha : s.Accepts)
    (hid : s.params.handlerCount ≤ id.toNat) :
    exec (.register id h) s = .next (respond .unit (report .registerOutOfRange s)) := by
  have hout : idInTable s.params id = false := decide_eq_false (Nat.not_lt.2 hid)
  simp [exec, execRegister, inAnyContext_accepts _ ha, hout]

/-- The commands accepted in handler context only raise F_NOT_IN_HANDLER in driver context (R121). -/
theorem exec_handlerOnly_driver {i : Instr} {s : State} (hi : i = .hasNext ∨ i = .next ∨ i = .handlerReturn)
    (hd : s.Driver) : exec i s = .next (raise .notInHandler s) := by
  rcases hi with rfl | rfl | rfl
  · rw [exec, execHasNext, inHandlerOnly_driver _ hd]
  · rw [exec, execNext, inHandlerOnly_driver _ hd]
  · rw [exec, execHandlerReturn, inHandlerOnly_driver _ hd]

/-- NEXT before the payload's end reads the byte at the cursor and advances it; the read is below the message buffer's
capacity, so it completes (R96). -/
theorem exec_next_byte {s : State} (hc : s.InHandlerCtx) (hlt : s.cursor < s.payloadEnd)
    (hcap : s.payloadEnd ≤ s.params.msgCap) :
    exec .next s =
      .next (respond (.byte (Memory.byteAt .msgBuf s.msgBuf s.cursor)) { s with cursor := s.cursor + 1 }) := by
  have hread := bufRead_below (buf := .msgBuf) (m := s.msgBuf) (Nat.lt_of_lt_of_le hlt hcap)
  simp only [exec, execNext, inHandlerOnly_handler _ hc, if_pos hlt, hread]

/-- NEXT at the payload's end reports the overrun and answers the sentinel, the cursor left where it is (R97). -/
theorem exec_next_overrun {s : State} (hc : s.InHandlerCtx) (hge : s.payloadEnd ≤ s.cursor) :
    exec .next s = .next (respond (.byte Config.sentinel) (report .cursorOverrun s)) := by
  simp only [exec, execNext, inHandlerOnly_handler _ hc, if_neg (Nat.not_lt.2 hge)]

/-- HANDLER_RETURN in handler context leaves it and answers (R98). -/
theorem exec_handlerReturn_handler {s : State} (hc : s.InHandlerCtx) :
    exec .handlerReturn s = .next (respond .unit (leaveHandler s)) := by
  rw [exec, execHandlerReturn, inHandlerOnly_handler _ hc]

/-- Where a poll is active, leaving handler context gives the block back to the sequencer (R98, R121). -/
theorem leaveHandler_pollOwned {s : State} (hf : s.fault = none) (hp : s.pollActive = true) :
    (leaveHandler s).PollOwned := ⟨hf, rfl, hp⟩

/-! ### The obligations -/

/-- Settles O25: REGISTER's row of the decoder, and its two effects, told apart by the id's place against HANDLER_COUNT. -/
theorem registerWritesTheTable : Obligations.RegisterWritesTheTable := by
  unfold Obligations.RegisterWritesTheTable
  refine ⟨fun id sd => decode_packWord 0x03#8 id sd, ?effect⟩
  case effect =>
    intro s id h ha
    split
    case isTrue hin => exact exec_register_inTable h ha hin
    case isFalse hout => exact exec_register_outOfRange h ha (Nat.le_of_not_lt hout)

/-- Settles O27: HAS_NEXT's row of the decoder, its answer in handler context, and the handler-only gate in driver context. -/
theorem hasNextComparesCursor : Obligations.HasNextComparesCursor := by
  unfold Obligations.HasNextComparesCursor
  exact ⟨fun _ sd => ⟨decode_packWord 0x04#8 0x00#8 sd, decode_stray sd (by decide)⟩,
    fun _ hc => exec_hasNext_handler hc, fun _ hd => exec_handlerOnly_driver (.inl rfl) hd⟩

/-- Settles O28: NEXT's row of the decoder, its read and its overrun on either side of the payload's end, and the
handler-only gate in driver context. -/
theorem nextReadsOrOverruns : Obligations.NextReadsOrOverruns := by
  unfold Obligations.NextReadsOrOverruns
  exact ⟨fun _ sd => ⟨decode_packWord 0x05#8 0x00#8 sd, decode_stray sd (by decide)⟩,
    fun _ hc hlt hcap => exec_next_byte hc hlt hcap, fun _ hc hge => exec_next_overrun hc hge,
    fun _ hd => exec_handlerOnly_driver (.inr (.inl rfl)) hd⟩

/-- Settles O29: HANDLER_RETURN's row of the decoder, its effect, and the handler-only gate in driver context; an active poll
keeps its flag, so the block is poll-owned once handler context is left. -/
theorem handlerReturnLeavesContext : Obligations.HandlerReturnLeavesContext := by
  unfold Obligations.HandlerReturnLeavesContext
  refine ⟨fun _ sd => ⟨decode_packWord 0x06#8 0x00#8 sd, decode_stray sd (by decide)⟩,
    fun _ hc => exec_handlerReturn_handler hc, fun _ hd => exec_handlerOnly_driver (.inr (.inr rfl)) hd, ?pollGoesOn⟩
  case pollGoesOn =>
    intro s t hc hp hx
    rw [exec_handlerReturn_handler hc] at hx
    cases hx
    exact leaveHandler_pollOwned hc.1 hp

end Sys2Proof.Machine
end

section
/-! PROOF. The Send Session's commands, forward (`spec/43_send_session.md` R100..R104): where each fails, the exact bytes
each writes where it does not, and SEND0 as BEGIN_SEND then END_SEND. -/

namespace Sys2Proof.Machine

/-! ### The bytes written and what stays -/

theorem sent_accepts {s : State} (v : Bool) (es : List Byte) (r : Bool) (ha : s.Accepts) : (sent v es r s).Accepts := ha

/-- A send that leaves `tx_open` as it was changes the history and the responses only. -/
theorem sent_same_txOpen {s : State} {v : Bool} (es : List Byte) (r : Bool) (ho : s.txOpen = v) :
    sent v es r s = { s with
      history := s.history ++ es.map .tx
      responses := s.responses ++ [.bool r] } := by
  subst ho; rfl

/-- SEND_BLOCK's writes are the bytes of the encoded frame, in order (R104); over no payload they are SEND0's (R103). -/
theorem respond_frameWrites (id : Byte) (ps : List Byte) (s : State) :
    respond (.bool true) (txWrite s.params.endByte (txEscEach ps (txEsc id (txWrite s.params.startByte s)))) =
      sent s.txOpen (encodeFrame s.params id ps) true s := by
  simp [txEscEach_eq, txEsc_eq, txWrite, emit, respond, sent, encodeFrame]

theorem length_rangeBytes {d : List Byte} {off len : Nat} (h : off + len ≤ d.length) :
    (rangeBytes d off len).length = len := by
  rw [rangeBytes, List.length_take, List.length_drop]
  omega

theorem getElem?_rangeBytes (d : List Byte) (off : Nat) {len i : Nat} (hi : i < len) :
    (rangeBytes d off len)[i]? = d[off + i]? := by
  rw [rangeBytes, List.getElem?_take_of_lt hi, List.getElem?_drop]

/-! ### The failures -/

/-- With a transaction open, the commands that would open one or write a whole frame fail (R100, R103, R104); SEND_BLOCK
fails so whatever its range. -/
theorem exec_frameStart_fails {i : Instr} {s : State} {id : Byte}
    (hi : i = .beginSend id ∨ i = .send0 id ∨ ∃ d off len, i = .sendBlock id d off len)
    (ha : s.Accepts) (ho : s.txOpen = true) : exec i s = sendFails s := by
  rcases hi with rfl | rfl | ⟨d, off, len, rfl⟩
  · simp only [exec, execBeginSend, inAnyContext_accepts _ ha, if_pos ho]
  · simp only [exec, execSend0, inAnyContext_accepts _ ha, if_pos ho]
  · simp only [exec, execSendBlock, inAnyContext_accepts _ ha, if_pos ho]

/-- With no transaction open, the commands that continue or close one fail (R101, R102). -/
theorem exec_continue_fails {i : Instr} {s : State} (hi : (∃ b, i = .sendByte b) ∨ i = .endSend)
    (ha : s.Accepts) (ho : s.txOpen = false) : exec i s = sendFails s := by
  rcases hi with ⟨b, rfl⟩ | rfl
  · simp only [exec, execSendByte, inAnyContext_accepts _ ha, ho, Bool.false_eq_true, if_false]
  · simp only [exec, execEndSend, inAnyContext_accepts _ ha, ho, Bool.false_eq_true, if_false]

/-! ### The effects -/

/-- BEGIN_SEND writes START and the escaped id and opens the transaction (R100). -/
theorem exec_beginSend_closed {s : State} (id : Byte) (ha : s.Accepts) (ho : s.txOpen = false) :
    exec (.beginSend id) s = .next (sent true (s.params.startByte :: esc s.params id) true s) := by
  simp [exec, execBeginSend, inAnyContext_accepts _ ha, ho, txEsc_eq, sent, respond, txWrite, emit, setTxOpen]

/-- SEND_BYTE writes the escaped byte in the transaction that is open (R101). -/
theorem exec_sendByte_open {s : State} (b : Byte) (ha : s.Accepts) (ho : s.txOpen = true) :
    exec (.sendByte b) s = .next (sent true (esc s.params b) true s) := by
  simp only [exec, execSendByte, inAnyContext_accepts _ ha, if_pos ho, txEsc_eq, sent_same_txOpen _ _ ho, respond]

/-- END_SEND writes END and closes the transaction (R102). -/
theorem exec_endSend_open {s : State} (ha : s.Accepts) (ho : s.txOpen = true) :
    exec .endSend s = .next (sent false [s.params.endByte] true s) := by
  simp only [exec, execEndSend, inAnyContext_accepts _ ha, if_pos ho]
  rfl

/-- SEND0 writes the id-only frame (R103). -/
theorem exec_send0_closed {s : State} (id : Byte) (ha : s.Accepts) (ho : s.txOpen = false) :
    exec (.send0 id) s = .next (sent false (encodeFrame s.params id []) true s) := by
  simp only [exec, execSend0, inAnyContext_accepts _ ha, ho, Bool.false_eq_true, if_false]
  rw [← ho, ← respond_frameWrites]
  rfl

/-- SEND_BLOCK with a range inside its data writes the encoded frame of the range's bytes (R104). -/
theorem exec_sendBlock_inside {s : State} (id : Byte) {d : List Byte} {off len : Nat} (ha : s.Accepts)
    (ho : s.txOpen = false) (hr : off + len ≤ d.length) :
    exec (.sendBlock id d off len) s = .next (sent false (encodeFrame s.params id (rangeBytes d off len)) true s) := by
  have hin : rangeOutside d off len = false := decide_eq_false (Nat.not_lt.2 hr)
  simp only [exec, execSendBlock, inAnyContext_accepts _ ha, ho, hin, Bool.false_eq_true, if_false, respond_frameWrites]

/-- SEND_BLOCK with a range outside its data raises F_SEND_RANGE (R104). -/
theorem exec_sendBlock_outside {s : State} (id : Byte) {d : List Byte} {off len : Nat} (ha : s.Accepts)
    (ho : s.txOpen = false) (hr : d.length < off + len) :
    exec (.sendBlock id d off len) s = .next (raise .sendRange s) := by
  have hout : rangeOutside d off len = true := decide_eq_true hr
  simp only [exec, execSendBlock, inAnyContext_accepts _ ha, ho, hout, Bool.false_eq_true, if_false, if_true]

/-! ### Commands run one after the other -/

theorem execAll_cons_next {i : Instr} {s t : State} (is : List Instr) (h : exec i s = .next t) :
    execAll (i :: is) s = execAll is t := by
  rw [execAll, h]

/-- BEGIN_SEND then END_SEND, no step between, write the id-only frame and leave no transaction open (R103). -/
theorem execAll_beginSend_endSend {s : State} (id : Byte) (ha : s.Accepts) (ho : s.txOpen = false) :
    execAll [.beginSend id, .endSend] s =
      .next (sent false [s.params.endByte] true (sent true (s.params.startByte :: esc s.params id) true s)) := by
  rw [execAll_cons_next _ (exec_beginSend_closed id ha ho),
    execAll_cons_next _ (exec_endSend_open (sent_accepts _ _ _ ha) rfl)]
  rfl

/-! ### The obligations -/

/-- Settles O30: BEGIN_SEND's row of the decoder, its effect with no transaction open and its failure with one. -/
theorem beginSendOpensTransaction : Obligations.BeginSendOpensTransaction := by
  unfold Obligations.BeginSendOpensTransaction
  exact ⟨fun id sd => decode_packWord 0x08#8 id sd, fun _ id ha ho => exec_beginSend_closed id ha ho,
    fun _ _ ha ho => exec_frameStart_fails (.inl rfl) ha ho⟩

/-- Settles O31: SEND_BYTE's row of the decoder, its effect in an open transaction and its failure without one. -/
theorem sendByteWritesEscaped : Obligations.SendByteWritesEscaped := by
  unfold Obligations.SendByteWritesEscaped
  refine ⟨fun b sd => decode_packWord 0x09#8 b sd, ?effect, fun _ b ha ho => exec_continue_fails (.inl ⟨b, rfl⟩) ha ho⟩
  case effect =>
    intro s b ha ho
    rw [exec_sendByte_open b ha ho, sent_same_txOpen _ _ ho]

/-- Settles O32: END_SEND's row of the decoder, its effect in an open transaction and its failure without one. -/
theorem endSendClosesTransaction : Obligations.EndSendClosesTransaction := by
  unfold Obligations.EndSendClosesTransaction
  exact ⟨fun _ sd => ⟨decode_packWord 0x0A#8 0x00#8 sd, decode_stray sd (by decide)⟩,
    fun _ ha ho => exec_endSend_open ha ho, fun _ ha ho => exec_continue_fails (.inr rfl) ha ho⟩

/-- Settles O33: SEND0's row of the decoder, its frame and that of BEGIN_SEND then END_SEND, equal but for the second
response, and its failure with a transaction open. -/
theorem sendZeroWritesIdOnlyFrame : Obligations.SendZeroWritesIdOnlyFrame := by
  unfold Obligations.SendZeroWritesIdOnlyFrame
  refine ⟨fun id sd => decode_packWord 0x0B#8 id sd, fun s id ha ho => ⟨?frame, ?sequence⟩,
    fun _ _ ha ho => exec_frameStart_fails (.inr (.inl rfl)) ha ho⟩
  case frame =>
    rw [exec_send0_closed id ha ho, sent_same_txOpen _ _ ho]
    simp [encodeFrame, escAll]
  case sequence =>
    rw [execAll_beginSend_endSend id ha ho, ← ho]
    simp [sent]

/-- Settles O34: SEND_BLOCK's row of the decoder, its failure before any look at the range, the fault of a range outside the
data, and otherwise the frame whose payload is the range's bytes. -/
theorem sendBlockWritesEncodedFrame : Obligations.SendBlockWritesEncodedFrame := by
  unfold Obligations.SendBlockWritesEncodedFrame
  refine ⟨fun id sd => decode_packWord 0x0C#8 id sd,
    fun _ _ d off len ha ho => exec_frameStart_fails (.inr (.inr ⟨d, off, len, rfl⟩)) ha ho,
    fun _ id _ _ _ ha ho hr => exec_sendBlock_outside id ha ho hr, ?frame⟩
  case frame =>
    intro s id d off len ha ho hr
    refine ⟨rangeBytes d off len, length_rangeBytes hr, fun i hi => getElem?_rangeBytes d off hi, ?_⟩
    rw [exec_sendBlock_inside id ha ho hr, sent_same_txOpen _ _ ho]

end Sys2Proof.Machine
end

section
/-! PROOF. Faults and contexts (`spec/60_exceptions.md` R117, R119, R121, with the codes of R108 and R116): what a raise
leaves alone, what each context refuses and accepts, and the code each condition carries. -/

namespace Sys2Proof.Machine

/-! ### What a raise leaves alone (R117) -/

theorem pollStep_fault {s t : State} (h : pollStep s = .next t) : t.fault = s.fault := by
  rcases pollStep_next h with ⟨-, rfl⟩ | ⟨b, rest, r, -, hu⟩
  · rfl
  · exact (assembleStep_fault_responses hu).1

/-- A command that sets the fault mark does nothing else. -/
theorem exec_raises {i : Instr} {s t : State} {r : FaultReason} (hs : s.fault = none) (hx : exec i s = .next t)
    (ht : t.fault = some r) : t = raise r s := by
  have hne : t.fault ≠ s.fault := by simp [hs, ht]
  cases exec_responseCase hx with
  | completes _ _ hfault _ => exact absurd hfault hne
  | faults f hraise =>
    subst hraise
    obtain rfl : f = r := Option.some.inj ht
    rfl
  | beginsPoll _ hpoll => exact absurd (hpoll ▸ rfl) hne
  | holds hheld => exact absurd (hheld.2 ▸ rfl) hne

/-- A block's step that sets the fault mark changes nothing else but the port. -/
theorem blockStep_raises {s t : State} {r : FaultReason} (hs : s.fault = none) (h : blockStep s = .next t)
    (ht : t.fault = some r) : ∃ cs, t = { s with fault := some r, port := cs } := by
  have hne : t.fault ≠ s.fault := by simp [hs, ht]
  rcases blockStep_cases s with ⟨hf, -⟩ | ⟨-, hb⟩ | ⟨-, -, hb⟩ | ⟨c, cs, -, -, hb⟩
  · exact absurd hs hf
  · exact absurd (pollStep_fault (hb.symm.trans h)) hne
  · cases hb.symm.trans h
    exact absurd rfl hne
  · rcases runCommand_cases c { s with port := cs } with ⟨i, -, hr⟩ | ⟨e, -, hr⟩
    · exact ⟨cs, exec_raises (s := { s with port := cs }) hs (hr.symm.trans (hb.symm.trans h)) ht⟩
    · cases hr.symm.trans (hb.symm.trans h)
      obtain rfl : FaultReason.illegal = r := Option.some.inj ht
      exact ⟨cs, rfl⟩

theorem resetSignal_fault (s : State) : (resetSignal s).fault = s.fault := by
  rcases resetSignal_cases s with ⟨-, hr⟩ | ⟨-, hr⟩ <;> rw [hr]
  rfl

/-- A RESET turn of a faulted block is used up and does nothing (R128). -/
theorem resetSignal_faulted {s : State} (h : s.fault ≠ none) : resetSignal s = s := by
  rcases resetSignal_cases s with ⟨hn, -⟩ | ⟨-, hr⟩
  · exact absurd hn h
  · exact hr

theorem setTurns_eq_self {s : State} {ts : List Turn} (h : s.turns = ts) : { s with turns := ts } = s := by
  subst h; rfl

/-- A step that sets the fault mark changes nothing else but the port and the turns. -/
theorem step_raises {s t : State} {r : FaultReason} (hs : s.fault = none) (h : step s = .next t)
    (ht : t.fault = some r) : t = { s with fault := some r, port := t.port, turns := t.turns } := by
  have hne : t.fault ≠ s.fault := by simp [hs, ht]
  rcases step_cases s with ⟨-, hstep⟩ | ⟨ts, -, hstep⟩ | ⟨b, ts, -, hstep⟩ | ⟨ts, -, hstep⟩
  · obtain ⟨cs, rfl⟩ := blockStep_raises hs (hstep.symm.trans h) ht
    rfl
  · obtain ⟨cs, rfl⟩ := blockStep_raises (s := { s with turns := ts }) hs (hstep.symm.trans h) ht
    rfl
  · cases hstep.symm.trans h
    exact absurd rfl hne
  · cases hstep.symm.trans h
    exact absurd (resetSignal_fault _) hne

/-- Settles O11: only a raise sets the mark (`step_raises`), and a faulted block is looked at turn by
turn: its own step and RESET do nothing, and Arrive still appends. -/
theorem faultedBlockIsQuiescent : Obligations.FaultedBlockIsQuiescent := by
  unfold Obligations.FaultedBlockIsQuiescent
  refine ⟨fun s t r hs h ht => step_raises hs h ht, ?quiescent⟩
  case quiescent =>
    intro s hf
    rcases step_cases s with ⟨hdue, hstep⟩ | ⟨ts, hdue, hstep⟩ | ⟨b, ts, hdue, hstep⟩ | ⟨ts, hdue, hstep⟩ <;>
      rw [hdue, hstep]
    · have hself : { s with turns := [] } = s := setTurns_eq_self (due_nil_iff.1 hdue).1
      exact (blockStep_faulted hf).trans (congrArg _ hself.symm)
    · exact blockStep_faulted (s := { s with turns := ts }) hf
    · rfl
    · exact congrArg _ (resetSignal_faulted (s := { s with turns := ts }) hf)

/-! ### The sequencer does not look at the port (R121) -/

/-- `s` with other commands waiting on the port. -/
def setPort (cs : List Command) (s : State) : State := { s with port := cs }

/-- An assembler's outcome with the port of its next state set. -/
def setPortOk (cs : List Command) : Except Fault (Option Byte × State) → Except Fault (Option Byte × State) :=
  Except.map (Prod.map id (setPort cs))

theorem appendStep_setPort (b : Byte) (cs : List Command) (s : State) :
    appendStep b (setPort cs s) = setPortOk cs (appendStep b s) := by
  simp only [appendStep, appendByte, setPort]
  by_cases hfull : s.rxIdx = s.params.readCap
  · simp only [hfull, if_true]; rfl
  · simp only [hfull, if_false]
    cases bufWrite .rxBuf s.params.readCap s.rxBuf s.rxIdx b <;> rfl

theorem dispatch_setPort (id : Byte) (cs : List Command) (s : State) :
    dispatch id (setPort cs s) = setPort cs (dispatch id s) := by
  have hentry : tableEntry (setPort cs s) id = tableEntry s id := rfl
  rcases dispatch_cases id s with ⟨h, he, hd⟩ | ⟨he, hd⟩
  · rw [hd, dispatch_found (hentry.trans he)]; rfl
  · rw [hd, dispatch_missing (hentry.trans he)]; rfl

theorem finalize_setPort (cs : List Command) (s : State) :
    finalize (setPort cs s) = setPortOk cs (finalize s) := by
  simp only [finalize, setPort]
  cases copyPrefix s.params s.rxBuf s.msgBuf s.rxIdx with
  | error f => rfl
  | ok m =>
    cases hid : bufRead .msgBuf s.params.msgCap m 0 with
    | error f => simp only [hid]; rfl
    | ok id =>
      simp only [hid]
      exact congrArg (fun t => Except.ok (some id, t)) (dispatch_setPort id cs (finalized m s))

/-- None of the conditions reads the port, and each outcome keeps it. -/
theorem inMessageStep_setPort (b : Byte) (cs : List Command) (s : State) :
    inMessageStep b (setPort cs s) = setPortOk cs (inMessageStep b s) := by
  simp only [inMessageStep, apply_ite (setPortOk cs), ← finalize_setPort, ← appendStep_setPort]
  rfl

theorem assembleStep_setPort (b : Byte) (cs : List Command) (s : State) :
    assembleStep b (setPort cs s) = setPortOk cs (assembleStep b s) := by
  cases hr : s.rxState with
  | idle =>
    by_cases hb : b = s.params.startByte
    · subst hb
      rw [assembleStep_idle_start hr]
      exact assembleStep_idle_start (s := setPort cs s) hr
    · rw [assembleStep_idle_other hr hb]
      exact assembleStep_idle_other (s := setPort cs s) hr hb
  | inMessage =>
    rw [assembleStep_inMessage b hr, assembleStep_inMessage (s := setPort cs s) b hr, inMessageStep_setPort]
  | escaping =>
    rw [assembleStep_data (.inl hr), assembleStep_data (s := setPort cs s) (.inl hr), appendStep_setPort]

theorem pollStep_setPort (cs : List Command) (s : State) :
    pollStep (setPort cs s) = mapNext (setPort cs) (pollStep s) := by
  cases hq : s.rxQueue with
  | nil => rw [pollStep_empty hq, pollStep_empty (s := setPort cs s) hq]; rfl
  | cons b q =>
    have hread : assembleStep b (rxRead b q (setPort cs s)) = setPortOk cs (assembleStep b (rxRead b q s)) :=
      assembleStep_setPort b cs (rxRead b q s)
    have hq' : (setPort cs s).rxQueue = b :: q := hq
    simp only [pollStep, hq, hq', hread]
    cases assembleStep b (rxRead b q s) <;> rfl

/-! ### What a context refuses and holds (R121) -/

theorem exec_pollOnce_handler {s : State} (h : s.InHandlerCtx) : exec .pollOnce s = .next (raise .reentrant s) := by
  rw [exec, execPollOnce, inDriver_handler _ h]

/-- While the block is poll-owned no command runs: each meaning is behind one of the three gates, and all of them hold. -/
theorem exec_pollOwned {s : State} (i : Instr) (h : s.PollOwned) : exec i s = .next s := by
  cases i with
  | feed _ | pollOnce => simp only [exec, execFeed, execPollOnce, inDriver_pollOwned _ h]
  | hasNext | next | handlerReturn =>
    simp only [exec, execHasNext, execNext, execHandlerReturn, inHandlerOnly_pollOwned _ h]
  | register _ _ | beginSend _ | sendByte _ | endSend | send0 _ | sendBlock _ _ _ _ =>
    simp only [exec, execRegister, execBeginSend, execSendByte, execEndSend, execSend0, execSendBlock,
      inAnyContext_pollOwned _ h]

/-- Commands waiting on the port do not change what the sequencer does, and stay there. -/
theorem step_setPort_pollOwned {s : State} (cs : List Command) (hp : s.PollOwned) (hdue : s.due = []) :
    step (setPort cs s) = mapNext (setPort cs) (step s) := by
  rw [step_pollOwned hp hdue, step_pollOwned (s := setPort cs s) hp hdue, pollStep_setPort]

theorem step_illegalWord {s : State} {c : Command} {cs : List Command} (ha : s.Accepts) (hdue : s.due = [])
    (hport : s.port = c :: cs) (hill : illegalWord c.word = true) :
    step s = .next { s with port := cs, fault := some .illegal } := by
  obtain ⟨-, -, -, hstep⟩ := illegalWordsFault
  exact hstep s c cs ha hdue hport hill

/-! ### What a context accepts (R121) -/

/-- The command answers, and raises neither fault of a context check. -/
abbrev PassesContext (i : Instr) (s : State) : Prop :=
  ∃ t, exec i s = .next t ∧ t.fault ≠ some .reentrant ∧ t.fault ≠ some .notInHandler

theorem passesContext_of_next {i : Instr} {s t : State} (hx : exec i s = .next t) (hf : t.fault = none) :
    PassesContext i s :=
  ⟨t, hx, by simp [hf], by simp [hf]⟩

theorem passesContext_register {s : State} (id : Byte) (h : Handler) (ha : s.Accepts) :
    PassesContext (.register id h) s := by
  rcases Nat.lt_or_ge id.toNat s.params.handlerCount with hin | hout
  · exact passesContext_of_next (exec_register_inTable h ha hin) (accepts_fault ha)
  · exact passesContext_of_next (exec_register_outOfRange h ha hout) (accepts_fault ha)

theorem passesContext_sendBlock {s : State} (id : Byte) (d : List Byte) (off len : Nat) (ha : s.Accepts)
    (ho : s.txOpen = false) : PassesContext (.sendBlock id d off len) s := by
  rcases Nat.lt_or_ge d.length (off + len) with hout | hin
  · exact ⟨_, exec_sendBlock_outside id ha ho hout, by simp, by simp⟩
  · exact passesContext_of_next (exec_sendBlock_inside id ha ho hin) (accepts_fault ha)

/-- A send command passes in either context, with a transaction open or not. -/
theorem passesContext_send {i : Instr} {s : State} (hi : isSendCommand i = true) (ha : s.Accepts) :
    PassesContext i s := by
  have hf := accepts_fault ha
  cases ho : s.txOpen with
  | false =>
    cases i with
    | feed _ | pollOnce | register _ _ | hasNext | next | handlerReturn => cases hi
    | beginSend id => exact passesContext_of_next (exec_beginSend_closed id ha ho) hf
    | sendByte b => exact passesContext_of_next (exec_continue_fails (.inl ⟨b, rfl⟩) ha ho) hf
    | endSend => exact passesContext_of_next (exec_continue_fails (.inr rfl) ha ho) hf
    | send0 id => exact passesContext_of_next (exec_send0_closed id ha ho) hf
    | sendBlock id d off len => exact passesContext_sendBlock id d off len ha ho
  | true =>
    cases i with
    | feed _ | pollOnce | register _ _ | hasNext | next | handlerReturn => cases hi
    | beginSend id => exact passesContext_of_next (exec_frameStart_fails (.inl rfl) ha ho) hf
    | sendByte b => exact passesContext_of_next (exec_sendByte_open b ha ho) hf
    | endSend => exact passesContext_of_next (exec_endSend_open ha ho) hf
    | send0 id => exact passesContext_of_next (exec_frameStart_fails (.inr (.inl rfl)) ha ho) hf
    | sendBlock id d off len =>
      exact passesContext_of_next (exec_frameStart_fails (.inr (.inr ⟨d, off, len, rfl⟩)) ha ho) hf

/-- In driver context FEED's assembler step completes, under the invariant. -/
theorem passesContext_feed {s : State} (b : Byte) (hinv : s.Inv) (hd : s.Driver) : PassesContext (.feed b) s := by
  obtain ⟨⟨-, -, -, -, hmsg, -⟩, ⟨hidx, -⟩, -⟩ := hinv
  obtain ⟨r, t, ht⟩ := assembleStep_completes b hidx hmsg
  exact passesContext_of_next (exec_feed_driver hd ht) ((assembleStep_fault_responses ht).1.trans hd.1)

/-- In handler context NEXT's read is inside the message buffer, under the invariant. -/
theorem passesContext_next {s : State} (hinv : s.Inv) (hc : s.InHandlerCtx) : PassesContext .next s := by
  obtain ⟨-, -, -, ⟨-, hend, -⟩, -⟩ := hinv
  rcases Nat.lt_or_ge s.cursor s.payloadEnd with hlt | hge
  · exact passesContext_of_next (exec_next_byte hc hlt hend) hc.1
  · exact passesContext_of_next (exec_next_overrun hc hge) hc.1

theorem passesContext_driver {i : Instr} {s : State} (hinv : s.Inv) (hd : s.Driver)
    (hi : i ∉ [.hasNext, .next, .handlerReturn]) : PassesContext i s := by
  cases i with
  | feed b => exact passesContext_feed b hinv hd
  | pollOnce => exact passesContext_of_next (exec_pollOnce_driver hd) hd.1
  | register id h => exact passesContext_register id h (.inl hd)
  | hasNext | next | handlerReturn => exact absurd (by simp) hi
  | beginSend _ | sendByte _ | endSend | send0 _ | sendBlock _ _ _ _ => exact passesContext_send rfl (.inl hd)

theorem passesContext_handler {i : Instr} {s : State} (hinv : s.Inv) (hc : s.InHandlerCtx) (hpoll : i ≠ .pollOnce)
    (hfeed : ∀ b, i ≠ .feed b) : PassesContext i s := by
  cases i with
  | feed b => exact absurd rfl (hfeed b)
  | pollOnce => exact absurd rfl hpoll
  | register id h => exact passesContext_register id h (.inr hc)
  | hasNext => exact passesContext_of_next (exec_hasNext_handler hc) hc.1
  | next => exact passesContext_next hinv hc
  | handlerReturn => exact passesContext_of_next (exec_handlerReturn_handler hc) hc.1
  | beginSend _ | sendByte _ | endSend | send0 _ | sendBlock _ _ _ _ => exact passesContext_send rfl (.inr hc)

/-- Settles O12: the refusals are the two gates' raises, the hold is every gate's, and a command that its context does not
refuse answers because the invariant keeps FEED's and NEXT's buffer accesses in range. -/
theorem contextTable : Obligations.ContextTable := by
  unfold Obligations.ContextTable
  exact ⟨fun _ b hc => ⟨exec_feed_handler b hc, exec_pollOnce_handler hc⟩,
    fun _ hd => ⟨exec_handlerOnly_driver (.inl rfl) hd, exec_handlerOnly_driver (.inr (.inl rfl)) hd,
      exec_handlerOnly_driver (.inr (.inr rfl)) hd⟩,
    fun _ i hp => exec_pollOwned i hp,
    fun s c hp hdue => step_setPort_pollOwned (c :: s.port) hp hdue,
    fun _ _ _ ha hdue hport hill => step_illegalWord ha hdue hport hill,
    fun _ _ hinv hd hi => passesContext_driver hinv hd hi,
    fun _ _ hinv hc hpoll hfeed => passesContext_handler hinv hc hpoll hfeed⟩

/-! ### The codes (R19, R108, R116) -/

/-- An id at or above HANDLER_COUNT, or whose entry is unset, has no handler (R92). -/
theorem tableEntry_none {s : State} {id : Byte}
    (h : s.params.handlerCount ≤ id.toNat ∨ s.handlerTable.getD id.toNat none = none) : tableEntry s id = none := by
  rw [tableEntry_eq]
  split
  case isTrue hin => exact h.resolve_left (Nat.not_le.2 hin)
  case isFalse => rfl

/-- END of a frame whose id has no handler reports it (R92, R108). -/
theorem exec_feed_end_unhandled {s : State} {id : Byte} (hv : s.params.Valid) (hd : s.Driver)
    (hr : s.rxState = .inMessage) (h1 : 1 ≤ s.rxIdx) (hn : s.rxIdx ≤ s.params.readCap)
    (hid : id = Memory.byteAt .rxBuf s.rxBuf 0) (he : tableEntry s id = none) :
    ∃ t, exec (.feed s.params.endByte) s = .next t ∧ t.history = s.history ++ [.dbg .unhandledType] := by
  obtain ⟨m, -, hx⟩ := exec_feed_end hv hd hr h1 hn hid
  have hentry : tableEntry (finalized m s) id = none := he
  rw [dispatch_missing hentry] at hx
  exact ⟨_, hx, rfl⟩

theorem rxState_code_ne_three (x : RxState) : x.code ≠ 0b11#2 := by
  cases x <;> decide

/-- Settles O60: each condition's exact next state shows its fault mark or its one report, whose code is then
computed. -/
theorem conditionsCarryTheirCodes : Obligations.ConditionsCarryTheirCodes := by
  unfold Obligations.ConditionsCarryTheirCodes
  refine ⟨?illegal, ?reentrant, ?notInHandler, ?sendRange, ?overflow, ?resync, ?unhandled, ?overrun, ?outOfRange,
    rfl, rfl, rfl, rxState_code_ne_three⟩
  case illegal => exact fun _ _ _ ha hdue hport hill => ⟨_, step_illegalWord ha hdue hport hill, rfl⟩
  case reentrant =>
    rintro s i hc (rfl | ⟨b, rfl⟩)
    · exact ⟨_, exec_pollOnce_handler hc, rfl⟩
    · exact ⟨_, exec_feed_handler b hc, rfl⟩
  case notInHandler => exact fun _ _ hd hi => ⟨_, exec_handlerOnly_driver (by simpa using hi) hd, rfl⟩
  case sendRange => exact fun _ id _ _ _ ha ho hr => ⟨_, exec_sendBlock_outside id ha ho hr, rfl⟩
  case overflow => exact fun _ _ hd hfull hdata => ⟨_, _, exec_feed_data_full hd hdata hfull, rfl, rfl⟩
  case resync => exact fun _ hv hd hr => ⟨_, _, exec_feed_inMessage hd hr (inMessageStep_start hv), rfl, rfl⟩
  case unhandled =>
    intro s id hv hd hr h1 hn hid hunset
    obtain ⟨t, hx, hh⟩ := exec_feed_end_unhandled hv hd hr h1 hn hid (tableEntry_none hunset)
    exact ⟨t, _, hx, hh, rfl⟩
  case overrun => exact fun _ hc hge => ⟨_, _, exec_next_overrun hc hge, rfl, rfl⟩
  case outOfRange => exact fun _ _ h ha hid => ⟨_, _, exec_register_outOfRange h ha hid, rfl, rfl⟩

end Sys2Proof.Machine
end

section
/-! PROOF. Reset (`spec/70_reset_and_hazards.md` R128..R130): the first step of a run, and the effect of the RESET signal. -/

namespace Sys2Proof.Machine

/-- The step of an Arrive turn (R47). -/
theorem step_arriveTurn {s : State} {b : Byte} {ts : List Turn} (h : s.due = .arrive b :: ts) :
    step s = .next (arrive b { s with turns := ts }) := by
  simp [step, takeTurn, h]

/-- The step of a RESET turn (R128). -/
theorem step_resetTurn {s : State} {ts : List Turn} (h : s.due = .reset :: ts) :
    step s = .next (resetSignal { s with turns := ts }) := by
  simp [step, takeTurn, h]

theorem resetSignal_unfaulted {s : State} (h : s.fault = none) : resetSignal s = resetEffect s := by
  simp [resetSignal, h]

theorem runCommand_legal {c : Command} {i : Instr} (h : decode c = .ok i) (s : State) : runCommand c s = exec i s := by
  simp [runCommand, h]

/-- An accepting block runs the legal command it is sent next, on the state it was sent in (R31, R119). -/
theorem step_offer {s : State} {c : Command} {i : Instr} (ha : s.Accepts) (hc : decode c = .ok i) :
    step (offer c s) = exec i s := by
  have hturn : (offer c s).due = .block :: s.turns := due_of_turns rfl
  have haccepts : ({ offer c s with turns := s.turns } : State).Accepts := ha
  rw [step_blockTurn hturn, blockStep_command haccepts rfl]
  exact runCommand_legal hc s

theorem reset_driver : State.reset.Driver := ⟨rfl, rfl, rfl⟩

/-- Every entry of the handler table is unset in the reset state (R34). -/
theorem reset_handlerTable_unset : ∀ e ∈ State.reset.handlerTable, e = none :=
  fun _ he => List.eq_of_mem_replicate he

/-- Settles O45: the fields are the launch state's; it is in driver context, so its block runs the first command sent
(`step_offer`), and an Arrive turn appends to its empty queue. -/
theorem resetStateIsLaunch : Obligations.ResetStateIsLaunch := by
  unfold Obligations.ResetStateIsLaunch
  refine ⟨reset_driver, rfl, rfl, rfl, rfl, rfl, rfl, rfl, rfl, rfl, List.length_replicate, reset_handlerTable_unset,
    ?command, ?arrive⟩
  case command => exact fun _ _ hc => step_offer (.inl reset_driver) hc
  case arrive => exact fun _ => step_arriveTurn (due_of_turns rfl)

/-- Settles O46: RESET's turn is its signal, which has `resetEffect` with no fault and does nothing under one. -/
theorem resetSignalEffect : Obligations.ResetSignalEffect := by
  unfold Obligations.ResetSignalEffect
  intro s ts hdue
  rw [step_resetTurn hdue]
  refine ⟨?accepted, ?lost⟩
  case accepted => exact fun hf => congrArg _ (resetSignal_unfaulted (s := { s with turns := ts }) hf)
  case lost => exact fun hf => congrArg _ (resetSignal_faulted (s := { s with turns := ts }) hf)

end Sys2Proof.Machine
end

section
/-! PROOF. The encoder and the decoder undo each other (`spec/30_encoding.md` R57, R58, R60, R65). -/

namespace Sys2Proof.Machine

/-- Settles O4: the encoder packs each command's opcode and byte, which is how the decoder's reading by fields
(`decode_packWord`) takes them; the side lines it reads are the ones `sideOf` drives. -/
theorem decodeEncodeRoundTrip : Obligations.DecodeEncodeRoundTrip := by
  unfold Obligations.DecodeEncodeRoundTrip
  intro i
  cases i with
  | feed b => exact decode_packWord 0x01#8 b _
  | pollOnce => exact decode_packWord 0x02#8 0x00#8 _
  | register id h => exact decode_packWord 0x03#8 id { Side.idle with h := h }
  | hasNext => exact decode_packWord 0x04#8 0x00#8 _
  | next => exact decode_packWord 0x05#8 0x00#8 _
  | handlerReturn => exact decode_packWord 0x06#8 0x00#8 _
  | beginSend id => exact decode_packWord 0x08#8 id _
  | sendByte b => exact decode_packWord 0x09#8 b _
  | endSend => exact decode_packWord 0x0A#8 0x00#8 _
  | send0 id => exact decode_packWord 0x0B#8 id _
  | sendBlock id d off len => exact decode_packWord 0x0C#8 id { Side.idle with d := d, off := off, len := len }

/-- Encoding what the row reads from a word it takes gives the word back. -/
def RowReencodes (r : Row) : Prop :=
  ∀ (w : Word) (sd : Side), r.hit w = true → (encode (r.build (wordB w) sd)).word = w

theorem reencodes_operand {p : Byte} {k : Byte → Side → Instr} (hk : ∀ b sd, (encode (k b sd)).word = packWord p b) :
    RowReencodes { mask := 0xFF00#16, pattern := packWord p 0x00#8, build := k } := by
  intro w sd hhit
  rw [← packWord_fields w, hit_operand, beq_iff_eq] at hhit
  rw [hk, ← hhit, packWord_fields]

theorem reencodes_full {p : Byte} {k : Byte → Side → Instr}
    (hk : ∀ b sd, (encode (k b sd)).word = packWord p 0x00#8) :
    RowReencodes { mask := 0xFFFF#16, pattern := packWord p 0x00#8, build := k } := by
  intro w sd hhit
  rw [← packWord_fields w, hit_full, Bool.and_eq_true, beq_iff_eq, beq_iff_eq] at hhit
  obtain ⟨ho, hb⟩ := hhit
  rw [hk, ← ho, ← hb, packWord_fields]

theorem opcodeMap_reencodes : ∀ r ∈ opcodeMap, RowReencodes r := by
  simp only [opcodeMap, List.forall_mem_cons]
  exact ⟨reencodes_operand fun _ _ => rfl, reencodes_full fun _ _ => rfl, reencodes_operand fun _ _ => rfl,
    reencodes_full fun _ _ => rfl, reencodes_full fun _ _ => rfl, reencodes_full fun _ _ => rfl,
    reencodes_operand fun _ _ => rfl, reencodes_operand fun _ _ => rfl, reencodes_full fun _ _ => rfl,
    reencodes_operand fun _ _ => rfl, reencodes_operand fun _ _ => rfl, fun _ hr => absurd hr List.not_mem_nil⟩

/-- All that a word the decoder accepts can be: one that some row takes (R65). -/
theorem decode_ok_row {c : Command} {i : Instr} (h : decode c = .ok i) :
    ∃ r ∈ opcodeMap, r.hit c.word = true ∧ i = r.build (wordB c.word) c.side := by
  unfold decode at h
  split at h
  case h_1 r hfind =>
    have hhit := List.find?_some hfind
    exact ⟨r, List.mem_of_find?_eq_some hfind, hhit, (Except.ok.inj h).symm⟩
  case h_2 => cases h

/-- Settles O5: the row that takes the word reads its operands from the word, and keeps the rest fixed. -/
theorem encodeDecodeRoundTrip : Obligations.EncodeDecodeRoundTrip := by
  unfold Obligations.EncodeDecodeRoundTrip
  intro c i h
  obtain ⟨r, hr, hhit, rfl⟩ := decode_ok_row h
  exact opcodeMap_reencodes r hr c.word c.side hhit

/-- Settles O1: each word is its opcode byte and its `B` packed, which the decoder reads by fields (`decode_packWord`). -/
theorem commandWordsDecode : Obligations.CommandWordsDecode := by
  unfold Obligations.CommandWordsDecode
  intro sd
  exact ⟨decode_packWord 0x01#8 0xFF#8 sd, decode_packWord 0x02#8 0x00#8 sd, decode_packWord 0x03#8 0x05#8 sd,
    decode_packWord 0x04#8 0x00#8 sd, decode_packWord 0x05#8 0x00#8 sd, decode_packWord 0x06#8 0x00#8 sd,
    decode_packWord 0x08#8 0xA1#8 sd, decode_packWord 0x09#8 0x07#8 sd, decode_packWord 0x0A#8 0x00#8 sd,
    decode_packWord 0x0B#8 0x05#8 sd, decode_packWord 0x0C#8 0xA0#8 sd⟩

end Sys2Proof.Machine
end

section
/-! PROOF. What a frame determines and how long it is (`spec/40_frame_codec.md` section 2, `spec/30_encoding.md` R55). -/

namespace Sys2Proof.Machine

theorem decodeBody_esc_append (p : Params) (d : Byte) (rest : List Byte) :
    decodeBody p (esc p d ++ rest) = (decodeBody p rest).map (fun ds => d :: ds) := by
  cases hd : isCtrl p d with
  | true => rw [esc_ctrl hd]; exact decodeBody_escape p d rest
  | false => rw [esc_plain hd]; exact decodeBody_plain hd rest

theorem decodeBody_escAll (p : Params) (ds : List Byte) : decodeBody p (escAll p ds) = some ds := by
  induction ds with
  | nil => rfl
  | cons d ds ih => rw [escAll, decodeBody_esc_append, ih]; rfl

theorem escAll_injective (p : Params) : Function.Injective (escAll p) := fun xs ys h =>
  Option.some.inj ((decodeBody_escAll p xs).symm.trans (h ▸ decodeBody_escAll p ys))

/-- The bytes between a frame's START and END are its data bytes, the id first, all escaped under one rule. -/
theorem encodeFrame_eq_escAll (p : Params) (id : Byte) (pl : List Byte) :
    encodeFrame p id pl = p.startByte :: (escAll p (id :: pl) ++ [p.endByte]) := by
  simp only [encodeFrame, escAll, List.cons_append, List.nil_append]

theorem length_esc (p : Params) (d : Byte) : (esc p d).length = 1 + if isCtrl p d then 1 else 0 := by
  cases hd : isCtrl p d with
  | true => rw [esc_ctrl hd]; rfl
  | false => rw [esc_plain hd]; rfl

/-- Escaping adds one byte for each control value. -/
theorem length_escAll (p : Params) (ds : List Byte) : (escAll p ds).length = ds.length + ds.countP (isCtrl p) := by
  induction ds with
  | nil => rfl
  | cons d ds ih =>
    rw [escAll, List.length_append, length_esc, ih, List.length_cons, List.countP_cons]
    omega

theorem length_encodeFrame (p : Params) (id : Byte) (pl : List Byte) :
    (encodeFrame p id pl).length = pl.length + 3 + (id :: pl).countP (isCtrl p) := by
  rw [encodeFrame_eq_escAll, List.length_cons, List.length_append, length_escAll, List.length_cons,
    List.length_singleton]
  omega

/-- Settles O39: by induction, un-escaping one escaped byte at a time. -/
theorem decodeBodyInvertsEscaping : Obligations.DecodeBodyInvertsEscaping := by
  unfold Obligations.DecodeBodyInvertsEscaping
  intro p ds
  rw [← escAll_eq_flatten, decodeBody_escAll]

/-- Settles O40: the escaping has a left inverse, and a frame is its escaped data between two fixed bytes. -/
theorem encodeFrameInjective : Obligations.EncodeFrameInjective := by
  unfold Obligations.EncodeFrameInjective
  intro p id id' pl pl' h
  simp only [encodeFrame_eq_escAll, List.cons.injEq, true_and, List.append_cancel_right_eq] at h
  exact List.cons.inj (escAll_injective p h)

/-- Settles O41: the exact length, of which the count of control values is between none and all of the data bytes. -/
theorem frameLengthBounds : Obligations.FrameLengthBounds := by
  unfold Obligations.FrameLengthBounds
  intro p id pl
  have hcount : (id :: pl).countP (isCtrl p) ≤ pl.length + 1 := List.countP_le_length
  rw [length_encodeFrame]
  exact ⟨rfl, by omega, by omega⟩

end Sys2Proof.Machine
end

section
/-! PROOF. SEND_BLOCK as the sequence of commands it stands for (`spec/43_send_session.md`). -/

namespace Sys2Proof.Machine

/-- `s` after the SEND_BYTEs of `ps` and END_SEND, in a transaction that was open: one response for each. -/
def sentTail (ps : List Byte) (s : State) : State :=
  { s with
    txOpen := false
    history := s.history ++ (escAll s.params ps ++ [s.params.endByte]).map Event.tx
    responses := s.responses ++ List.replicate (ps.length + 1) (.bool true) }

/-- Sending a byte first and then the rest is sending all of them. -/
theorem sentTail_sent (b : Byte) (ps : List Byte) (s : State) :
    sentTail ps (sent true (esc s.params b) true s) = sentTail (b :: ps) s := by
  simp [sentTail, sent, escAll, List.replicate_succ]

theorem execAll_sendBytes_endSend {s : State} (ps : List Byte) (ha : s.Accepts) (ho : s.txOpen = true) :
    execAll (ps.map .sendByte ++ [.endSend]) s = .next (sentTail ps s) := by
  induction ps generalizing s with
  | nil => exact execAll_cons_next [] (exec_endSend_open ha ho)
  | cons b ps ih =>
    rw [List.map_cons, List.cons_append, execAll_cons_next _ (exec_sendByte_open b ha ho),
      ih (sent_accepts _ _ _ ha) rfl, sentTail_sent]

theorem execAll_beginSend_sendBytes_endSend {s : State} (id : Byte) (ps : List Byte) (ha : s.Accepts)
    (ho : s.txOpen = false) :
    execAll (.beginSend id :: (ps.map .sendByte ++ [.endSend])) s =
      .next (sentTail ps (sent true (s.params.startByte :: esc s.params id) true s)) := by
  rw [execAll_cons_next _ (exec_beginSend_closed id ha ho)]
  exact execAll_sendBytes_endSend ps (sent_accepts _ _ _ ha) rfl

/-- Settles O35: with none open both write the encoded frame and leave none open, SEND_BLOCK with one response and the
sequence with one for each command; with one open both fail. -/
theorem sendBlockEqualsSequence : Obligations.SendBlockEqualsSequence := by
  unfold Obligations.SendBlockEqualsSequence
  intro s id d off len ha hr
  refine ⟨fun ho => ⟨_, _, exec_sendBlock_inside id ha ho hr, execAll_beginSend_sendBytes_endSend id _ ha ho,
    ?sameEffect, rfl, ?responses⟩, fun ho => ?fails⟩
  case sameEffect => simp [sentTail, sent, encodeFrame, rangeBytes]
  case responses =>
    have hlen : ((d.drop off).take len).length = len := length_rangeBytes hr
    simp [sentTail, sent, hlen, List.replicate_succ]
  case fails =>
    rw [exec_frameStart_fails (.inr (.inr ⟨d, off, len, rfl⟩)) ha ho, exec_frameStart_fails (.inl rfl) ha ho]

end Sys2Proof.Machine
end

section
/-! PROOF. A whole frame fed to the assembler (`spec/40_frame_codec.md` section 2, `spec/70_reset_and_hazards.md` section 2,
conflict C6): one that fits is finalized, one that does not overflows at its first byte too many, and either leaves the
assembler in Idle. -/

namespace Sys2Proof.Machine

/-! ### Commands run one after the other -/

theorem execAll_append {is : List Instr} {s t : State} (js : List Instr) (h : execAll is s = .next t) :
    execAll (is ++ js) s = execAll js t := by
  induction is generalizing s with
  | nil => cases h; rfl
  | cons i is ih =>
    rw [execAll] at h
    rw [List.cons_append, execAll]
    cases hx : exec i s with
    | next u => rw [hx] at h; exact ih h
    | fault f => rw [hx] at h; cases h
    | refused r => rw [hx] at h; cases h

theorem execAll_singleton {i : Instr} {s t : State} (h : exec i s = .next t) : execAll [i] s = .next t :=
  execAll_cons_next [] h

theorem feeds_append (xs ys : List Byte) : feeds (xs ++ ys) = feeds xs ++ feeds ys := List.map_append

/-! ### The bytes a buffer holds after several appends -/

/-- The buffer with the bytes `ds` at the indices from `i` on. -/
def writeBytes (m : Memory) (i : Nat) : List Byte → Memory
  | [] => m
  | d :: ds => writeBytes (Memory.write m i d) (i + 1) ds

theorem read_writeBytes_before (m : Memory) {i j : Nat} (ds : List Byte) (h : j < i) :
    Memory.read (writeBytes m i ds) j = Memory.read m j := by
  induction ds generalizing m i with
  | nil => rfl
  | cons d ds ih =>
    rw [writeBytes, ih _ (Nat.lt_succ_of_lt h), memory_read_write_other _ _ _ _ (Nat.ne_of_lt h)]

theorem read_writeBytes (m : Memory) (i : Nat) {ds : List Byte} {k : Nat} (h : k < ds.length) :
    Memory.read (writeBytes m i ds) (i + k) = ds[k]? := by
  induction ds generalizing m i k with
  | nil => cases h
  | cons d ds ih =>
    cases k with
    | zero => exact (read_writeBytes_before _ ds (Nat.lt_succ_self i)).trans (memory_read_write_same m i d)
    | succ k =>
      rw [writeBytes, Nat.add_comm k 1, ← Nat.add_assoc, ih _ _ (Nat.lt_of_succ_lt_succ h), Nat.add_comm 1 k,
        List.getElem?_cons_succ]

/-! ### The data bytes of a frame while there is room -/

/-- The responses to `n` FEEDs that finalize nothing. -/
abbrev silent (n : Nat) : List Response := List.replicate n (.optByte none)

/-- `s` after the data bytes `ds` of a frame have been fed escaped and buffered. -/
def collected (ds : List Byte) (s : State) : State :=
  { s with
    rxBuf := writeBytes s.rxBuf s.rxIdx ds
    rxIdx := s.rxIdx + ds.length
    responses := s.responses ++ silent (escAll s.params ds).length }

theorem collected_cons (d : Byte) (ds : List Byte) (s : State) :
    collected ds (collected [d] s) = collected (d :: ds) s := by
  simp only [collected, writeBytes, escAll, List.length_cons, List.length_nil, List.length_append, List.append_nil,
    List.append_assoc, List.replicate_append_replicate, Nat.zero_add, Nat.add_assoc, Nat.add_comm 1]

theorem execAll_feeds_esc {s : State} (d : Byte) (hd : s.Driver) (hr : s.rxState = .inMessage)
    (hroom : s.rxIdx < s.params.readCap) : execAll (feeds (esc s.params d)) s = .next (collected [d] s) := by
  cases hc : isCtrl s.params d with
  | false =>
    rw [esc_plain hc]
    refine (execAll_singleton (exec_feed_data_room hd (.inr ⟨hr, hc⟩) hroom)).trans ?_
    simp [buffered, respond, collected, writeBytes, escAll, esc_plain hc, hr]
  | true =>
    rw [esc_ctrl hc]
    have hdata := exec_feed_data_room (s := afterEscape s) (b := d) hd (.inl rfl) hroom
    refine (execAll_escape_feed hd hr hdata).trans ?_
    simp [buffered, respond, afterEscape, collected, writeBytes, escAll, esc_ctrl hc, hr, List.replicate_succ]

theorem execAll_feeds_escAll {s : State} (ds : List Byte) (hd : s.Driver) (hr : s.rxState = .inMessage)
    (hroom : s.rxIdx + ds.length ≤ s.params.readCap) :
    execAll (feeds (escAll s.params ds)) s = .next (collected ds s) := by
  induction ds generalizing s with
  | nil => simp [collected, escAll, writeBytes, feeds, execAll]
  | cons d ds ih =>
    rw [List.length_cons] at hroom
    have hrest : (collected [d] s).rxIdx + ds.length ≤ s.params.readCap := by
      simp only [collected, List.length_singleton]
      omega
    rw [escAll, feeds_append, execAll_append _ (execAll_feeds_esc d hd hr (by omega)), ← collected_cons d ds]
    exact ih (s := collected [d] s) hd hr hrest

/-! ### The START of a frame -/

/-- What a START reports where the assembler stands: a resync where it cuts another frame off (R76, R78). -/
def startReport : RxState → List Event
  | .idle => []
  | .inMessage => [.dbg .unexpectedResync]
  | .escaping => []

/-- `s` after a START that opened a frame (R76, R78). -/
def opened (s : State) : State :=
  { s with
    rxIdx := 0, rxState := .inMessage
    history := s.history ++ startReport s.rxState
    responses := s.responses ++ [.optByte none] }

theorem exec_feed_start {s : State} (hv : s.params.Valid) (hd : s.Driver) (hr : s.rxState ≠ .escaping) :
    exec (.feed s.params.startByte) s = .next (opened s) := by
  cases hs : s.rxState with
  | idle =>
    rw [exec_feed_driver hd (assembleStep_idle_start hs)]
    simp [opened, startReport, hs, respond]
  | inMessage =>
    rw [exec_feed_inMessage hd hs (inMessageStep_start hv)]
    simp [opened, startReport, hs, respond, report, emit]
  | escaping => exact absurd hs hr

theorem execAll_feeds_start {s : State} (bs : List Byte) (hv : s.params.Valid) (hd : s.Driver)
    (hr : s.rxState ≠ .escaping) :
    execAll (feeds (s.params.startByte :: bs)) s = execAll (feeds bs) (opened s) :=
  execAll_cons_next _ (exec_feed_start hv hd hr)

/-! ### A frame that fits -/

/-- `s` after a frame's START and all its data bytes. -/
abbrev beforeEnd (ds : List Byte) (s : State) : State := collected ds (opened s)

theorem execAll_feeds_start_data {s : State} (ds : List Byte) (hv : s.params.Valid) (hd : s.Driver)
    (hr : s.rxState ≠ .escaping) (hfit : ds.length ≤ s.params.readCap) :
    execAll (feeds (s.params.startByte :: escAll s.params ds)) s = .next (beforeEnd ds s) := by
  rw [execAll_feeds_start _ hv hd hr]
  refine execAll_feeds_escAll (s := opened s) ds hd rfl ?_
  rwa [opened, Nat.zero_add]

theorem read_beforeEnd {ds : List Byte} {k : Nat} (s : State) (h : k < ds.length) :
    Memory.read (beforeEnd ds s).rxBuf k = ds[k]? := by
  have hread := read_writeBytes s.rxBuf 0 h
  rwa [Nat.zero_add] at hread

/-- A frame that fits finalizes its message with its END, which then dispatches on the id. -/
theorem execAll_feedFrame {s : State} (id : Byte) (pl : List Byte) (hv : s.params.Valid) (hd : s.Driver)
    (hr : s.rxState ≠ .escaping) (hfit : 1 + pl.length ≤ s.params.readCap) :
    ∃ m, (∀ k < 1 + pl.length, Memory.read m k = (id :: pl)[k]?) ∧
      execAll (feedFrame s.params id pl) s =
        .next (respond (.optByte (some id)) (dispatch id (finalized m (beforeEnd (id :: pl) s)))) := by
  have hlen : (id :: pl).length = 1 + pl.length := Nat.add_comm _ _
  have hidx : (beforeEnd (id :: pl) s).rxIdx = 1 + pl.length := (Nat.zero_add _).trans hlen
  have hid : id = Memory.byteAt .rxBuf (beforeEnd (id :: pl) s).rxBuf 0 :=
    (byteAt_written (read_beforeEnd s (by omega))).symm
  have hdata := execAll_feeds_start_data (id :: pl) hv hd hr (hlen ▸ hfit)
  obtain ⟨m, hm, hend⟩ := exec_feed_end (s := beforeEnd (id :: pl) s) hv hd rfl (by omega) (hidx ▸ hfit) hid
  obtain ⟨hcopied, -⟩ := copyPrefix_ok hm
  refine ⟨m, fun k hk => ?_, ?_⟩
  · rw [hcopied k (hidx ▸ hk)]
    have hread := read_beforeEnd s (hlen ▸ hk : k < (id :: pl).length)
    rw [List.getElem?_eq_getElem (hlen ▸ hk)] at hread ⊢
    rw [byteAt_written hread]
  · rw [feedFrame, encodeFrame_eq_escAll, ← List.cons_append, feeds_append, execAll_append _ hdata]
    exact execAll_singleton hend

theorem responses_beforeEnd (id : Byte) (pl : List Byte) (s : State) :
    (beforeEnd (id :: pl) s).responses = s.responses ++ silent ((encodeFrame s.params id pl).length - 1) := by
  rw [encodeFrame_eq_escAll]
  simp [collected, opened, List.replicate_succ]

/-- Settles O42: the START clears the index, each data byte is buffered behind the one before it, and END copies them to the
message buffer and dispatches on the id. -/
theorem frameRoundTrip : Obligations.FrameRoundTrip := by
  unfold Obligations.FrameRoundTrip
  intro s id pl pre hv hd hpre hfit
  have hr : s.rxState ≠ .escaping := by rcases hpre with ⟨hs, -⟩ | ⟨hs, -⟩ <;> simp [hs]
  have hhist : s.history ++ pre = (opened s).history := by
    rcases hpre with ⟨hs, rfl⟩ | ⟨hs, rfl⟩ <;> simp [opened, startReport, hs]
  obtain ⟨m, hm, hx⟩ := execAll_feedFrame id pl hv hd hr hfit
  have hid : Memory.read m 0 = some id := hm 0 (by omega)
  have hpayload : ∀ k < pl.length, Memory.read m (1 + k) = pl[k]? := by
    intro k hk
    rw [hm (1 + k) (by omega), Nat.add_comm 1 k, List.getElem?_cons_succ]
  have hresp := responses_beforeEnd id pl s
  have hend : (beforeEnd (id :: pl) s).rxIdx = 1 + pl.length := by
    simp only [collected, opened, List.length_cons]
    omega
  refine ⟨_, hx, ?_⟩
  rw [hhist, ← hresp, ← hend, ← tableEntry_eq]
  have hentry : tableEntry (finalized m (beforeEnd (id :: pl) s)) id = tableEntry s id := rfl
  rcases dispatch_cases id (finalized m (beforeEnd (id :: pl) s)) with ⟨h, he, ht⟩ | ⟨he, ht⟩
  · rw [ht, ← hentry, he]
    exact ⟨rfl, hid, rfl, rfl, hpayload, rfl, hd.1, rfl, rfl, rfl, rfl⟩
  · rw [ht, ← hentry, he]
    exact ⟨rfl, hid, rfl, rfl, hpayload, rfl, hd.1, hd.2.1, rfl⟩

/-! ### A frame that does not fit -/

/-- `s` after the data byte that found the buffer full, fed escaped as `n` bytes (R81). -/
def overflowedBy (n : Nat) (s : State) : State :=
  { overflowed s with responses := s.responses ++ silent n }

theorem execAll_feeds_esc_full {s : State} (d : Byte) (hd : s.Driver) (hr : s.rxState = .inMessage)
    (hfull : s.rxIdx = s.params.readCap) :
    execAll (feeds (esc s.params d)) s = .next (overflowedBy (esc s.params d).length s) := by
  cases hc : isCtrl s.params d with
  | false =>
    rw [esc_plain hc]
    exact execAll_singleton (exec_feed_data_full hd (.inr ⟨hr, hc⟩) hfull)
  | true =>
    rw [esc_ctrl hc]
    have hdata := exec_feed_data_full (s := afterEscape s) (b := d) hd (.inl rfl) hfull
    refine (execAll_escape_feed hd hr hdata).trans ?_
    simp [overflowedBy, overflowed, afterEscape, respond, report, emit, List.replicate_succ]

/-- Settles O43: the first READ_CAP data bytes are collected as those of a frame that fits, and the next one, escaped or not,
runs Append on the full buffer. -/
theorem oversizedFrameFirstOverflow : Obligations.OversizedFrameFirstOverflow := by
  unfold Obligations.OversizedFrameFirstOverflow
  intro s id pl d hv hd hr hlong hnext
  have hlen : ((id :: pl).take s.params.readCap).length = s.params.readCap := by
    rw [List.length_take, List.length_cons]
    omega
  have hdata := execAll_feeds_start_data ((id :: pl).take s.params.readCap) hv hd (by simp [hr]) hlen.le
  have hidx : (beforeEnd ((id :: pl).take s.params.readCap) s).rxIdx = s.params.readCap :=
    (Nat.zero_add _).trans hlen
  rw [← escAll_eq_flatten]
  have hover := execAll_feeds_esc_full (s := beforeEnd ((id :: pl).take s.params.readCap) s) d hd rfl hidx
  refine ⟨_, _, hdata, rfl, hidx, ?sameHistory, hover, rfl, rfl, ?overflow, rfl,
    hd.2.1, ?silent⟩
  case sameHistory => simp [collected, opened, startReport, hr]
  case overflow => simp [overflowedBy, overflowed, collected, opened, startReport, hr]
  case silent =>
    intro r hmem
    simp only [overflowedBy, collected, opened, List.append_assoc, List.drop_left] at hmem
    simp only [List.mem_append, List.mem_replicate, List.mem_singleton] at hmem
    tauto

/-! ### Any frame ends in Idle -/

/-- The assembler between two data bytes of a frame, whatever has become of it: in driver context, not in Escaping, the
index in range. -/
structure BetweenBytes (p : Params) (s : State) : Prop where
  params : s.params = p
  driver : s.Driver
  notEscaping : s.rxState ≠ .escaping
  rxIdx_le : s.rxIdx ≤ p.readCap

theorem BetweenBytes.opened {p : Params} {s : State} (hp : s.params = p) (hd : s.Driver) :
    BetweenBytes p (Machine.opened s) := ⟨hp, hd, nofun, Nat.zero_le _⟩

/-- A byte taken as data is buffered or overflows, and either ends between two bytes. -/
theorem BetweenBytes.exec_feed_data {p : Params} {s : State} {b : Byte} (hp : s.params = p) (hd : s.Driver)
    (hn : s.rxIdx ≤ p.readCap) (h : TakenAsData b s) : ∃ t, exec (.feed b) s = .next t ∧ BetweenBytes p t := by
  subst hp
  rcases Nat.lt_or_eq_of_le hn with hroom | hfull
  · exact ⟨_, exec_feed_data_room hd h hroom, rfl, hd, nofun, hroom⟩
  · exact ⟨_, exec_feed_data_full hd h hfull, rfl, hd, nofun, Nat.zero_le _⟩

/-- In Idle a byte is ignored or opens a frame, a spurious one where it is an escaped START (C6). -/
theorem BetweenBytes.exec_feed_idle {p : Params} {s : State} (h : BetweenBytes p s) (hv : p.Valid)
    (hr : s.rxState = .idle) (b : Byte) :
    ∃ t, exec (.feed b) s = .next t ∧ BetweenBytes p t ∧ (b ≠ p.startByte → t.rxState = .idle) := by
  obtain ⟨rfl, hd, hesc, hn⟩ := h
  by_cases hb : b = s.params.startByte
  · subst hb
    exact ⟨_, exec_feed_start hv hd hesc, .opened rfl hd, fun hne => absurd rfl hne⟩
  · exact ⟨_, exec_feed_driver hd (assembleStep_idle_other hr hb), ⟨rfl, hd, hesc, hn⟩, fun _ => hr⟩

/-- A data byte fed escaped leads from between two bytes to between two bytes: in Idle its ESCAPE is ignored, in a frame it
makes the next byte data. -/
theorem BetweenBytes.execAll_feeds_esc {p : Params} {s : State} (h : BetweenBytes p s) (hv : p.Valid) (d : Byte) :
    ∃ t, execAll (feeds (esc p d)) s = .next t ∧ BetweenBytes p t := by
  obtain ⟨rfl, hd, hesc, hn⟩ := id h
  cases hc : isCtrl s.params d with
  | false =>
    rw [esc_plain hc]
    cases hr : s.rxState with
    | idle =>
      obtain ⟨t, hx, ht, -⟩ := h.exec_feed_idle hv hr d
      exact ⟨t, execAll_singleton hx, ht⟩
    | inMessage =>
      obtain ⟨t, hx, ht⟩ := exec_feed_data rfl hd hn (.inr ⟨hr, hc⟩)
      exact ⟨t, execAll_singleton hx, ht⟩
    | escaping => exact absurd hr hesc
  | true =>
    rw [esc_ctrl hc]
    cases hr : s.rxState with
    | idle =>
      have ⟨_, hstart, _⟩ := hv
      obtain ⟨u, hu, hbetween, hidle⟩ := h.exec_feed_idle hv hr s.params.escapeByte
      obtain ⟨t, hx, ht, -⟩ := hbetween.exec_feed_idle hv (hidle hstart.symm) d
      exact ⟨t, (execAll_cons_next _ hu).trans (execAll_singleton hx), ht⟩
    | inMessage =>
      obtain ⟨t, hx, ht⟩ := exec_feed_data (s := afterEscape s) (b := d) rfl hd hn (.inl rfl)
      exact ⟨t, execAll_escape_feed hd hr hx, ht⟩
    | escaping => exact absurd hr hesc

theorem BetweenBytes.execAll_feeds_escAll {p : Params} {s : State} (h : BetweenBytes p s) (hv : p.Valid)
    (ds : List Byte) : ∃ t, execAll (feeds (escAll p ds)) s = .next t ∧ BetweenBytes p t := by
  induction ds generalizing s with
  | nil => exact ⟨s, rfl, h⟩
  | cons d ds ih =>
    obtain ⟨u, hu, hbetween⟩ := h.execAll_feeds_esc hv d
    obtain ⟨t, hx, ht⟩ := ih hbetween
    exact ⟨t, by rw [escAll, feeds_append, execAll_append _ hu, hx], ht⟩

theorem dispatch_rxState (id : Byte) (s : State) : (dispatch id s).rxState = s.rxState := by
  rcases dispatch_cases id s with ⟨h, -, ht⟩ | ⟨-, ht⟩ <;> rw [ht] <;> rfl

theorem dispatch_fault (id : Byte) (s : State) : (dispatch id s).fault = s.fault := by
  rcases dispatch_cases id s with ⟨h, -, ht⟩ | ⟨-, ht⟩ <;> rw [ht] <;> rfl

/-- END between two bytes leads to Idle: from Idle, from an empty frame, or by finalizing. -/
theorem BetweenBytes.exec_feed_end {p : Params} {s : State} (h : BetweenBytes p s) (hv : p.Valid) :
    ∃ t, exec (.feed p.endByte) s = .next t ∧ t.rxState = .idle ∧ t.fault = none := by
  obtain ⟨rfl, hd, hesc, hn⟩ := id h
  cases hr : s.rxState with
  | idle =>
    have ⟨hend, _⟩ := hv
    obtain ⟨t, hx, ht, hidle⟩ := h.exec_feed_idle hv hr s.params.endByte
    exact ⟨t, hx, hidle hend.symm, ht.driver.1⟩
  | inMessage =>
    rcases Nat.eq_zero_or_pos s.rxIdx with h0 | h1
    · exact ⟨_, exec_feed_inMessage hd hr (inMessageStep_end_empty hv h0), rfl, hd.1⟩
    · obtain ⟨m, -, hx⟩ := Machine.exec_feed_end hv hd hr h1 hn rfl
      exact ⟨_, hx, dispatch_rxState _ _, (dispatch_fault _ _).trans hd.1⟩
  | escaping => exact absurd hr hesc

/-- Settles O44: the frame's START leads to between two bytes, each escaped data byte keeps the assembler there, and from
there END leads to Idle. -/
theorem frameAlwaysEndsIdle : Obligations.FrameAlwaysEndsIdle := by
  unfold Obligations.FrameAlwaysEndsIdle
  intro s id pl hv hd hr
  obtain ⟨u, hu, hbetween⟩ := (BetweenBytes.opened rfl hd).execAll_feeds_escAll hv (id :: pl)
  obtain ⟨t, hx, ht⟩ := hbetween.exec_feed_end hv
  refine ⟨t, ?_, ht⟩
  rw [feedFrame, encodeFrame_eq_escAll, execAll_feeds_start _ hv hd hr, feeds_append, execAll_append _ hu]
  exact execAll_singleton hx

end Sys2Proof.Machine
end

section
/-! PROOF. The events of one byte (`spec/41_receive_assembler.md`, the derived transition table). -/

namespace Sys2Proof.Machine

/-- The event with which DISPATCH answers an id whose entry is `e` (R92). -/
def dispatchEvent (e : Option Handler) : Event :=
  match e with
  | some h => .invoke h
  | none => .dbg .unhandledType

/-- What one byte does to the history, by the id it finalizes, if it does. -/
inductive AssemblerEvents (s t : State) : Option Byte → Prop
  | silent (h : t.history = s.history) : AssemblerEvents s t none
  | reports (c : DbgCode) (hc : c = .bufferOverflow ∨ c = .unexpectedResync) (h : t.history = s.history ++ [.dbg c]) :
      AssemblerEvents s t none
  | dispatches (id : Byte) (h : t.history = s.history ++ [dispatchEvent (tableEntry s id)])
      (hact : ∀ g, tableEntry s id = some g → t.activeHandler = some g) : AssemblerEvents s t (some id)

theorem assembleStep_events {b : Byte} {s t : State} {r : Option Byte} (h : assembleStep b s = .ok (r, t)) :
    AssemblerEvents s t r := by
  rcases assembleStep_cases h with ⟨rfl, -, -, rfl⟩ | ⟨rfl, -, -, rfl⟩ | ⟨rfl, -, -, rfl⟩ | ⟨rfl, -, -, -, rfl⟩ |
    ⟨-, -, -, m, id, rfl, -, -, ⟨g, he, rfl⟩ | ⟨he, rfl⟩⟩ | ⟨rfl, -, -, rfl⟩ | ⟨rfl, -, -, rfl⟩ | ⟨rfl, -, -, rfl⟩
  · exact .silent rfl
  · exact .silent rfl
  · exact .silent rfl
  · exact .silent rfl
  · exact .dispatches id (by rw [he]; rfl) fun _ hg => he.symm.trans hg
  · exact .dispatches id (by rw [he]; rfl) fun _ hg => absurd (he.symm.trans hg) nofun
  · exact .reports _ (.inr rfl) rfl
  · exact .reports _ (.inl rfl) rfl
  · exact .silent rfl

/-- A FEED that answers gave one response, with the events of its byte; every other FEED changes neither the history nor
the responses. -/
theorem exec_feed_events {b : Byte} {s t : State} (hx : exec (.feed b) s = .next t) :
    (∃ r, AssemblerEvents s t r ∧ t.responses = s.responses ++ [.optByte r]) ∨
    (t.history = s.history ∧ t.responses = s.responses) := by
  rcases execFeed_next hx with ⟨-, r, u, hu, rfl⟩ | ⟨-, rfl⟩ | ⟨-, rfl⟩
  · refine .inl ⟨r, ?_, by rw [respond_responses, (assembleStep_fault_responses hu).2]⟩
    cases assembleStep_events hu with
    | silent h => exact .silent h
    | reports c hc h => exact .reports c hc h
    | dispatches id h hact => exact .dispatches id h hact
  · exact .inr ⟨rfl, rfl⟩
  · exact .inr ⟨rfl, rfl⟩

/-- The events of a FEED whose response is known. -/
theorem exec_feed_events_of_response {b : Byte} {s t : State} {r : Option Byte} (hx : exec (.feed b) s = .next t)
    (hr : t.responses = s.responses ++ [.optByte r]) : AssemblerEvents s t r := by
  rcases exec_feed_events hx with ⟨r', hev, hr'⟩ | ⟨-, hr'⟩
  · simp only [hr', List.append_cancel_left_eq, List.cons.injEq, Response.optByte.injEq, and_true] at hr
    exact hr ▸ hev
  · simp [hr'] at hr

/-- Settles O21: the events of a byte are read off the transition table, and a FEED's response tells which of them it made. -/
theorem feedReportsAtMostOnce : Obligations.FeedReportsAtMostOnce := by
  unfold Obligations.FeedReportsAtMostOnce
  refine ⟨?atMostOne, ?finalizes, ?doesNotFinalize⟩
  case atMostOne =>
    intro s t b hx
    rcases exec_feed_events hx with ⟨r, hev, -⟩ | ⟨h, -⟩
    · cases hev with
      | silent h => exact .inl h
      | reports c hc h => exact .inr (.inl ⟨c, h, by rcases hc with rfl | rfl <;> decide⟩)
      | dispatches id h hact =>
        cases he : tableEntry s id with
        | none =>
          rw [he] at h
          exact .inr (.inl ⟨_, h, by decide⟩)
        | some g =>
          rw [he] at h
          exact .inr (.inr ⟨g, h, hact g he⟩)
    · exact .inl h
  case finalizes =>
    intro s t b id hx hr
    cases exec_feed_events_of_response hx hr with
    | dispatches _ h _ => rw [h, ← tableEntry_eq]; rfl
  case doesNotFinalize =>
    intro s t b hx hr
    cases exec_feed_events_of_response hx hr with
    | silent h => exact .inl h
    | reports c hc h => rcases hc with rfl | rfl <;> simp [h]

end Sys2Proof.Machine
end

section
/-! PROOF. The seeds of the open parameters (`spec/00_scope.md` R6..R9; the model's construction, log 1). -/

namespace Sys2Proof.Machine

/-! ### Bytes by their distance from START -/

theorem byte_add_ne_add {a : Byte} {m n : Nat} (hm : m < 256) (hn : n < 256) (h : m ≠ n) :
    a + BitVec.ofNat 8 m ≠ a + BitVec.ofNat 8 n := by
  bv_omega

theorem byte_ne_add {a : Byte} {n : Nat} (h0 : 0 < n) (hn : n < 256) : a ≠ a + BitVec.ofNat 8 n := by
  bv_omega

/-- How far `b` lies past `a`, counting upward and around. -/
def distance (a b : Byte) : Nat := (b - a).toNat

theorem distance_lt (a b : Byte) : distance a b < 256 := (b - a).isLt

theorem add_distance (a b : Byte) : a + BitVec.ofNat 8 (distance a b) = b := by
  rw [distance, BitVec.ofNat_toNat, BitVec.setWidth_eq, BitVec.add_comm, BitVec.sub_add_cancel]

theorem distance_pos {a b : Byte} (h : a ≠ b) : 0 < distance a b := by
  unfold distance
  bv_omega

theorem distance_ne {a b c : Byte} (h : b ≠ c) : distance a b ≠ distance a c := fun he =>
  h (by rw [← add_distance a b, he, add_distance])

/-! ### The seeds and the legal choices -/

theorem ofSeeds_valid (st : Byte) (en : Fin 255) (es : Fin 254) (rc mc : Nat) (hc : Fin 256) :
    (Config.ofSeeds st en es rc mc hc).Valid := by
  simp only [Params.Valid, Config.ofSeeds]
  refine ⟨byte_ne_add (by omega) (by omega), byte_ne_add ?_ ?_, byte_add_ne_add (by omega) ?_ ?_, by omega, by omega,
    by omega, by omega⟩ <;> split <;> omega

/-- The seed of ESCAPE: its place among the bytes other than START and END, counted from START. -/
def escapeSeedOf (endDist escDist : Nat) : Nat := if escDist < endDist then escDist - 1 else escDist - 2

theorem escapeSeedOf_lt {n k : Nat} (hn : n < 256) (hk : k < 256) (hk0 : 0 < k) : escapeSeedOf n k < 254 := by
  unfold escapeSeedOf
  split <;> omega

/-- The distance that `Config.ofSeeds` gives ESCAPE for its seed. -/
theorem distance_of_escapeSeedOf {n k : Nat} (hn0 : 0 < n) (hk0 : 0 < k) (hne : n ≠ k) :
    (if escapeSeedOf n k < n - 1 then escapeSeedOf n k + 1 else escapeSeedOf n k + 2) = k := by
  unfold escapeSeedOf
  split <;> split <;> omega

theorem ofSeeds_surjective {p : Params} (hv : p.Valid) :
    ∃ st en es rc mc hc, Config.ofSeeds st en es rc mc hc = p := by
  obtain ⟨hse, hsx, hex, hcap, hmsg, hcount, hcount'⟩ := hv
  have hend := distance_lt p.startByte p.endByte
  have hend0 := distance_pos hse
  have hesc0 := distance_pos hsx
  have hseed := escapeSeedOf_lt hend (distance_lt p.startByte p.escapeByte) hesc0
  refine ⟨p.startByte, ⟨distance p.startByte p.endByte - 1, by omega⟩, ⟨_, hseed⟩, p.readCap - 1,
    p.msgCap - p.readCap, ⟨p.handlerCount - 1, by omega⟩, ?_⟩
  simp only [Config.ofSeeds, Nat.sub_add_cancel hend0, distance_of_escapeSeedOf hend0 hesc0 (distance_ne hex),
    add_distance, Nat.sub_add_cancel hcap, Nat.add_sub_cancel' hmsg, Nat.sub_add_cancel hcount]

/-- Settles O50: the seeds are START and the distances of END and ESCAPE from it, made small enough by what they must
differ from, and the sizes less what bounds them below. -/
theorem seedsCoverEveryLegalChoice : Obligations.SeedsCoverEveryLegalChoice := by
  unfold Obligations.SeedsCoverEveryLegalChoice
  exact ⟨ofSeeds_valid, fun _ hv => ofSeeds_surjective hv⟩

end Sys2Proof.Machine
end

section
/-! PROOF. All that a step can do, by what it changes: the inversion lemmas of the commands, the sequencer and the turns,
gathered so that a rule about every step has a case for each kind of effect. -/

namespace Sys2Proof.Machine

/-- All that the block can do, by what it changes. -/
inductive Effect (s : State) : State → Prop
  /-- A hold (log 5). -/
  | held : Effect s s
  /-- A fault is raised (R117). -/
  | raised (f : FaultReason) : Effect s (raise f s)
  /-- FEED's assembler step (R74). -/
  | fed {b : Byte} {r : Option Byte} {u : State} (hd : s.Driver) (hu : assembleStep b s = .ok (r, u)) :
      Effect s (respond (.optByte r) u)
  /-- The sequencer's assembler step (R89). -/
  | polled {b : Byte} {q : List Byte} {r : Option Byte} {t : State} (hp : s.PollOwned)
      (ht : assembleStep b (rxRead b q s) = .ok (r, t)) : Effect s t
  /-- POLL_ONCE (R88). -/
  | pollBegun : Effect s (setPollActive true s)
  /-- The end of the poll (R89). -/
  | pollEnded : Effect s (respond .unit (emit .pollDone (setPollActive false s)))
  /-- REGISTER below HANDLER_COUNT (R91). -/
  | registered (id : Byte) (h : Handler) : Effect s (respond .unit (tableWrite id h s))
  /-- HAS_NEXT (R95). -/
  | answered (r : Response) : Effect s (respond r s)
  /-- REGISTER or NEXT out of range (R91, R97). -/
  | reported (c : DbgCode) (r : Response) : Effect s (respond r (report c s))
  /-- NEXT before the payload's end (R96). -/
  | advanced (r : Response) (hlt : s.cursor < s.payloadEnd) : Effect s (respond r { s with cursor := s.cursor + 1 })
  /-- HANDLER_RETURN (R98). -/
  | returned : Effect s (respond .unit (leaveHandler s))
  /-- A send command, failed or not (R100..R104). -/
  | wrote (v : Bool) (es : List Byte) (r : Bool) : Effect s (sent v es r s)

theorem exec_effect {i : Instr} {s t : State} (h : exec i s = .next t) : Effect s t := by
  cases i with
  | feed b =>
    rcases execFeed_next h with ⟨hd, r, u, hu, rfl⟩ | ⟨-, rfl⟩ | ⟨-, rfl⟩
    · exact .fed hd hu
    · exact .raised _
    · exact .held
  | pollOnce =>
    rcases execPollOnce_next h with ⟨-, rfl⟩ | ⟨-, rfl⟩ | ⟨-, rfl⟩
    · exact .pollBegun
    · exact .raised _
    · exact .held
  | register id g =>
    rcases execRegister_next h with ⟨-, -, rfl⟩ | ⟨-, -, rfl⟩ | ⟨-, rfl⟩
    · exact .registered id g
    · exact .reported _ _
    · exact .held
  | hasNext =>
    rcases execHasNext_next h with ⟨-, rfl⟩ | ⟨-, rfl⟩ | ⟨-, rfl⟩
    · exact .answered _
    · exact .raised _
    · exact .held
  | next =>
    rcases execNext_next h with ⟨-, hlt, rfl⟩ | ⟨-, -, rfl⟩ | ⟨-, rfl⟩ | ⟨-, rfl⟩
    · exact .advanced _ hlt
    · exact .reported _ _
    · exact .raised _
    · exact .held
  | handlerReturn =>
    rcases execHandlerReturn_next h with ⟨-, rfl⟩ | ⟨-, rfl⟩ | ⟨-, rfl⟩
    · exact .returned
    · exact .raised _
    · exact .held
  | beginSend id =>
    rcases execBeginSend_next h with ⟨-, -, rfl⟩ | ⟨-, -, rfl⟩ | ⟨-, rfl⟩
    · exact .wrote _ _ _
    · exact .wrote _ _ _
    · exact .held
  | sendByte b =>
    rcases execSendByte_next h with ⟨-, -, rfl⟩ | ⟨-, -, rfl⟩ | ⟨-, rfl⟩
    · exact .wrote _ _ _
    · exact .wrote _ _ _
    · exact .held
  | endSend =>
    rcases execEndSend_next h with ⟨-, -, rfl⟩ | ⟨-, -, rfl⟩ | ⟨-, rfl⟩
    · exact .wrote _ _ _
    · exact .wrote _ _ _
    · exact .held
  | send0 id =>
    rcases execSend0_next h with ⟨-, -, rfl⟩ | ⟨-, -, rfl⟩ | ⟨-, rfl⟩
    · exact .wrote _ _ _
    · exact .wrote _ _ _
    · exact .held
  | sendBlock id d off len =>
    rcases execSendBlock_next h with ⟨-, -, rfl⟩ | ⟨-, -, -, rfl⟩ | ⟨-, -, -, rfl⟩ | ⟨-, rfl⟩
    · exact .wrote _ _ _
    · exact .raised _
    · exact .wrote _ _ _
    · exact .held

/-- The block's step has such an effect on the state with the port as it leaves it. -/
theorem blockStep_effect {s t : State} (h : blockStep s = .next t) : ∃ cs, Effect { s with port := cs } t := by
  rcases blockStep_cases s with ⟨-, hb⟩ | ⟨hp, hb⟩ | ⟨-, -, hb⟩ | ⟨c, cs, -, -, hb⟩
  · cases hb.symm.trans h
    exact ⟨s.port, .held⟩
  · rcases pollStep_next (hb.symm.trans h) with ⟨-, rfl⟩ | ⟨b, q, r, -, ht⟩
    · exact ⟨s.port, .pollEnded⟩
    · exact ⟨s.port, .polled hp ht⟩
  · cases hb.symm.trans h
    exact ⟨s.port, .held⟩
  · refine ⟨cs, ?_⟩
    rcases runCommand_cases c { s with port := cs } with ⟨i, -, hr⟩ | ⟨e, -, hr⟩
    · exact exec_effect (hr.symm.trans (hb.symm.trans h))
    · cases hr.symm.trans (hb.symm.trans h)
      exact .raised _

/-- All that a step can do: the block's effect, an arrival, or a RESET that was accepted. -/
inductive StepEffect (s : State) : State → Prop
  | block {t : State} (cs : List Command) (ts : List Turn) (h : Effect { s with port := cs, turns := ts } t) :
      StepEffect s t
  | arrived (b : Byte) (ts : List Turn) : StepEffect s (arrive b { s with turns := ts })
  | reset (ts : List Turn) (hdue : s.due = .reset :: ts) : StepEffect s (resetEffect { s with turns := ts })

theorem step_effect {s t : State} (h : step s = .next t) : StepEffect s t := by
  rcases step_cases s with ⟨-, hs⟩ | ⟨ts, -, hs⟩ | ⟨b, ts, -, hs⟩ | ⟨ts, hdue, hs⟩
  · obtain ⟨cs, he⟩ := blockStep_effect (hs.symm.trans h)
    exact .block cs s.turns he
  · obtain ⟨cs, he⟩ := blockStep_effect (hs.symm.trans h)
    exact .block cs ts he
  · cases hs.symm.trans h
    exact .arrived b ts
  · cases hs.symm.trans h
    rcases resetSignal_cases { s with turns := ts } with ⟨-, hr⟩ | ⟨-, hr⟩ <;> rw [hr]
    · exact .reset ts hdue
    · exact .block s.port ts .held

end Sys2Proof.Machine
end

section
/-! PROOF. The invariant (`spec/10_state.md` R34, R35, `spec/20_memory.md` R45): it holds at launch, every step keeps it, and
under it no step stops the model. -/

namespace Sys2Proof.Machine

/-! ### At launch -/

theorem launch_inv {p : Params} (hv : p.Valid) : (State.launch p).Inv := by
  have hnone : ∀ c ∈ (State.launch p).rxBuf, c.1 < p.readCap := fun _ hc => absurd hc List.not_mem_nil
  refine ⟨hv, ⟨Nat.zero_le _, fun _ => rfl⟩, ⟨rfl, nofun, nofun⟩,
    ⟨Nat.zero_le _, Nat.zero_le _, Nat.zero_le _, List.length_replicate⟩,
    ⟨List.Pairwise.nil, List.Pairwise.nil, hnone, fun _ hc => absurd hc List.not_mem_nil⟩, ?_, ?_⟩
  · exact fun i hi => absurd hi (Nat.not_lt_zero i)
  · exact fun i hi => absurd hi (Nat.not_lt_zero i)

/-! ### The assembler, outside handler context -/

/-- Moving the parser state, with the index kept or cut. -/
theorem inv_setRx {s : State} {x : RxState} {n : Nat} (hi : s.Inv) (hh : s.inHandler = false) (hn : n ≤ s.rxIdx)
    (hx : x = .idle → n = 0) : State.Inv { s with rxState := x, rxIdx := n } := by
  obtain ⟨hv, ⟨hidx, -⟩, ⟨hact, -, -⟩, hrange, hbuf, hrx, hmsg⟩ := hi
  have hout : ¬ s.inHandler = true := by simp [hh]
  exact ⟨hv, ⟨hn.trans hidx, hx⟩, ⟨hact, fun h => absurd h hout, fun h => absurd h hout⟩, hrange, hbuf,
    fun i hlt => hrx i (Nat.lt_of_lt_of_le hlt hn), hmsg⟩

theorem inv_buffered {s : State} (b : Byte) (hi : s.Inv) (hh : s.inHandler = false)
    (hroom : s.rxIdx < s.params.readCap) : (buffered b s).Inv := by
  obtain ⟨hv, -, ⟨hact, -, -⟩, hrange, ⟨hwr, hwm, hbr, hbm⟩, hrx, hmsg⟩ := hi
  have hout : ¬ s.inHandler = true := by simp [hh]
  have hwritten : ∀ i < s.rxIdx + 1, (Memory.read (Memory.write s.rxBuf s.rxIdx b) i).isSome = true := by
    intro i hlt
    by_cases hlast : i = s.rxIdx
    · rw [hlast, memory_read_write_same]; rfl
    · rw [memory_read_write_other _ _ _ _ hlast]
      exact hrx i (by omega)
  exact ⟨hv, ⟨hroom, nofun⟩, ⟨hact, fun h => absurd h hout, fun h => absurd h hout⟩, hrange,
    ⟨memory_write_wf _ _ hwr, hwm, memory_write_below _ hroom hbr, hbm⟩, hwritten, hmsg⟩

/-- Finalize leaves the invariant for DISPATCH, whose handler then finds the payload copied (R83). -/
theorem inv_finalized {s : State} {m : Memory} (hi : s.Inv) (hh : s.inHandler = false)
    (hm : copyPrefix s.params s.rxBuf s.msgBuf s.rxIdx = .ok m) : (finalized m s).Inv := by
  obtain ⟨hv, ⟨hidx, -⟩, ⟨hact, -, -⟩, ⟨-, -, hcur, htab⟩, ⟨hwr, hwm, hbr, hbm⟩, -, -⟩ := hi
  have hv' := hv
  obtain ⟨-, -, -, hcap, hmsg, -⟩ := hv'
  obtain ⟨hcopied, -, hkeepWf, hkeepBelow⟩ := copyPrefix_ok hm
  have hout : ¬ s.inHandler = true := by simp [hh]
  exact ⟨hv, ⟨Nat.zero_le _, fun _ => rfl⟩, ⟨hact, fun h => absurd h hout, fun h => absurd h hout⟩,
    ⟨hcap.trans hmsg, hidx.trans hmsg, hcur, htab⟩, ⟨hwr, hkeepWf hwm, hbr, hkeepBelow hbm⟩,
    fun i hlt => absurd hlt (Nat.not_lt_zero i), fun i hlt => Option.isSome_of_eq_some (hcopied i hlt)⟩

theorem inv_enterHandler {s : State} (g : Handler) (hi : s.Inv) (hr : s.rxState = .idle) (hstart : s.payloadStart = 1)
    (h1 : 1 ≤ s.payloadEnd) (hn : s.payloadEnd ≤ s.params.readCap) : (enterHandler g s).Inv := by
  obtain ⟨hv, hrxInv, -, ⟨hs, he, -, htab⟩, hbuf, hwritten⟩ := hi
  exact ⟨hv, hrxInv, ⟨rfl, fun _ => ⟨hstart, hstart.ge, hstart.le.trans h1, hn⟩, fun _ => hr⟩, ⟨hs, he, hs, htab⟩, hbuf,
    hwritten⟩

theorem assembleStep_inv {b : Byte} {s t : State} {r : Option Byte} (hi : s.Inv) (hh : s.inHandler = false)
    (h : assembleStep b s = .ok (r, t)) : t.Inv := by
  have ⟨_, ⟨hidx, hidle⟩, _⟩ := hi
  rcases assembleStep_cases h with ⟨-, -, -, rfl⟩ | ⟨-, -, -, rfl⟩ | ⟨-, -, -, rfl⟩ | ⟨-, -, -, h0, rfl⟩ |
    ⟨-, -, h0, m, id, -, hm, -, ⟨g, -, rfl⟩ | ⟨-, rfl⟩⟩ | ⟨-, -, -, rfl⟩ | ⟨-, -, -, rfl⟩ | ⟨-, -, hroom, rfl⟩
  · exact inv_setRx hi hh (Nat.zero_le _) nofun
  · exact hi
  · exact inv_setRx hi hh le_rfl nofun
  · exact inv_setRx hi hh le_rfl fun _ => h0
  · exact inv_enterHandler g (inv_finalized hi hh hm) rfl rfl (Nat.pos_of_ne_zero h0) hidx
  · exact inv_finalized hi hh hm
  · exact inv_setRx (s := s) (x := .inMessage) hi hh (Nat.zero_le _) nofun
  · exact inv_setRx (s := s) (x := .idle) hi hh (Nat.zero_le _) fun _ => rfl
  · exact inv_buffered b hi hh hroom

/-! ### The rest of the block -/

theorem inv_tableWrite {s : State} (id : Byte) (h : Handler) (hi : s.Inv) : (tableWrite id h s).Inv := by
  obtain ⟨hv, hrxInv, hhandler, ⟨hs, he, hc, htab⟩, hbuf, hwritten⟩ := hi
  exact ⟨hv, hrxInv, hhandler, ⟨hs, he, hc, List.length_set.trans htab⟩, hbuf, hwritten⟩

theorem inv_advanced {s : State} (hi : s.Inv) (hlt : s.cursor < s.payloadEnd) :
    State.Inv { s with cursor := s.cursor + 1 } := by
  obtain ⟨hv, hrxInv, ⟨hact, hpay, hrest⟩, ⟨hs, he, -, htab⟩, hbuf, hwritten⟩ := hi
  refine ⟨hv, hrxInv, ⟨hact, fun hh => ?_, hrest⟩, ⟨hs, he, Nat.le_trans hlt he, htab⟩, hbuf, hwritten⟩
  obtain ⟨hstart, h1, -, hcap⟩ := hpay hh
  exact ⟨hstart, Nat.le_succ_of_le h1, hlt, hcap⟩

theorem inv_leaveHandler {s : State} (hi : s.Inv) : (leaveHandler s).Inv := by
  obtain ⟨hv, hrxInv, -, hrange, hbuf, hwritten⟩ := hi
  exact ⟨hv, hrxInv, ⟨rfl, nofun, nofun⟩, hrange, hbuf, hwritten⟩

theorem inv_resetEffect {s : State} (hi : s.Inv) : (resetEffect s).Inv := by
  obtain ⟨hv, -, -, -, hbuf, -⟩ := hi
  exact ⟨hv, ⟨Nat.zero_le _, fun _ => rfl⟩, ⟨rfl, nofun, nofun⟩,
    ⟨Nat.zero_le _, Nat.zero_le _, Nat.zero_le _, List.length_replicate⟩, hbuf,
    fun i hlt => absurd hlt (Nat.not_lt_zero i), fun i hlt => absurd hlt (Nat.not_lt_zero i)⟩

/-- What the invariant does not speak of (the flags, the fault mark, the history, the responses, the queue) may change
freely. -/
theorem Effect.inv {s t : State} (h : Effect s t) (hi : s.Inv) : t.Inv := by
  cases h with
  | held | raised _ | pollBegun | pollEnded | answered _ | reported _ _ | wrote _ _ _ => exact hi
  | @fed b r u hd hu => exact assembleStep_inv (t := u) hi hd.2.1 hu
  | @polled b q r t hp ht => exact assembleStep_inv (s := rxRead b q s) hi hp.2.1 ht
  | registered id g => exact inv_tableWrite id g hi
  | advanced r hlt => exact inv_advanced hi hlt
  | returned => exact inv_leaveHandler (s := s) hi

theorem StepEffect.inv {s t : State} (h : StepEffect s t) (hi : s.Inv) : t.Inv := by
  cases h with
  | block cs ts he => exact he.inv hi
  | arrived b ts => exact hi
  | reset ts _ => exact inv_resetEffect (s := { s with turns := ts }) hi

/-! ### No step stops the model -/

/-- A command that is accepted answers, whatever its context makes of it. -/
theorem exec_completes {s : State} (i : Instr) (hi : s.Inv) (ha : s.Accepts) : ∃ t, exec i s = .next t := by
  rcases ha with hd | hc
  · by_cases hrefused : i ∈ [.hasNext, .next, .handlerReturn]
    · exact ⟨_, exec_handlerOnly_driver (by simpa using hrefused) hd⟩
    · obtain ⟨t, ht, -⟩ := passesContext_driver hi hd hrefused
      exact ⟨t, ht⟩
  · by_cases hpoll : i = .pollOnce
    · exact ⟨_, hpoll ▸ exec_pollOnce_handler hc⟩
    · by_cases hfeed : ∃ b, i = .feed b
      · obtain ⟨b, rfl⟩ := hfeed
        exact ⟨_, exec_feed_handler b hc⟩
      · obtain ⟨t, ht, -⟩ := passesContext_handler hi hc hpoll (not_exists.1 hfeed)
        exact ⟨t, ht⟩

theorem runCommand_completes {s : State} (c : Command) (hi : s.Inv) (ha : s.Accepts) :
    ∃ t, runCommand c s = .next t := by
  rcases runCommand_cases c s with ⟨i, -, hr⟩ | ⟨e, -, hr⟩ <;> rw [hr]
  · exact exec_completes i hi ha
  · exact ⟨_, rfl⟩

theorem pollStep_completes {s : State} (hi : s.Inv) : ∃ t, pollStep s = .next t := by
  cases hq : s.rxQueue with
  | nil => exact ⟨_, pollStep_empty hq⟩
  | cons b q =>
    obtain ⟨⟨-, -, -, -, hmsg, -⟩, ⟨hidx, -⟩, -⟩ := hi
    obtain ⟨r, t, ht⟩ := assembleStep_completes (s := rxRead b q s) b hidx hmsg
    exact ⟨t, pollStep_byte hq ht⟩

theorem blockStep_completes {s : State} (hi : s.Inv) : ∃ t, blockStep s = .next t := by
  rcases blockStep_cases s with ⟨-, hb⟩ | ⟨-, hb⟩ | ⟨-, -, hb⟩ | ⟨c, cs, ha, -, hb⟩ <;> rw [hb]
  · exact ⟨s, rfl⟩
  · exact pollStep_completes hi
  · exact ⟨s, rfl⟩
  · exact runCommand_completes (s := { s with port := cs }) c hi ha

/-! ### The obligations -/

/-- Settles O47: the launch state has empty buffers and no handler, and the reset machine's parameters are seeded, so legal
(`ofSeeds_valid`). -/
theorem invariantHoldsAtReset : Obligations.InvariantHoldsAtReset := by
  unfold Obligations.InvariantHoldsAtReset
  exact ⟨fun _ hv => launch_inv hv, launch_inv (ofSeeds_valid _ _ _ _ _ _)⟩

/-- Settles O48: each effect of a step keeps it; the assembler runs outside handler context only, by the gates, so what a
handler reads is not touched. -/
theorem stepKeepsInvariant : Obligations.StepKeepsInvariant := by
  unfold Obligations.StepKeepsInvariant
  exact fun s t hi h => (step_effect h).inv hi

/-- Settles O49: the assembler's index and NEXT's cursor are in range under the invariant, and nothing else touches a
buffer. -/
theorem stepNeverStops : Obligations.StepNeverStops := by
  unfold Obligations.StepNeverStops
  intro s hi
  rcases step_cases s with ⟨-, hs⟩ | ⟨ts, -, hs⟩ | ⟨b, ts, -, hs⟩ | ⟨ts, -, hs⟩ <;> rw [hs]
  · exact blockStep_completes hi
  · exact blockStep_completes (s := { s with turns := ts }) hi
  · exact ⟨_, rfl⟩
  · exact ⟨_, rfl⟩

end Sys2Proof.Machine
end

section
/-! PROOF. Rules of the whole machine, about every step in every state (`spec/00_scope.md` sections 3 and 4,
`spec/20_memory.md` section 1, `spec/60_exceptions.md` section 4). -/

namespace Sys2Proof.Machine

/-! ### What only grows -/

/-- From `s` to `t` the parameters stay, and the history and the responses only grow. -/
abbrev Grows (s t : State) : Prop :=
  t.params = s.params ∧ (∃ es, t.history = s.history ++ es) ∧ (∃ rs, t.responses = s.responses ++ rs)

theorem Grows.refl (s : State) : Grows s s := ⟨rfl, ⟨[], (List.append_nil _).symm⟩, ⟨[], (List.append_nil _).symm⟩⟩

theorem Grows.trans {s t u : State} (h : Grows s t) (h' : Grows t u) : Grows s u := by
  obtain ⟨hp, ⟨es, hh⟩, ⟨rs, hr⟩⟩ := h
  obtain ⟨hp', ⟨es', hh'⟩, ⟨rs', hr'⟩⟩ := h'
  exact ⟨hp'.trans hp, ⟨es ++ es', by rw [hh', hh, List.append_assoc]⟩,
    ⟨rs ++ rs', by rw [hr', hr, List.append_assoc]⟩⟩

theorem grows_rxRead (b : Byte) (q : List Byte) (s : State) : Grows s (rxRead b q s) :=
  ⟨rfl, ⟨[.rxRead b], rfl⟩, ⟨[], (List.append_nil _).symm⟩⟩

theorem grows_respond (r : Response) (s : State) : Grows s (respond r s) :=
  ⟨rfl, ⟨[], (List.append_nil _).symm⟩, ⟨[r], rfl⟩⟩

theorem assembleStep_grows {b : Byte} {s t : State} {r : Option Byte} (h : assembleStep b s = .ok (r, t)) :
    Grows s t := by
  obtain ⟨hparams, -⟩ := assembleStep_environment h
  refine ⟨hparams, ?_, [], by rw [(assembleStep_fault_responses h).2, List.append_nil]⟩
  cases assembleStep_events h with
  | silent hh => exact ⟨[], by rw [hh, List.append_nil]⟩
  | reports c _ hh => exact ⟨_, hh⟩
  | dispatches id hh _ => exact ⟨_, hh⟩

theorem Effect.grows {s t : State} (h : Effect s t) : Grows s t := by
  cases h with
  | held | raised _ | pollBegun => exact Grows.refl s
  | fed _ hu => exact Grows.trans (assembleStep_grows hu) (grows_respond _ _)
  | @polled b q _ _ _ ht =>
    exact Grows.trans (grows_rxRead b q s) (assembleStep_grows ht)
  | pollEnded | returned | reported _ _ | wrote _ _ _ => exact ⟨rfl, ⟨_, rfl⟩, ⟨_, rfl⟩⟩
  | registered _ _ | answered _ | advanced _ _ => exact ⟨rfl, ⟨[], (List.append_nil _).symm⟩, ⟨_, rfl⟩⟩

theorem StepEffect.grows {s t : State} (h : StepEffect s t) : Grows s t := by
  cases h with
  | block cs ts he => exact he.grows
  | arrived _ _ | reset _ _ => exact Grows.refl s

/-- Settles O51: each effect of a step appends to the history and to the responses, if it touches them, and none writes the
parameters. -/
theorem historyOnlyGrows : Obligations.HistoryOnlyGrows := by
  unfold Obligations.HistoryOnlyGrows
  exact fun s t h => (step_effect h).grows

/-! ### Handler context -/

/-- The last event of `t` is the invocation of its active handler, with the cursor at the payload's start (R92, R120). -/
abbrev Invoked (s t : State) : Prop :=
  ∃ h es, t.history = s.history ++ es ++ [.invoke h] ∧ t.activeHandler = some h ∧ t.cursor = t.payloadStart

/-- The assembler enters handler context by DISPATCH or not at all. -/
theorem assembleStep_inHandler {b : Byte} {s t : State} {r : Option Byte} (h : assembleStep b s = .ok (r, t)) :
    Invoked s t ∨ t.inHandler = s.inHandler := by
  rcases assembleStep_cases h with ⟨-, -, -, rfl⟩ | ⟨-, -, -, rfl⟩ | ⟨-, -, -, rfl⟩ | ⟨-, -, -, -, rfl⟩ |
    ⟨-, -, -, m, id, -, -, -, ⟨g, -, rfl⟩ | ⟨-, rfl⟩⟩ | ⟨-, -, -, rfl⟩ | ⟨-, -, -, rfl⟩ | ⟨-, -, -, rfl⟩
  · exact .inr rfl
  · exact .inr rfl
  · exact .inr rfl
  · exact .inr rfl
  · exact .inl ⟨g, [], by simp [finalized], rfl, rfl⟩
  · exact .inr rfl
  · exact .inr rfl
  · exact .inr rfl
  · exact .inr rfl

theorem Effect.entersHandler {s t : State} (h : Effect s t) (hs : s.inHandler = false) (ht : t.inHandler = true) :
    Invoked s t := by
  have hne : t.inHandler ≠ s.inHandler := by simp [hs, ht]
  cases h with
  | held | raised _ | pollBegun | pollEnded | registered _ _ | answered _ | reported _ _ | advanced _ _ | wrote _ _ _ =>
    exact absurd rfl hne
  | returned => cases ht
  | fed _ hu =>
    rcases assembleStep_inHandler hu with hinv | hsame
    · exact hinv
    · exact absurd hsame hne
  | @polled b _ _ _ _ hu =>
    rcases assembleStep_inHandler hu with ⟨h, es, hh, hact, hcur⟩ | hsame
    · exact ⟨h, .rxRead b :: es, by simpa using hh, hact, hcur⟩
    · exact absurd hsame hne

/-- What an effect in handler context leaves alone: the assembler does not run there, and only HANDLER_RETURN leaves it. -/
theorem Effect.inHandler_stable {s t : State} (h : Effect s t) (hs : s.inHandler = true) :
    (t.rxBuf = s.rxBuf ∧ t.msgBuf = s.msgBuf ∧ t.payloadStart = s.payloadStart ∧ t.payloadEnd = s.payloadEnd) ∧
    ((t.inHandler = true ∧ t.activeHandler = s.activeHandler) ∨
      (t.inHandler = false ∧ t.activeHandler = none ∧ t.history = s.history ++ [.ret])) := by
  cases h with
  | held | raised _ | pollBegun | pollEnded | registered _ _ | answered _ | reported _ _ | advanced _ _ | wrote _ _ _ =>
    exact ⟨⟨rfl, rfl, rfl, rfl⟩, .inl ⟨hs, rfl⟩⟩
  | returned => exact ⟨⟨rfl, rfl, rfl, rfl⟩, .inr ⟨rfl, rfl, rfl⟩⟩
  | fed hd _ => exact absurd (hd.2.1.symm.trans hs) (by decide)
  | polled hp _ => exact absurd (hp.2.1.symm.trans hs) (by decide)

/-- Settles O52: only the assembler's DISPATCH sets the flag, with its Invoke last, and only HANDLER_RETURN or RESET clears
it. -/
theorem handlerContextEntryAndExit : Obligations.HandlerContextEntryAndExit := by
  unfold Obligations.HandlerContextEntryAndExit
  intro s t h
  cases step_effect h with
  | block cs ts he =>
    refine ⟨fun hs ht => he.entersHandler hs ht, fun hs ht => ?_⟩
    obtain ⟨-, ⟨hin, -⟩ | ⟨-, hact, hret⟩⟩ := he.inHandler_stable hs
    · exact absurd (hin.symm.trans ht) (by decide)
    · exact ⟨hact, .inl hret⟩
  | arrived b ts =>
    exact ⟨fun hs ht => absurd (hs.symm.trans ht) (by decide), fun hs ht => absurd (hs.symm.trans ht) (by decide)⟩
  | reset ts hdue => exact ⟨nofun, fun _ _ => ⟨rfl, .inr ⟨ts, hdue⟩⟩⟩

/-- Settles O53: in handler context no effect of the block runs the assembler, an arrival touches the queue only, and RESET
keeps the buffers and leaves the context. -/
theorem payloadStableWhileHandlerRuns : Obligations.PayloadStableWhileHandlerRuns := by
  unfold Obligations.PayloadStableWhileHandlerRuns
  intro s t hs h
  cases step_effect h with
  | block cs ts he =>
    obtain ⟨⟨hrx, hmsg, hstart, hend⟩, hctx⟩ := he.inHandler_stable hs
    refine ⟨fun i => by rw [hmsg], fun i => by rw [hrx], fun ht => ⟨hstart, hend, ?_⟩⟩
    rcases hctx with ⟨-, hact⟩ | ⟨hout, -⟩
    · exact hact
    · exact absurd (hout.symm.trans ht) (by decide)
  | arrived b ts => exact ⟨fun _ => rfl, fun _ => rfl, fun _ => ⟨rfl, rfl, rfl⟩⟩
  | reset ts _ => exact ⟨fun _ => rfl, fun _ => rfl, nofun⟩

end Sys2Proof.Machine
end

section
/-! PROOF. The step runs what the port holds (`spec/10_state.md` R31, `spec/60_exceptions.md` R119), the Byte Stream arrives
(`spec/20_memory.md` R47), and a block that has ended holds (`spec/70_reset_and_hazards.md` R142). -/

namespace Sys2Proof.Machine

theorem blockStep_runs {s : State} {c : Command} {cs : List Command} {i : Instr} (ha : s.Accepts) (hp : s.port = c :: cs)
    (hd : decode c = .ok i) : blockStep s = exec i { s with port := cs } := by
  rw [blockStep_command ha hp, runCommand_legal hd]

/-- All that a word of the opcode table can be: one the decoder accepts with no side operand driven. -/
theorem decode_of_decodeTableWord {w : Nat} {i : Instr} (h : decodeTableWord 16 w = some i) :
    decode { word := BitVec.ofNat 16 (w % 2 ^ 16), side := Side.idle } = .ok i := by
  unfold decodeTableWord at h
  split at h
  · split at h
    · cases h; assumption
    · cases h
  · cases h

/-- Settles O8: without a turn due, and at a turn of its own, the block accepts the head of the port. -/
theorem stepRunsDecodedInstruction : Obligations.StepRunsDecodedInstruction := by
  unfold Obligations.StepRunsDecodedInstruction
  refine fun s c cs i ha hp hd => ⟨fun hdue => ?noTurn, fun ts hdue => ?blockTurn⟩
  case noTurn => rw [step_noTurns hdue, blockStep_runs ha hp hd]
  case blockTurn => rw [step_blockTurn hdue, blockStep_runs (s := { s with turns := ts }) ha hp hd]

/-- Settles O9: the word is offered to the block, which accepts it (`step_offer`). -/
theorem fetchWordRunsThatWord : Obligations.FetchWordRunsThatWord := by
  unfold Obligations.FetchWordRunsThatWord
  exact fun s w i ha hw => step_offer ha (decode_of_decodeTableWord hw)

/-- Settles O10: the turn's agent is the Byte Stream, whose step is the arrival. -/
theorem byteStreamArrives : Obligations.ByteStreamArrives := by
  unfold Obligations.ByteStreamArrives
  exact fun s b ts hdue => step_arriveTurn hdue

/-- Settles O59: an ended block is in driver context with nothing on the port. -/
theorem endedBlockHolds : Obligations.EndedBlockHolds := by
  unfold Obligations.EndedBlockHolds
  rintro s rest ⟨hp, hf, hpoll, hin, -⟩ hdue
  rw [step_noTurns hdue, blockStep_idle (.inl ⟨hf, hin, hpoll⟩) hp]

end Sys2Proof.Machine
end

section
/-! PROOF. What each family of commands leaves unchanged (`spec/41_receive_assembler.md`, `spec/42_dispatch_cursor.md`,
`spec/43_send_session.md`, `spec/20_memory.md`). -/

namespace Sys2Proof.Machine

/-- No byte of either buffer changes. -/
abbrev SameBytes (s t : State) : Prop :=
  ∀ a, Memory.read t.rxBuf a = Memory.read s.rxBuf a ∧ Memory.read t.msgBuf a = Memory.read s.msgBuf a

/-! ### The send commands -/

/-- All that a send command can do: write, setting `tx_open` only as BEGIN_SEND and END_SEND do; raise F_SEND_RANGE, as
SEND_BLOCK does; or hold. -/
inductive SendEffect (i : Instr) (s : State) : State → Prop
  | wrote (v : Bool) (es : List Byte) (r : Bool) (hv : v ≠ s.txOpen → i = .endSend ∨ ∃ id, i = .beginSend id) :
      SendEffect i s (sent v es r s)
  | raised (hi : ∃ id d off len, i = .sendBlock id d off len) : SendEffect i s (raise .sendRange s)
  | held : SendEffect i s s

theorem exec_sendEffect {i : Instr} {s t : State} (hi : isSendCommand i = true) (h : exec i s = .next t) :
    SendEffect i s t := by
  cases i with
  | feed _ | pollOnce | register _ _ | hasNext | next | handlerReturn => cases hi
  | beginSend id =>
    rcases execBeginSend_next h with ⟨-, -, rfl⟩ | ⟨-, -, rfl⟩ | ⟨-, rfl⟩
    · exact .wrote _ _ _ fun _ => .inr ⟨id, rfl⟩
    · exact .wrote _ _ _ fun _ => .inr ⟨id, rfl⟩
    · exact .held
  | sendByte b =>
    rcases execSendByte_next h with ⟨-, ho, rfl⟩ | ⟨-, ho, rfl⟩ | ⟨-, rfl⟩
    · exact .wrote _ _ _ fun hv => absurd ho.symm hv
    · exact .wrote _ _ _ fun hv => absurd ho.symm hv
    · exact .held
  | endSend =>
    rcases execEndSend_next h with ⟨-, -, rfl⟩ | ⟨-, -, rfl⟩ | ⟨-, rfl⟩
    · exact .wrote _ _ _ fun _ => .inl rfl
    · exact .wrote _ _ _ fun _ => .inl rfl
    · exact .held
  | send0 id =>
    rcases execSend0_next h with ⟨-, ho, rfl⟩ | ⟨-, ho, rfl⟩ | ⟨-, rfl⟩
    · exact .wrote _ _ _ fun hv => absurd ho.symm hv
    · exact .wrote _ _ _ fun hv => absurd ho.symm hv
    · exact .held
  | sendBlock id d off len =>
    rcases execSendBlock_next h with ⟨-, ho, rfl⟩ | ⟨-, -, -, rfl⟩ | ⟨-, ho, -, rfl⟩ | ⟨-, rfl⟩
    · exact .wrote _ _ _ fun hv => absurd ho.symm hv
    · exact .raised ⟨id, d, off, len, rfl⟩
    · exact .wrote _ _ _ fun hv => absurd ho.symm hv
    · exact .held

/-- Settles O54: `sent` writes the three fields it names, and which command wrote it says what it did to `tx_open`. -/
theorem frameOfSendCommands : Obligations.FrameOfSendCommands := by
  unfold Obligations.FrameOfSendCommands
  intro i s t hi h
  cases exec_sendEffect hi h with
  | wrote v es r hv => exact ⟨rfl, hv, fun hf => absurd rfl hf, fun _ => ⟨rfl, rfl⟩⟩
  | raised hblock => exact ⟨rfl, fun ho => absurd rfl ho, fun _ => ⟨rfl, hblock⟩, fun _ => ⟨rfl, rfl⟩⟩
  | held => exact ⟨rfl, fun ho => absurd rfl ho, fun hf => absurd rfl hf, fun _ => ⟨rfl, rfl⟩⟩

/-! ### The router's commands -/

theorem register_frame {id : Byte} {h : Handler} {s t : State} (hx : exec (.register id h) s = .next t) :
    t = { s with handlerTable := t.handlerTable, history := t.history, responses := t.responses } ∧
    t.handlerTable.length = s.handlerTable.length ∧
    (∀ k, k ≠ id.toNat → t.handlerTable.getD k none = s.handlerTable.getD k none) := by
  rcases execRegister_next hx with ⟨-, -, rfl⟩ | ⟨-, -, rfl⟩ | ⟨-, rfl⟩
  · refine ⟨rfl, List.length_set, fun k hk => ?_⟩
    simp [List.getD_eq_getElem?_getD, List.getElem?_set_ne hk.symm]
  · exact ⟨rfl, rfl, fun _ _ => rfl⟩
  · exact ⟨rfl, rfl, fun _ _ => rfl⟩

theorem hasNext_frame {s t : State} (hx : exec .hasNext s = .next t) :
    t = { s with responses := t.responses, fault := t.fault } := by
  rcases execHasNext_next hx with ⟨-, rfl⟩ | ⟨-, rfl⟩ | ⟨-, rfl⟩ <;> rfl

theorem next_frame {s t : State} (hx : exec .next s = .next t) :
    t = { s with cursor := t.cursor, history := t.history, responses := t.responses, fault := t.fault } := by
  rcases execNext_next hx with ⟨-, -, rfl⟩ | ⟨-, -, rfl⟩ | ⟨-, rfl⟩ | ⟨-, rfl⟩ <;> rfl

theorem handlerReturn_frame {s t : State} (hx : exec .handlerReturn s = .next t) :
    t = { s with
      inHandler := t.inHandler, activeHandler := t.activeHandler
      history := t.history, responses := t.responses, fault := t.fault } := by
  rcases execHandlerReturn_next hx with ⟨-, rfl⟩ | ⟨-, rfl⟩ | ⟨-, rfl⟩ <;> rfl

/-- Settles O55: one frame per command; the buffers are outside each of them. -/
theorem frameOfRouterCommands : Obligations.FrameOfRouterCommands := by
  unfold Obligations.FrameOfRouterCommands
  refine ⟨fun _ _ _ _ hx => register_frame hx, fun _ _ hx => hasNext_frame hx, fun _ _ hx => next_frame hx,
    fun _ _ hx => handlerReturn_frame hx, ?bytes⟩
  case bytes =>
    rintro i s t (⟨id, h, rfl⟩ | rfl | rfl | rfl) hx a
    · rw [(register_frame hx).1]; exact ⟨rfl, rfl⟩
    · rw [hasNext_frame hx]; exact ⟨rfl, rfl⟩
    · rw [next_frame hx]; exact ⟨rfl, rfl⟩
    · rw [handlerReturn_frame hx]; exact ⟨rfl, rfl⟩

/-! ### The receive commands -/

/-- The payload bounds, the cursor and the handler context are as they were. -/
abbrev SameDispatch (s t : State) : Prop :=
  t.payloadStart = s.payloadStart ∧ t.payloadEnd = s.payloadEnd ∧ t.cursor = s.cursor ∧
    t.inHandler = s.inHandler ∧ t.activeHandler = s.activeHandler

/-- What one received byte may touch: the receive buffer at `rx_idx`, if the byte is stored there, and, at an END inside a
message, the finalized bytes at the front of the message buffer and what DISPATCH sets. -/
abbrev ReceiveFrame (b : Byte) (s t : State) : Prop :=
  (∀ a, a ≠ s.rxIdx → Memory.read t.rxBuf a = Memory.read s.rxBuf a) ∧
  (∀ a, s.rxIdx ≤ a → Memory.read t.msgBuf a = Memory.read s.msgBuf a) ∧
  (s.rxState = .idle ∨ s.rxState = .inMessage ∧ isCtrl s.params b = true →
    ∀ a, Memory.read t.rxBuf a = Memory.read s.rxBuf a) ∧
  (¬ (s.rxState = .inMessage ∧ b = s.params.endByte) →
    (∀ a, Memory.read t.msgBuf a = Memory.read s.msgBuf a) ∧ SameDispatch s t)

theorem receiveFrame_refl (b : Byte) (s : State) : ReceiveFrame b s s :=
  ⟨fun _ _ => rfl, fun _ _ => rfl, fun _ _ => rfl, fun _ => ⟨fun _ => rfl, rfl, rfl, rfl, rfl, rfl⟩⟩

theorem receiveFrame_buffered {b : Byte} {s : State} (h : TakenAsData b s) : ReceiveFrame b s (buffered b s) := by
  refine ⟨fun a ha => memory_read_write_other _ _ _ _ ha, fun _ _ => rfl, fun hnot => ?_,
    fun _ => ⟨fun _ => rfl, rfl, rfl, rfl, rfl, rfl⟩⟩
  rcases h with hesc | ⟨hmsg, hplain⟩ <;> rcases hnot with hidle | ⟨hmsg', hctrl⟩
  · exact absurd (hesc.symm.trans hidle) (by decide)
  · exact absurd (hesc.symm.trans hmsg') (by decide)
  · exact absurd (hmsg.symm.trans hidle) (by decide)
  · exact absurd (hplain.symm.trans hctrl) (by decide)

/-- What Finalize and DISPATCH write is allowed to the END of a message: the message buffer is `m`, the frame copied in. -/
theorem receiveFrame_finalized {b : Byte} {s t : State} {m : Memory} (hr : s.rxState = .inMessage)
    (hb : b = s.params.endByte) (hm : copyPrefix s.params s.rxBuf s.msgBuf s.rxIdx = .ok m) (hrx : t.rxBuf = s.rxBuf)
    (hmsg : t.msgBuf = m) : ReceiveFrame b s t := by
  obtain ⟨-, hkept, -⟩ := copyPrefix_ok hm
  exact ⟨fun _ _ => by rw [hrx], fun a ha => by rw [hmsg, hkept a ha], fun _ _ => by rw [hrx],
    fun hne => absurd ⟨hr, hb⟩ hne⟩

/-- An assembler step writes only the receive path's fields and the history. -/
theorem assembleStep_fields {b : Byte} {s t : State} {r : Option Byte} (h : assembleStep b s = .ok (r, t)) :
    t = { s with
      rxState := t.rxState, rxIdx := t.rxIdx, rxBuf := t.rxBuf, msgBuf := t.msgBuf
      payloadStart := t.payloadStart, payloadEnd := t.payloadEnd, cursor := t.cursor
      inHandler := t.inHandler, activeHandler := t.activeHandler, history := t.history } := by
  rcases assembleStep_cases h with ⟨-, -, -, rfl⟩ | ⟨-, -, -, rfl⟩ | ⟨-, -, -, rfl⟩ | ⟨-, -, -, -, rfl⟩ |
    ⟨-, -, -, m, id, -, -, -, ⟨g, -, rfl⟩ | ⟨-, rfl⟩⟩ | ⟨-, -, -, rfl⟩ | ⟨-, -, -, rfl⟩ | ⟨-, -, -, rfl⟩ <;> rfl

theorem assembleStep_receiveFrame {b : Byte} {s t : State} {r : Option Byte} (h : assembleStep b s = .ok (r, t)) :
    ReceiveFrame b s t := by
  rcases assembleStep_cases h with ⟨-, -, -, rfl⟩ | ⟨-, -, -, rfl⟩ | ⟨-, -, -, rfl⟩ | ⟨-, -, -, -, rfl⟩ |
    ⟨hr, hb, -, m, id, -, hm, -, ⟨g, -, rfl⟩ | ⟨-, rfl⟩⟩ | ⟨-, -, -, rfl⟩ | ⟨-, -, -, rfl⟩ | ⟨-, hdata, -, rfl⟩
  · exact receiveFrame_refl b s
  · exact receiveFrame_refl b _
  · exact receiveFrame_refl b s
  · exact receiveFrame_refl b s
  · exact receiveFrame_finalized hr hb hm rfl rfl
  · exact receiveFrame_finalized hr hb hm rfl rfl
  · exact receiveFrame_refl b s
  · exact receiveFrame_refl b s
  · exact receiveFrame_buffered hdata

theorem feed_frame {b : Byte} {s t : State} (hx : exec (.feed b) s = .next t) :
    t = { s with
      rxState := t.rxState, rxIdx := t.rxIdx, rxBuf := t.rxBuf, msgBuf := t.msgBuf
      payloadStart := t.payloadStart, payloadEnd := t.payloadEnd, cursor := t.cursor
      inHandler := t.inHandler, activeHandler := t.activeHandler
      history := t.history, responses := t.responses, fault := t.fault } ∧ ReceiveFrame b s t := by
  rcases execFeed_next hx with ⟨-, r, u, hu, rfl⟩ | ⟨-, rfl⟩ | ⟨-, rfl⟩
  · refine ⟨?_, assembleStep_receiveFrame (t := u) hu⟩
    rw [assembleStep_fields hu]
    rfl
  · exact ⟨rfl, receiveFrame_refl b s⟩
  · exact ⟨rfl, receiveFrame_refl b _⟩

theorem pollOnce_frame {s t : State} (hx : exec .pollOnce s = .next t) :
    t = { s with pollActive := t.pollActive, fault := t.fault } := by
  rcases execPollOnce_next hx with ⟨-, rfl⟩ | ⟨-, rfl⟩ | ⟨-, rfl⟩ <;> rfl

/-- All that a sequencer step with a byte waiting can do (R89). -/
theorem pollStep_next_byte {s t : State} {b : Byte} {q : List Byte} (hq : s.rxQueue = b :: q)
    (h : pollStep s = .next t) : ∃ r, assembleStep b (rxRead b q s) = .ok (r, t) := by
  rcases pollStep_next h with ⟨hnil, -⟩ | ⟨b', q', r, hq', ht⟩
  · cases hnil.symm.trans hq
  · cases hq'.symm.trans hq
    exact ⟨r, ht⟩

/-- Settles O56: FEED and the sequencer share the assembler step, which is framed once, by the cases of the transition
table; reading the queue touches neither buffer. -/
theorem frameOfReceiveCommands : Obligations.FrameOfReceiveCommands := by
  unfold Obligations.FrameOfReceiveCommands
  refine ⟨fun _ _ _ hx => feed_frame hx, ?poll, ?polledByte⟩
  case poll =>
    intro s t hx
    refine ⟨pollOnce_frame hx, fun a => ?_⟩
    rw [pollOnce_frame hx]
    exact ⟨rfl, rfl⟩
  case polledByte =>
    intro s t b q hp hdue hq h
    obtain ⟨r, ht⟩ := pollStep_next_byte hq ((step_pollOwned hp hdue).symm.trans h)
    exact ⟨assembleStep_fields ht, assembleStep_receiveFrame (s := rxRead b q s) ht⟩

end Sys2Proof.Machine
end

section
/-! PROOF. Changes of state that the commands commute with: what a family does not look at may be changed before it runs or
after, with the same result. The send path and the receive path do not look at each other (`spec/20_memory.md` section 4), and
nothing looks at a handler token (`spec/00_scope.md` section 3, R10). -/

namespace Sys2Proof.Machine

/-! ### The effects of the receive path, by name -/

/-- `s` with the parser state and the index set. -/
def setRx (x : RxState) (n : Nat) (s : State) : State := { s with rxState := x, rxIdx := n }

/-- `s` with the cursor past one more byte (R96). -/
def advance (s : State) : State := { s with cursor := s.cursor + 1 }

/-- NEXT's answer to the read of the byte at the cursor (R96). -/
def answerRead (read : Except Fault Byte) (s : State) : Result :=
  match read with
  | .ok v => .next (respond (.byte v) (advance s))
  | .error f => .fault f

theorem execNext_eq (s : State) :
    execNext s = inHandlerOnly s fun s =>
      if s.cursor < s.payloadEnd then answerRead (bufRead .msgBuf s.params.msgCap s.msgBuf s.cursor) s
      else .next (respond (.byte Config.sentinel) (report .cursorOverrun s)) := rfl

theorem finalize_eq (s : State) :
    finalize s = (copyPrefix s.params s.rxBuf s.msgBuf s.rxIdx).bind fun m =>
      (bufRead .msgBuf s.params.msgCap m 0).map fun id => (some id, dispatch id (finalized m s)) := by
  unfold finalize
  cases copyPrefix s.params s.rxBuf s.msgBuf s.rxIdx with
  | error f => rfl
  | ok m => simp only [Except.bind]; cases bufRead .msgBuf s.params.msgCap m 0 <;> rfl

theorem inMessageStep_eq (b : Byte) (s : State) :
    inMessageStep b s =
      if b == s.params.escapeByte then .ok (none, setRx .escaping s.rxIdx s)
      else if b == s.params.endByte then
        if s.rxIdx = 0 then .ok (none, setRx .idle s.rxIdx s) else finalize s
      else if b == s.params.startByte then .ok (none, report .unexpectedResync (setRx .inMessage 0 s))
      else appendStep b s := rfl

theorem overflowed_eq (s : State) : overflowed s = setRx .idle 0 (report .bufferOverflow s) := rfl

/-! ### What a change has to leave to each family of commands -/

/-- `g` leaves alone the flags the gates read (R121), and a raise and a response commute with it. -/
structure GateMap (g : State → State) : Prop where
  fault : ∀ s, (g s).fault = s.fault
  inHandler : ∀ s, (g s).inHandler = s.inHandler
  pollActive : ∀ s, (g s).pollActive = s.pollActive
  params : ∀ s, (g s).params = s.params
  raise : ∀ f s, g (raise f s) = raise f (g s)
  respond : ∀ r s, g (respond r s) = respond r (g s)

/-- `g` leaves alone what the send commands read, and what they do commutes with it. -/
structure SendMap (g : State → State) : Prop extends GateMap g where
  txOpen : ∀ s, (g s).txOpen = s.txOpen
  txWrite : ∀ b s, g (txWrite b s) = txWrite b (g s)
  setTxOpen : ∀ v s, g (setTxOpen v s) = setTxOpen v (g s)

/-- `g`, with `k` on the handler tokens, leaves alone what the other commands read, and what they do commutes with it. -/
structure ReceiveMap (k : Handler → Handler) (g : State → State) : Prop extends GateMap g where
  rxState : ∀ s, (g s).rxState = s.rxState
  rxIdx : ∀ s, (g s).rxIdx = s.rxIdx
  rxBuf : ∀ s, (g s).rxBuf = s.rxBuf
  msgBuf : ∀ s, (g s).msgBuf = s.msgBuf
  cursor : ∀ s, (g s).cursor = s.cursor
  payloadEnd : ∀ s, (g s).payloadEnd = s.payloadEnd
  tableEntry : ∀ id s, tableEntry (g s) id = (tableEntry s id).map k
  setRx : ∀ x n s, g (setRx x n s) = setRx x n (g s)
  buffered : ∀ b s, g (buffered b s) = buffered b (g s)
  finalized : ∀ m s, g (finalized m s) = finalized m (g s)
  advance : ∀ s, g (advance s) = advance (g s)
  report : ∀ c s, g (report c s) = report c (g s)
  enterHandler : ∀ h s, g (enterHandler h s) = enterHandler (k h) (g s)
  leaveHandler : ∀ s, g (leaveHandler s) = leaveHandler (g s)
  tableWrite : ∀ id h s, g (tableWrite id h s) = tableWrite id (k h) (g s)
  setPollActive : ∀ v s, g (setPollActive v s) = setPollActive v (g s)

/-! ### The gates -/

theorem mapNext_next (g : State → State) (t : State) : mapNext g (.next t) = .next (g t) := rfl

section Gates

variable {g : State → State} {s : State} {run run' : State → Result}

theorem GateMap.accepting (hg : GateMap g) (s : State) : (g s).accepting = s.accepting := by
  simp only [State.accepting, State.pollOwned, hg.fault, hg.inHandler, hg.pollActive]

theorem GateMap.inAnyContext (hg : GateMap g) (hrun : run' (g s) = mapNext g (run s)) :
    inAnyContext (g s) run' = mapNext g (inAnyContext s run) := by
  unfold Machine.inAnyContext
  rw [hg.accepting]
  split
  · exact hrun
  · rfl

theorem GateMap.inDriver (hg : GateMap g) (hrun : run (g s) = mapNext g (run s)) :
    inDriver (g s) run = mapNext g (inDriver s run) := by
  unfold Machine.inDriver
  rw [hg.accepting, hg.inHandler, ← hg.raise]
  split
  · split
    · rfl
    · exact hrun
  · rfl

theorem GateMap.inHandlerOnly (hg : GateMap g) (hrun : run (g s) = mapNext g (run s)) :
    inHandlerOnly (g s) run = mapNext g (inHandlerOnly s run) := by
  unfold Machine.inHandlerOnly
  rw [hg.accepting, hg.inHandler, ← hg.raise]
  split
  · split
    · exact hrun
    · rfl
  · rfl

end Gates

/-! ### The send commands -/

section Send

variable {g : State → State}

theorem GateMap.sendFails (hg : GateMap g) (s : State) : sendFails (g s) = mapNext g (sendFails s) := by
  simp only [Machine.sendFails, mapNext_next, hg.respond]

theorem SendMap.txEsc (hg : SendMap g) (b : Byte) (s : State) : g (txEsc b s) = txEsc b (g s) := by
  simp only [Machine.txEsc, hg.params, apply_ite g, hg.txWrite]

theorem SendMap.txEscEach (hg : SendMap g) (bs : List Byte) (s : State) :
    g (txEscEach bs s) = txEscEach bs (g s) := by
  induction bs generalizing s with
  | nil => rfl
  | cons b bs ih => rw [Machine.txEscEach, ih, hg.txEsc, Machine.txEscEach]

/-- A send command reads the gates' flags, `tx_open` and the parameters, and its writes commute with the change. -/
theorem SendMap.exec (hg : SendMap g) {i : Instr} (hi : isSendCommand i = true) (s : State) :
    exec i (g s) = mapNext g (exec i s) := by
  cases i with
  | feed _ | pollOnce | register _ _ | hasNext | next | handlerReturn => cases hi
  | beginSend id =>
    simp only [Machine.exec]
    refine hg.inAnyContext ?_
    simp only [hg.txOpen, apply_ite (mapNext g), hg.sendFails, mapNext_next, hg.respond, hg.txEsc, hg.txWrite, hg.setTxOpen,
      hg.params]
  | sendByte b =>
    simp only [Machine.exec]
    refine hg.inAnyContext ?_
    simp only [hg.txOpen, apply_ite (mapNext g), hg.sendFails, mapNext_next, hg.respond, hg.txEsc]
  | endSend =>
    simp only [Machine.exec]
    refine hg.inAnyContext ?_
    simp only [hg.txOpen, apply_ite (mapNext g), hg.sendFails, mapNext_next, hg.respond, hg.setTxOpen, hg.txWrite, hg.params]
  | send0 id =>
    simp only [Machine.exec]
    refine hg.inAnyContext ?_
    simp only [hg.txOpen, apply_ite (mapNext g), hg.sendFails, mapNext_next, hg.respond, hg.txEsc, hg.txWrite, hg.params]
  | sendBlock id d off len =>
    simp only [Machine.exec]
    refine hg.inAnyContext ?_
    simp only [hg.txOpen, apply_ite (mapNext g), hg.sendFails, mapNext_next, hg.raise, hg.respond, hg.txEsc, hg.txEscEach,
      hg.txWrite, hg.params]

end Send

/-! ### The assembler -/

/-- An assembler's outcome with its next state changed. -/
def mapOk (g : State → State) : Except Fault (Option Byte × State) → Except Fault (Option Byte × State) :=
  Except.map (Prod.map id g)

section Receive

variable {k : Handler → Handler} {g : State → State}

theorem ReceiveMap.dispatch (hg : ReceiveMap k g) (id : Byte) (s : State) :
    g (dispatch id s) = dispatch id (g s) := by
  rcases dispatch_cases id s with ⟨h, he, hd⟩ | ⟨he, hd⟩
  · have he' : Machine.tableEntry (g s) id = some (k h) := by rw [hg.tableEntry, he]; rfl
    rw [hd, hg.enterHandler, dispatch_found he']
  · have he' : Machine.tableEntry (g s) id = none := by rw [hg.tableEntry, he]; rfl
    rw [hd, hg.report, dispatch_missing he']

theorem ReceiveMap.overflowed (hg : ReceiveMap k g) (s : State) : g (overflowed s) = overflowed (g s) := by
  rw [overflowed_eq, hg.setRx, hg.report, ← overflowed_eq]

theorem ReceiveMap.appendStep (hg : ReceiveMap k g) (b : Byte) (s : State) :
    appendStep b (g s) = mapOk g (appendStep b s) := by
  rcases Nat.lt_trichotomy s.rxIdx s.params.readCap with hroom | hfull | hover
  · have hroom' : (g s).rxIdx < (g s).params.readCap := by rwa [hg.rxIdx, hg.params]
    rw [appendStep_room b hroom, appendStep_room b hroom', ← hg.buffered]
    rfl
  · have hfull' : (g s).rxIdx = (g s).params.readCap := by rwa [hg.rxIdx, hg.params]
    rw [appendStep_full b hfull, appendStep_full b hfull', ← hg.overflowed]
    rfl
  · have hne : s.rxIdx ≠ s.params.readCap := Nat.ne_of_gt hover
    have hge : ¬ s.rxIdx < s.params.readCap := Nat.lt_asymm hover
    simp only [Machine.appendStep, appendByte, bufWrite, hg.rxIdx, hg.params, if_neg hne, if_neg hge]
    rfl

theorem ReceiveMap.finalize (hg : ReceiveMap k g) (s : State) : finalize (g s) = mapOk g (finalize s) := by
  simp only [finalize_eq, hg.params, hg.rxBuf, hg.msgBuf, hg.rxIdx, ← hg.finalized, ← hg.dispatch]
  cases copyPrefix s.params s.rxBuf s.msgBuf s.rxIdx with
  | error f => rfl
  | ok m => simp only [Except.bind]; cases bufRead .msgBuf s.params.msgCap m 0 <;> rfl

theorem mapOk_ok (g : State → State) (r : Option Byte) (t : State) : mapOk g (.ok (r, t)) = .ok (r, g t) := rfl

theorem ReceiveMap.inMessageStep (hg : ReceiveMap k g) (b : Byte) (s : State) :
    inMessageStep b (g s) = mapOk g (inMessageStep b s) := by
  simp only [inMessageStep_eq, hg.params, hg.rxIdx, apply_ite (mapOk g), hg.finalize, hg.appendStep, mapOk_ok, hg.report,
    hg.setRx]

/-- The assembler reads its own fields, the parameters and the table, and each outcome commutes with the change. -/
theorem ReceiveMap.assembleStep (hg : ReceiveMap k g) (b : Byte) (s : State) :
    assembleStep b (g s) = mapOk g (assembleStep b s) := by
  cases hr : s.rxState with
  | idle =>
    have hr' : (g s).rxState = .idle := (hg.rxState s).trans hr
    by_cases hb : b = s.params.startByte
    · subst hb
      have hstart : Machine.assembleStep (g s).params.startByte (g s) = .ok (none, Machine.setRx .inMessage 0 (g s)) :=
        assembleStep_idle_start hr'
      rw [hg.params, ← hg.setRx] at hstart
      rw [hstart, assembleStep_idle_start hr]
      rfl
    · have hb' : b ≠ (g s).params.startByte := by rwa [hg.params]
      rw [assembleStep_idle_other hr' hb', assembleStep_idle_other hr hb]
      rfl
  | inMessage =>
    rw [assembleStep_inMessage b hr, assembleStep_inMessage b ((hg.rxState s).trans hr), hg.inMessageStep]
  | escaping =>
    rw [assembleStep_data (.inl hr), assembleStep_data (.inl ((hg.rxState s).trans hr)), hg.appendStep]

/-! ### The commands that send nothing -/

theorem ReceiveMap.execFeed (hg : ReceiveMap k g) (b : Byte) (s : State) :
    execFeed b (g s) = mapNext g (execFeed b s) := by
  refine hg.inDriver ?_
  rw [hg.assembleStep]
  cases Machine.assembleStep b s with
  | ok p => exact congrArg Host.Outcome.next (hg.respond _ _).symm
  | error f => rfl

theorem ReceiveMap.answerRead (hg : ReceiveMap k g) (read : Except Fault Byte) (s : State) :
    answerRead read (g s) = mapNext g (answerRead read s) := by
  cases read with
  | ok v => simp only [Machine.answerRead, mapNext_next, hg.respond, hg.advance]
  | error f => rfl

theorem ReceiveMap.execNext (hg : ReceiveMap k g) (s : State) : execNext (g s) = mapNext g (execNext s) := by
  simp only [execNext_eq]
  refine hg.inHandlerOnly ?_
  simp only [hg.cursor, hg.payloadEnd, hg.params, hg.msgBuf, apply_ite (mapNext g), hg.answerRead, mapNext_next, hg.respond,
    hg.report]

/-- The command with its token renamed reads the gates' flags and the receive path, and its effect commutes with the
change. -/
theorem ReceiveMap.exec (hg : ReceiveMap k g) {i : Instr} (hi : isSendCommand i = false) (s : State) :
    exec (renameInstr k i) (g s) = mapNext g (exec i s) := by
  cases i with
  | feed b => exact hg.execFeed b s
  | pollOnce =>
    simp only [renameInstr, Machine.exec]
    refine hg.inDriver ?_
    simp only [mapNext_next, hg.setPollActive]
  | register id h =>
    simp only [renameInstr, Machine.exec]
    refine hg.inAnyContext ?_
    simp only [mapNext_next, hg.params, hg.respond, apply_ite g, hg.tableWrite, hg.report]
  | hasNext =>
    simp only [renameInstr, Machine.exec]
    refine hg.inHandlerOnly ?_
    simp only [mapNext_next, hg.respond, hg.cursor, hg.payloadEnd]
  | next => exact hg.execNext s
  | handlerReturn =>
    simp only [renameInstr, Machine.exec]
    refine hg.inHandlerOnly ?_
    simp only [mapNext_next, hg.respond, hg.leaveHandler]
  | beginSend _ | sendByte _ | endSend | send0 _ | sendBlock _ _ _ _ => cases hi

end Receive

/-! ### The two paths -/

theorem renameInstr_id (i : Instr) : renameInstr id i = i := by cases i <;> rfl

/-- What the send path holds is not looked at on the receive path. -/
theorem receiveMap_withSendPath (v : Bool) : ReceiveMap id (withSendPath v) where
  fault _ := rfl
  inHandler _ := rfl
  pollActive _ := rfl
  params _ := rfl
  raise _ _ := rfl
  respond _ _ := rfl
  rxState _ := rfl
  rxIdx _ := rfl
  rxBuf _ := rfl
  msgBuf _ := rfl
  cursor _ := rfl
  payloadEnd _ := rfl
  tableEntry id s := (congrFun Option.map_id (tableEntry s id)).symm
  setRx _ _ _ := rfl
  buffered _ _ := rfl
  finalized _ _ := rfl
  advance _ := rfl
  report _ _ := rfl
  enterHandler _ _ := rfl
  leaveHandler _ := rfl
  tableWrite _ _ _ := rfl
  setPollActive _ _ := rfl

/-- What the receive path holds is not looked at on the send path. -/
theorem sendMap_withReceivePath (r : State) : SendMap (withReceivePath r) where
  fault _ := rfl
  inHandler _ := rfl
  pollActive _ := rfl
  params _ := rfl
  raise _ _ := rfl
  respond _ _ := rfl
  txOpen _ := rfl
  txWrite _ _ := rfl
  setTxOpen _ _ := rfl

/-- Settles O57: each of the two changes is outside what the other path's commands read. -/
theorem sendAndReceiveAreIndependent : Obligations.SendAndReceiveAreIndependent := by
  unfold Obligations.SendAndReceiveAreIndependent
  refine ⟨fun i s v hi => ?receive, fun i s r hi => (sendMap_withReceivePath r).exec hi s⟩
  case receive =>
    have h := (receiveMap_withSendPath v).exec hi s
    rwa [renameInstr_id] at h

/-! ### Handler tokens -/

section Rename

variable (f : Handler → Handler)

theorem renameState_emit (e : Event) (s : State) :
    renameState f (emit e s) = emit (renameEvent f e) (renameState f s) := by
  simp [renameState, emit]

theorem tableEntry_renameState (id : Byte) (s : State) :
    tableEntry (renameState f s) id = (tableEntry s id).map f := by
  simp only [tableEntry_eq, renameState, List.getD_eq_getElem?_getD, List.getElem?_map]
  split
  · cases s.handlerTable[id.toNat]? <;> rfl
  · rfl

theorem renameState_tableWrite (id : Byte) (h : Handler) (s : State) :
    renameState f (tableWrite id h s) = tableWrite id (f h) (renameState f s) := by
  simp [renameState, tableWrite, List.map_set]

/-- Renaming the tokens changes nothing that a send command reads. -/
theorem sendMap_renameState : SendMap (renameState f) where
  fault _ := rfl
  inHandler _ := rfl
  pollActive _ := rfl
  params _ := rfl
  raise _ _ := rfl
  respond _ _ := rfl
  txOpen _ := rfl
  txWrite b s := renameState_emit f (.tx b) s
  setTxOpen _ _ := rfl

/-- The other commands read a token only to store it or to emit it. -/
theorem receiveMap_renameState : ReceiveMap f (renameState f) where
  fault _ := rfl
  inHandler _ := rfl
  pollActive _ := rfl
  params _ := rfl
  raise _ _ := rfl
  respond _ _ := rfl
  rxState _ := rfl
  rxIdx _ := rfl
  rxBuf _ := rfl
  msgBuf _ := rfl
  cursor _ := rfl
  payloadEnd _ := rfl
  tableEntry := tableEntry_renameState f
  setRx _ _ _ := rfl
  buffered _ _ := rfl
  finalized _ _ := rfl
  advance _ := rfl
  report c s := renameState_emit f (.dbg c) s
  enterHandler h _ := renameState_emit f (.invoke h) _
  leaveHandler _ := renameState_emit f .ret _
  tableWrite := renameState_tableWrite f
  setPollActive _ _ := rfl

theorem renameResult_eq_mapNext (r : Result) : renameResult f r = mapNext (renameState f) r := by
  cases r <;> rfl

/-- A send command carries no token. -/
theorem renameInstr_send {i : Instr} (hi : isSendCommand i = true) : renameInstr f i = i := by
  cases i with
  | feed _ | pollOnce | register _ _ | hasNext | next | handlerReturn => cases hi
  | beginSend _ | sendByte _ | endSend | send0 _ | sendBlock _ _ _ _ => rfl

theorem exec_rename (i : Instr) (s : State) :
    exec (renameInstr f i) (renameState f s) = mapNext (renameState f) (exec i s) := by
  cases hi : isSendCommand i with
  | false => exact (receiveMap_renameState f).exec hi s
  | true =>
    rw [renameInstr_send f hi, (sendMap_renameState f).exec hi s]

theorem build_rename : ∀ r ∈ opcodeMap, ∀ (b : Byte) (sd : Side),
    r.build b { sd with h := f sd.h } = renameInstr f (r.build b sd) := by
  simp only [opcodeMap, List.forall_mem_cons, List.not_mem_nil, false_imp_iff, implies_true, and_true]
  exact ⟨fun _ _ => rfl, fun _ _ => rfl, fun _ _ => rfl, fun _ _ => rfl, fun _ _ => rfl, fun _ _ => rfl, fun _ _ => rfl,
    fun _ _ => rfl, fun _ _ => rfl, fun _ _ => rfl, fun _ _ => rfl⟩

/-- The decoder hands the handler line on as it is (R58, R65). -/
theorem decode_rename (c : Command) : decode (renameCommand f c) = (decode c).map (renameInstr f) := by
  unfold decode
  have hword : (renameCommand f c).word = c.word := rfl
  rw [hword]
  cases hfind : opcodeMap.find? (fun r => r.hit c.word) with
  | none => rfl
  | some r => exact congrArg Except.ok (build_rename f r (List.mem_of_find?_eq_some hfind) (wordB c.word) c.side)

theorem runCommand_rename (c : Command) (s : State) :
    runCommand (renameCommand f c) (renameState f s) = mapNext (renameState f) (runCommand c s) := by
  unfold runCommand
  rw [decode_rename]
  cases decode c with
  | ok i => exact exec_rename f i s
  | error e => rfl

theorem pollStep_rename (s : State) : pollStep (renameState f s) = mapNext (renameState f) (pollStep s) := by
  cases hq : s.rxQueue with
  | nil =>
    rw [pollStep_empty hq, pollStep_empty (s := renameState f s) hq]
    exact congrArg (fun t => Host.Outcome.next (respond .unit t)) (renameState_emit f .pollDone (setPollActive false s)).symm
  | cons b q =>
    have hread : rxRead b q (renameState f s) = renameState f (rxRead b q s) :=
      (renameState_emit f (.rxRead b) { s with rxQueue := q }).symm
    have hq' : (renameState f s).rxQueue = b :: q := hq
    simp only [pollStep, hq, hq', hread, (receiveMap_renameState f).assembleStep]
    cases assembleStep b (rxRead b q s) <;> rfl

theorem blockStep_rename (s : State) : blockStep (renameState f s) = mapNext (renameState f) (blockStep s) := by
  rcases situation_cases s with hf | hp | ha
  · rw [blockStep_faulted hf, blockStep_faulted (s := renameState f s) hf]
    rfl
  · rw [blockStep_pollOwned hp, blockStep_pollOwned (s := renameState f s) hp, pollStep_rename]
  · cases hport : s.port with
    | nil =>
      have hport' : (renameState f s).port = [] := by simp [renameState, hport]
      rw [blockStep_idle ha hport, blockStep_idle (s := renameState f s) ha hport']
      rfl
    | cons c cs =>
      have hport' : (renameState f s).port = renameCommand f c :: cs.map (renameCommand f) := by
        simp [renameState, hport]
      rw [blockStep_command ha hport, blockStep_command (s := renameState f s) ha hport']
      exact runCommand_rename f c { s with port := cs }

theorem resetEffect_rename (s : State) : resetEffect (renameState f s) = renameState f (resetEffect s) := by
  simp [resetEffect, renameState]

theorem resetSignal_rename (s : State) : resetSignal (renameState f s) = renameState f (resetSignal s) := by
  rcases resetSignal_cases s with ⟨hf, hr⟩ | ⟨hf, hr⟩
  · rw [hr, resetSignal_unfaulted (s := renameState f s) hf, resetEffect_rename]
  · rw [hr, resetSignal_faulted (s := renameState f s) hf]

end Rename

/-- Settles O58: the renaming commutes with each agent's step; the block's part is that of the commands, the decoder and the
assembler. -/
theorem handlerTokensAreOpaque : Obligations.HandlerTokensAreOpaque := by
  unfold Obligations.HandlerTokensAreOpaque
  intro f s
  have hdue : (renameState f s).due = s.due := rfl
  rw [renameResult_eq_mapNext]
  rcases step_cases s with ⟨h, hs⟩ | ⟨ts, h, hs⟩ | ⟨b, ts, h, hs⟩ | ⟨ts, h, hs⟩ <;> rw [hs]
  · rw [step_noTurns (hdue.trans h), blockStep_rename]
  · rw [step_blockTurn (hdue.trans h)]
    exact blockStep_rename f { s with turns := ts }
  · rw [step_arriveTurn (hdue.trans h)]
    rfl
  · rw [step_resetTurn (hdue.trans h)]
    exact congrArg Host.Outcome.next (resetSignal_rename f { s with turns := ts })

end Sys2Proof.Machine
end
